-- ==== Sys2Proof/Word.lean ====
section
/-! DEFINITION. The word types of the block: bytes, samples, register addresses, command and response words. -/

namespace Sys2Proof

/-- One byte: a bus transfer, a window cell, a luma sample (20_memory.md R55). -/
abbrev Byte := BitVec 8

/-- One 16-bit source sample in format S16 (30_encoding.md R61). -/
abbrev Sample := BitVec 16

/-- A capture controller register address (20_memory.md R40). -/
abbrev RegAddr := BitVec 7

/-- A byte count of `BURST` or a window length of `FILL` (30_encoding.md R68). -/
abbrev Count := BitVec 24

/-- A command word CMD or a response word RSP (30_encoding.md R66, R70). -/
abbrev Word32 := BitVec 32

end Sys2Proof
end

