-- ==== Sys2Proof/Syntax.lean ====
section
/-! DEFINITION. The eight operations of the block, one constructor per row of spec/opcode_table.json (30_encoding.md R67, R68). -/

namespace Sys2Proof

/-- The commands of 30_encoding.md R67, with the operands of R68. -/
inductive Instr where
  /-- `CONV s`: convert one sample (40_codec.md R80) -/
  | conv (sample : Sample)
  /-- `RDREG a`: read one controller register (41_capture_control.md R90) -/
  | rdreg (addr : RegAddr)
  /-- `WRREG a, v`: write one controller register (41_capture_control.md R91) -/
  | wrreg (addr : RegAddr) (value : Byte)
  /-- `TRIG`: trigger a capture and open a session (41_capture_control.md R93) -/
  | trig
  /-- `POLL`: test the capture-done bit once (41_capture_control.md R94) -/
  | poll
  /-- `FLEN`: read the reported frame length (41_capture_control.md R95) -/
  | flen
  /-- `BURST n`: read `n` raw bytes into the window (42_burst_stream.md R101) -/
  | burst (count : Count)
  /-- `FILL w`: deliver luma bytes into a window of `w` bytes (42_burst_stream.md R104) -/
  | fill (width : Count)
deriving DecidableEq, Repr

/-- The assembler notation of 30_encoding.md R72, operands in decimal. -/
def Instr.asm : Instr → String
  | .conv v => "CONV " ++ toString v.toNat
  | .rdreg a => "RDREG " ++ toString a.toNat
  | .wrreg a v => "WRREG " ++ toString a.toNat ++ ", " ++ toString v.toNat
  | .trig => "TRIG"
  | .poll => "POLL"
  | .flen => "FLEN"
  | .burst n => "BURST " ++ toString n.toNat
  | .fill w => "FILL " ++ toString w.toNat

end Sys2Proof
end

