-- ==== Sys2Proof/WellFormed.lean ====
section
/-! DEFINITION. What the host must hand over with a command for it to be well formed (30_encoding.md R66, 60_exceptions.md R133). The operands themselves cannot be ill formed: each has exactly the width of its field. -/

namespace Sys2Proof

/-- The least window the host must hand over with a command (30_encoding.md R66): for `BURST n` and
`FILL w` at least as many bytes as the operand says, else none. -/
def Instr.windowNeed : Instr → Nat
  | .conv _ => 0
  | .rdreg _ => 0
  | .wrreg _ _ => 0
  | .trig => 0
  | .poll => 0
  | .flen => 0
  | .burst n => n.toNat
  | .fill w => w.toNat

/-- A command together with the size of the window handed over is well formed. -/
def Instr.wellFormed (i : Instr) (windowSize : Nat) : Bool :=
  decide (i.windowNeed ≤ windowSize)

end Sys2Proof
end

