-- ==== Sys2Proof/Decode.lean ====
section
/-! DEFINITION. The command word CMD (30_encoding.md R66 to R69): the operation map, the decoder, the encoder, and the decoder over the opcode table's numbering. -/

namespace Sys2Proof

/-- Why a command word is illegal (30_encoding.md R69). -/
inductive Illegal where
  /-- `op` is 0x0 or 0x9 to 0xF -/
  | unknownOp
  /-- `rsv` is not 0 -/
  | reservedBits
  /-- a must-be-zero bit of the operand field is set -/
  | operandBits
deriving DecidableEq, Repr

/-- The operand field must have its unused bits zero (30_encoding.md R68). -/
def needZero (width : Nat) (bits : BitVec width) (i : Instr) : Except Illegal Instr :=
  if bits = 0 then .ok i else .error .operandBits

/-- The operation selected by `op`, with its operands read from the word (30_encoding.md R67, R68). -/
def decodeOp (op : Nat) (w : Word32) : Except Illegal Instr :=
  match op with
  | 1 => needZero 8 (w.extractLsb' 16 8) (.conv (w.extractLsb' 0 16))
  | 2 => needZero 17 (w.extractLsb' 7 17) (.rdreg (w.extractLsb' 0 7))
  | 3 => needZero 9 (w.extractLsb' 15 9) (.wrreg (w.extractLsb' 8 7) (w.extractLsb' 0 8))
  | 4 => needZero 24 (w.extractLsb' 0 24) .trig
  | 5 => needZero 24 (w.extractLsb' 0 24) .poll
  | 6 => needZero 24 (w.extractLsb' 0 24) .flen
  | 7 => .ok (.burst (w.extractLsb' 0 24))
  | 8 => .ok (.fill (w.extractLsb' 0 24))
  | _ => .error .unknownOp

/-- The command a word stands for, or why it is illegal (30_encoding.md R66 to R69). -/
def decode (w : Word32) : Except Illegal Instr :=
  if w.extractLsb' 24 4 = 0 then decodeOp (w.extractLsb' 28 4).toNat w else .error .reservedBits

/-- The command word of a command (30_encoding.md R66 to R68). -/
def encode : Instr → Word32
  | .conv v => 0x1#4 ++ 0#12 ++ v
  | .rdreg a => 0x2#4 ++ 0#21 ++ a
  | .wrreg a v => 0x3#4 ++ 0#13 ++ a ++ v
  | .trig => 0x40000000#32
  | .poll => 0x50000000#32
  | .flen => 0x60000000#32
  | .burst n => 0x7#4 ++ 0#4 ++ n
  | .fill w => 0x8#4 ++ 0#4 ++ w

/-- One row of the operation map of 30_encoding.md R67: a word `w` selects it when
`w &&& mask = pattern`. -/
structure OpRow where
  mnemonic : String
  pattern : Word32
  mask : Word32
deriving DecidableEq, Repr

/-- The operation map of 30_encoding.md R67. -/
def opTable : List OpRow :=
  [ ⟨"CONV", 0x10000000#32, 0xFFFF0000#32⟩,
    ⟨"RDREG", 0x20000000#32, 0xFFFFFF80#32⟩,
    ⟨"WRREG", 0x30000000#32, 0xFFFF8000#32⟩,
    ⟨"TRIG", 0x40000000#32, 0xFFFFFFFF#32⟩,
    ⟨"POLL", 0x50000000#32, 0xFFFFFFFF#32⟩,
    ⟨"FLEN", 0x60000000#32, 0xFFFFFFFF#32⟩,
    ⟨"BURST", 0x70000000#32, 0xFF000000#32⟩,
    ⟨"FILL", 0x80000000#32, 0xFF000000#32⟩ ]

/-- The mnemonic of a command, as 30_encoding.md R67 spells it. -/
def Instr.mnemonic : Instr → String
  | .conv _ => "CONV"
  | .rdreg _ => "RDREG"
  | .wrreg _ _ => "WRREG"
  | .trig => "TRIG"
  | .poll => "POLL"
  | .flen => "FLEN"
  | .burst _ => "BURST"
  | .fill _ => "FILL"

/-- The word of an instruction given as the opcode table numbers its bits. A command word has no byte
serialisation (20_memory.md R48 d), so the number is the word. -/
def tableWord (nbits w : Nat) : Word32 := BitVec.ofNat 32 (w % 2 ^ nbits)

/-- What the decoder reads from an instruction whose bits are `w`. -/
def decodeTableWord (nbits w : Nat) : Option Instr :=
  match decode (tableWord nbits w) with
  | .ok i => some i
  | .error _ => none

end Sys2Proof
end

