-- ==== Sys2Proof/Config.lean ====
section
/-! DEFINITION. What is fixed for the block (00_scope.md R7), the open parameters (R8), and the choices of the environment that the spec calls draws (R15). -/

namespace Sys2Proof

namespace Config

/-- `FRAME_BYTES` of 00_scope.md R7: luma bytes of one frame, 320 * 240. -/
abbrev frameBytes : Nat := 76800

/-- `RAW_FRAME_BYTES` of 00_scope.md R7: raw bytes of one frame, two per pixel. -/
abbrev rawFrameBytes : Nat := 153600

/-- `SCALE` of 00_scope.md R7. -/
abbrev scale : Nat := 255

/-- `R_MAX` and `B_MAX` of 00_scope.md R7. -/
abbrev max5 : Nat := 31

/-- `G_MAX` of 00_scope.md R7. -/
abbrev max6 : Nat := 63

/-- `W_R` of 00_scope.md R7. -/
abbrev weightR : Nat := 77

/-- `W_G` of 00_scope.md R7. -/
abbrev weightG : Nat := 150

/-- `W_B` of 00_scope.md R7. -/
abbrev weightB : Nat := 29

/-- `LUMA_SHIFT` of 00_scope.md R7. -/
abbrev lumaShift : Nat := 8

/-- `LEN_MASK` of 00_scope.md R7. -/
abbrev lenMask : BitVec 24 := 0x7FFFFF#24

/-- `WRITE_FLAG` of 00_scope.md R7. -/
abbrev writeFlag : Byte := 0x80#8

end Config

/-- `BURST_CHUNK` of 00_scope.md R8: a positive count of raw bytes, or unlimited (the default). -/
inductive BurstChunk where
  | unlimited
  | atMost (bytes : Nat) (positive : 0 < bytes)
deriving DecidableEq, Repr, Inhabited

/-- The open parameters of 00_scope.md R8 (93_implementation_defined.md U15). No relation holds among
them. The machine takes them as an argument, carried unchanged in its state. -/
structure Params where
  /-- `REG_CLR` -/
  regClr : RegAddr
  /-- `VAL_CLR` -/
  valClr : Byte
  /-- `REG_START` -/
  regStart : RegAddr
  /-- `VAL_START` -/
  valStart : Byte
  /-- `REG_STATUS` -/
  regStatus : RegAddr
  /-- `DONE_BIT` -/
  doneBit : Fin 8
  /-- `REG_LEN_LO` -/
  regLenLo : RegAddr
  /-- `REG_LEN_MID` -/
  regLenMid : RegAddr
  /-- `REG_LEN_HI` -/
  regLenHi : RegAddr
  /-- `BURST_CMD` -/
  burstCmd : Byte
  /-- `BURST_CHUNK` -/
  burstChunk : BurstChunk
  /-- `POLL_DELAY_MS`: host side only, read by no rule of the block (60_exceptions.md R131). -/
  pollDelayMs : Nat
deriving DecidableEq, Repr, Inhabited

/-- What the controller has when a capture completes (20_memory.md R50, R52): the frame's raw bytes and
the length its registers report, which need not agree (10_state.md R32). -/
structure Capture where
  frame : List Byte
  len : BitVec 23
deriving DecidableEq, Repr, Inhabited

/-- What the controller does of its own accord between two byte transfers. -/
inductive ControllerMove where
  | nothing
  /-- the capture in progress completes (20_memory.md R52, R53) -/
  | complete (capture : Capture)
deriving DecidableEq, Repr, Inhabited

/-- Everything the environment decides at one byte transfer (00_scope.md R15, 20_memory.md R54). -/
structure EnvChoice where
  /-- what the controller does of its own accord just before this transfer -/
  move : ControllerMove
  /-- read where this is the first transfer of an `FLEN`: from now on the length registers of a completed
  capture report this length (10_state.md R32, log entry 26) -/
  report : Option (BitVec 23)
  /-- the transfer is acknowledged (20_memory.md R54) -/
  ack : Bool
  /-- the value of every bit the spec leaves open in a byte received here -/
  draw : Byte
  /-- for the data byte of a register write that is not acknowledged: the controller acted on it all the
  same (log entry 10) -/
  landed : Bool
  /-- for the data byte of a register read whose command byte equals `BURST_CMD`: the controller took that
  byte for the burst command (log entry 28) -/
  asBurst : Bool
deriving DecidableEq, Repr, Inhabited

/-- A script of environment choices: some in order, then others again and again, so that an execution may be
infinite (60_exceptions.md R136, log entry 17). -/
structure Script where
  first : List EnvChoice
  again : List EnvChoice
deriving DecidableEq, Repr, Inhabited

namespace Config

/-- The open parameters of the machine at hand: uninterpreted (log entry 2). -/
opaque params : Params

/-- The environment's choice number `k` where the script gives none: uninterpreted, so that nothing can be
proved of it (log entry 1). -/
opaque freeChoice (k : Nat) : EnvChoice

end Config

end Sys2Proof
end

