-- ==== Sys2Proof/Machine/State.lean ====
section
/-! DEFINITION. The machine's state as plain data: the block's record (10_state.md R20), the capture controller (R36), the host's side of the command port, the observations (R37), and what the environment chooses; the reasons a step can stop; the state after reset (70_reset_and_hazards.md R140). -/

namespace Sys2Proof.Machine

/-- The block's record `st`: the whole state of the block between two commands (10_state.md R20). -/
structure Block where
  /-- a session is open: a capture was triggered and its frame is not yet fully delivered -/
  triggered : Bool
  /-- luma bytes produced for the current session -/
  bytesDelivered : BitVec 32
  /-- raw bytes consumed since the last accepted `TRIG`, modulo 2^32 (10_state.md R25) -/
  srcOffset : BitVec 32
  /-- a bus fault has occurred; every command is refused -/
  halted : Bool
  /-- the controller bus select is asserted -/
  sel : Bool
deriving DecidableEq, Repr

/-- The capture-done flag: the controller's state (c) of 10_state.md R36. -/
inductive DoneFlag where
  /-- the spec constrains it in nothing, so that every read of it is a draw: at power-on
  (93_implementation_defined.md U14) and after a register write whose meaning the spec does not know (U5) -/
  | unconstrained
  | known (isSet : Bool)
deriving DecidableEq, Repr

/-- The FIFO, its read position, whether a capture is in progress, and the length registers: the
controller's state (a), (b), (d) and (e) of 10_state.md R36. -/
inductive Fifo where
  /-- nothing is known of it: at power-on (93_implementation_defined.md U14) and after a register write
  whose meaning the spec does not know (U5) -/
  | unknown
  /-- a capture is in progress: contents, position and length are unspecified (20_memory.md R53) -/
  | capturing
  /-- a capture is complete: its raw bytes, the read position, the length the registers report -/
  | complete (frame : List Byte) (pos : Nat) (len : BitVec 23)
deriving DecidableEq, Repr

/-- The capture controller (10_state.md R36), an external device kept apart from `st`. -/
structure Controller where
  /-- an accepted `TRIG` has performed its clear write since power-on and since the last `Reset`: until then every
  read of the done bit is a draw, whatever else was done. The model's record of 93_implementation_defined.md U13, no
  register (log entry 29) -/
  cleared : Bool
  done : DoneFlag
  fifo : Fifo
deriving DecidableEq, Repr

/-- A byte-addressed memory: the bytes it holds, by rising address. An address not listed has no byte
the model knows (log entry 5). -/
abbrev Memory := List Host.Cell

/-- The outbound window of a command (00_scope.md R18, 20_memory.md R47): its size in bytes, and the
bytes in it that are known. -/
structure Window where
  size : Nat
  cells : Memory
deriving DecidableEq, Repr

/-- A command as the host issues it: the word and the window handed over with it
(30_encoding.md R66, 60_exceptions.md R133). -/
structure Request where
  word : Word32
  window : Window
deriving DecidableEq, Repr

/-- What the host can do to the block between commands (60_exceptions.md R133, 70_reset_and_hazards.md R140). -/
inductive Input where
  | command (request : Request)
  | reset
deriving DecidableEq, Repr

/-- A bus event (20_memory.md R42). -/
inductive BusEvent where
  | sel
  | desel
  | tx (byte : Byte)
  | rx (byte : Byte)
deriving DecidableEq, Repr

/-- The status of a response (30_encoding.md R71); the reserved codes are never produced
(93_implementation_defined.md U11). -/
inductive Status where
  | ok
  | busy
  | noSession
  | illegal
  | busFault
  | halted
deriving DecidableEq, Repr

/-- A response in decoded form (30_encoding.md R60, R70). -/
structure Response where
  status : Status
  /-- the flag `LAST` -/
  last : Bool
  /-- the flag `DONE` -/
  done : Bool
  payload : BitVec 24
deriving DecidableEq, Repr

/-- What one command gives the host: the response, and the `(offset, byte)` pairs it wrote to the
window, in order (10_state.md R37 b). -/
structure Answer where
  response : Response
  writes : List (Nat × Byte)
deriving DecidableEq, Repr

/-- The state of the machine. -/
structure State where
  /-- the block's five fields -/
  st : Block
  /-- the open parameters, an argument of the machine, never written (log entry 2) -/
  params : Params
  /-- the capture controller -/
  ctl : Controller
  /-- the environment's script; what it does not give is a free value (log entry 1); never written -/
  env : Script
  /-- how many environment choices have been used: the model's own counter (log entry 1) -/
  drawn : Nat
  /-- what the host will do next, first first -/
  inbox : List Input
  /-- what the host does again and again once it has done that (60_exceptions.md R136, log entry 17); never
  written -/
  hostLoop : List Input
  /-- the window of the current or last command -/
  window : Window
  /-- the bus trace, oldest event first (20_memory.md R42) -/
  trace : List BusEvent
  /-- the responses with their window writes, oldest first (10_state.md R37) -/
  answers : List Answer
deriving DecidableEq, Repr

/-- Why a step can stop with a fault. The block's own BusFault is none of these: it is a next state
(60_exceptions.md R124). -/
inductive Fault where
  /-- Raised by `BURST` and `FILL` when the host handed over a window shorter than the bytes the command
  must write, which 30_encoding.md R66 forbids the host: the offset written does not exist
  (20_memory.md R40, R47). Safe: the model stops (log entry 6). -/
  | windowOverrun
deriving DecidableEq, Repr

/-- Why a step can be refused. -/
inductive Refusal where
  /-- Raised by an arm of `exec` for an instruction without a meaning; no arm raises it. Safe. -/
  | notModelled (mnemonic : String)
deriving DecidableEq, Repr

/-- The block's record after `Reset` (70_reset_and_hazards.md R140). -/
def Block.reset : Block :=
  { triggered := false
    bytesDelivered := 0
    srcOffset := 0
    halted := false
    sel := false }

/-- A window of no bytes: what a command other than `BURST` and `FILL` is handed. -/
def Window.empty : Window := { size := 0, cells := [] }

/-- The machine at power-on, right after `Reset` (70_reset_and_hazards.md R140): the block's fields 0,
nothing observed, the controller unspecified. The model's own fields: log entries 1, 2, 4, 5, 17. -/
def State.reset : State :=
  { st := Block.reset
    params := Config.params
    ctl := { cleared := false, done := .unconstrained, fifo := .unknown }
    env := { first := [], again := [] }
    drawn := 0
    inbox := []
    hostLoop := []
    window := Window.empty
    trace := []
    answers := [] }

end Sys2Proof.Machine
end

