-- ==== Sys2Proof/Machine/Flags.lean ====
section
/-! DEFINITION. The response word RSP: status codes (30_encoding.md R71), the flags LAST and DONE, the word (R70), and its reading by the host. The block has no arithmetic flags (10_state.md R23). -/

namespace Sys2Proof.Machine

/-- The numeric code of a status (30_encoding.md R71). -/
def statusCode : Status → BitVec 4
  | .ok => 0x0
  | .busy => 0x1
  | .noSession => 0x2
  | .illegal => 0x3
  | .busFault => 0x4
  | .halted => 0x5

/-- The status of a code; the reserved codes have none (30_encoding.md R71). -/
def statusOfCode (c : BitVec 4) : Option Status :=
  match c.toNat with
  | 0 => some .ok
  | 1 => some .busy
  | 2 => some .noSession
  | 3 => some .illegal
  | 4 => some .busFault
  | 5 => some .halted
  | _ => none

/-- `flags`, bits 27 to 24 of the response word: `LAST` is bit 1, `DONE` bit 0 (30_encoding.md R70). -/
def flagBits (last done : Bool) : BitVec 4 :=
  (BitVec.ofBool last).zeroExtend 4 <<< 1 ||| (BitVec.ofBool done).zeroExtend 4

/-- The response word (30_encoding.md R70). -/
def responseWord (r : Response) : Word32 :=
  statusCode r.status ++ flagBits r.last r.done ++ r.payload

/-- The response a word stands for, as the host reads it; none for the reserved codes and bits
(30_encoding.md R70, R71). -/
def readResponse (w : Word32) : Option Response :=
  if w.extractLsb' 26 2 = 0 then
    (statusOfCode (w.extractLsb' 28 4)).map fun status =>
      { status := status
        last := w.getLsbD 25
        done := w.getLsbD 24
        payload := w.extractLsb' 0 24 }
  else none

/-- `respond(OK, 0, payload)`. -/
def okResponse (payload : BitVec 24) : Response :=
  { status := .ok, last := false, done := false, payload := payload }

/-- A response whose status is not `OK`: flags and payload are 0 (30_encoding.md R70). -/
def plainResponse (status : Status) : Response :=
  { status := status, last := false, done := false, payload := 0 }

end Sys2Proof.Machine
end

