-- ==== Sys2Proof/Machine/Operands.lean ====
section
/-! DEFINITION. The operand forms: the bus command byte CA (30_encoding.md R63), sample assembly (R62), the length field LEN24 (R65), the pairing of raw bytes (42_burst_stream.md R103), the byte counts of BURST and FILL (R102, R105), and the host's length check (R108). -/

namespace Sys2Proof.Machine

/-- The command byte of a register read: bit 7 is 0 (30_encoding.md R63). -/
def readCommand (a : RegAddr) : Byte := a.zeroExtend 8

/-- The command byte of a register write: bit 7 is the write flag (30_encoding.md R63). -/
def writeCommand (a : RegAddr) : Byte := a.zeroExtend 8 ||| Config.writeFlag

/-- A sample from two raw bytes, the high byte received first (30_encoding.md R62). -/
def assembleSample (b0 b1 : Byte) : Sample := (b0.zeroExtend 16 <<< 8) ||| b1.zeroExtend 16

/-- The samples of a list of raw bytes, two bytes each (42_burst_stream.md R103). -/
def pairSamples : List Byte → List Sample
  | b0 :: b1 :: rest => assembleSample b0 b1 :: pairSamples rest
  | _ => []

/-- The frame length from the three length registers: bit 23 is dropped (30_encoding.md R65). -/
def assembleLength (lo mid hi : Byte) : BitVec 24 :=
  ((hi.zeroExtend 24 <<< 16) ||| (mid.zeroExtend 24 <<< 8) ||| lo.zeroExtend 24) &&& Config.lenMask

/-- The tested bit of the status byte (41_capture_control.md R94). -/
def doneBitOf (p : Params) (status : Byte) : Bool := status.getLsbD p.doneBit.val

/-- How many luma bytes a `FILL` delivers (42_burst_stream.md R105). -/
def fillCount (w : Count) (delivered : BitVec 32) : Nat :=
  min w.toNat (Config.frameBytes - delivered.toNat)

/-- How many raw bytes the next select window of a `FILL` carries when `m` are still wanted
(42_burst_stream.md R102). -/
def chunkOf (chunk : BurstChunk) (m : Nat) : Nat :=
  match chunk with
  | .unlimited => m
  | .atMost c _ => min m c

/-- The host's length check `LenOk` (42_burst_stream.md R108). -/
def lenOk (len : BitVec 24) : Bool := decide (Config.rawFrameBytes ≤ len.toNat)

/-- The `(offset, byte)` pairs of the bytes a command writes from offset `off` on (20_memory.md R47). -/
def offsetsFrom : Nat → List Byte → List (Nat × Byte)
  | _, [] => []
  | off, b :: bs => (off, b) :: offsetsFrom (off + 1) bs

end Sys2Proof.Machine
end

