-- ==== Sys2Proof/Machine/Ops.lean ====
section
/-! DEFINITION. The named operations of the machine: memory and window, the capture controller's contract (20_memory.md R50 to R54), bus transfers and the bus primitives (R42 to R46), responses, taking the BusFault (60_exceptions.md R124), Reset (70_reset_and_hazards.md R140), accepting a command. -/

namespace Sys2Proof.Machine

/-! ### Memory -/

/-- Addresses rise strictly: the one canonical form of a memory. -/
def Memory.wf : Memory → Bool
  | [] => true
  | [_] => true
  | x :: y :: rest => decide (x.1 < y.1) && Memory.wf (y :: rest)

/-- The byte at an address, or none where the memory holds none. -/
def Memory.read : Memory → Nat → Option Byte
  | [], _ => none
  | x :: rest, a => if x.1 = a then some x.2 else Memory.read rest a

/-- Store a byte at an address, keeping the addresses rising. -/
def Memory.write : Memory → Nat → Byte → Memory
  | [], a, b => [(a, b)]
  | x :: rest, a, b =>
    if a < x.1 then (a, b) :: x :: rest
    else if a = x.1 then (a, b) :: rest
    else x :: Memory.write rest a b

/-- Store bytes at consecutive addresses from `a` on. -/
def Memory.writeFrom : Memory → Nat → List Byte → Memory
  | m, _, [] => m
  | m, a, b :: bs => Memory.writeFrom (Memory.write m a b) (a + 1) bs

/-- A window is well formed: its memory is canonical and holds no address outside the window. -/
def Window.wf (w : Window) : Bool :=
  Memory.wf w.cells && w.cells.all fun x => decide (x.1 < w.size)

/-- `WinWrite` at offsets 0, 1, 2, ... (20_memory.md R47). -/
def Window.fill (w : Window) (bs : List Byte) : Window :=
  { w with cells := Memory.writeFrom w.cells 0 bs }

/-! ### The environment's choices -/

/-- Choice number `k` of a script: past its first choices it goes round in the others, if there are any. -/
def scriptChoice (env : Script) (k : Nat) : Option EnvChoice :=
  if k < env.first.length then env.first[k]? else env.again[(k - env.first.length) % env.again.length]?

/-- Environment choice number `k`: the script's, or a free value where it gives none (log entry 1). -/
def State.choiceAt (s : State) (k : Nat) : EnvChoice :=
  match scriptChoice s.env k with
  | some c => c
  | none => Config.freeChoice k

/-- The environment's choice for the next byte transfer. -/
def State.choice (s : State) : EnvChoice := s.choiceAt s.drawn

/-! ### The capture controller -/

/-- What the controller does of its own accord. A capture completes only while one is, or may be, in
progress: the done flag is set and the FIFO holds the new frame, read from its first byte (20_memory.md
R50, R52). -/
def Controller.move (c : Controller) (m : ControllerMove) : Controller :=
  match m, c.fifo with
  | .nothing, _ => c
  | .complete new, .unknown => { c with done := .known true, fifo := .complete new.frame 0 new.len }
  | .complete new, .capturing => { c with done := .known true, fifo := .complete new.frame 0 new.len }
  | .complete _, .complete _ _ _ => c

/-- The length registers of a completed capture come to report another length, or not (10_state.md R32,
60_exceptions.md R122, log entry 26). -/
def Controller.report (c : Controller) (len : Option (BitVec 23)) : Controller :=
  match len, c.fifo with
  | none, _ => c
  | some new, .complete frame pos _ => { c with fifo := .complete frame pos new }
  | some _, .unknown => c
  | some _, .capturing => c

/-- The capture-done flag as a read of the status register shows it: unconstrained from power-on, and from every
`Reset`, until the first accepted `TRIG` after it has performed its clear write (93_implementation_defined.md U13,
70_reset_and_hazards.md R140, R145). -/
def Controller.doneSeen (c : Controller) : DoneFlag := if c.cleared then c.done else .unconstrained

/-- The status byte: bit `DONE_BIT` is the capture-done flag, the other bits are drawn (20_memory.md R51). -/
def Controller.statusByte (c : Controller) (p : Params) (draw : Byte) : Byte :=
  match c.doneSeen with
  | .unconstrained => draw
  | .known true => draw ||| (1#8 <<< p.doneBit.val)
  | .known false => draw &&& ~~~(1#8 <<< p.doneBit.val)

/-- What the controller returns for a register read; where two role parameters name one address the
role named first here decides (20_memory.md R51, 10_state.md R32, R33). -/
def Controller.readRegister (c : Controller) (p : Params) (a : RegAddr) (draw : Byte) : Byte :=
  if a = p.regStatus then c.statusByte p draw
  else
    match c.fifo with
    | .complete _ _ len =>
      if a = p.regLenLo then len.extractLsb' 0 8
      else if a = p.regLenMid then len.extractLsb' 8 8
      else if a = p.regLenHi then draw.extractLsb' 7 1 ++ len.extractLsb' 16 7
      else draw
    | .unknown => draw
    | .capturing => draw

/-- The controller when nothing is known of it (93_implementation_defined.md U5). -/
def Controller.unconstrain (c : Controller) : Controller := { c with done := .unconstrained, fifo := .unknown }

/-- The write is the clear write (10_state.md R29, 20_memory.md R52). -/
def isClearWrite (p : Params) (a : RegAddr) (v : Byte) : Bool := decide (a = p.regClr ∧ v = p.valClr)

/-- The write is the start write (10_state.md R30, 20_memory.md R52). -/
def isStartWrite (p : Params) (a : RegAddr) (v : Byte) : Bool := decide (a = p.regStart ∧ v = p.valStart)

/-- What a register write does to the controller (20_memory.md R52): the start write starts a capture and leaves
the capture-done flag as it is (10_state.md R36 c, 41_capture_control.md R94, log entry 23), the clear write clears
the flag, a write that is both does both (log entry 12), any other write leaves the controller unconstrained. -/
def Controller.writeRegister (c : Controller) (p : Params) (a : RegAddr) (v : Byte) : Controller :=
  if isStartWrite p a v then
    { c with done := if isClearWrite p a v then .known false else c.done, fifo := .capturing }
  else if isClearWrite p a v then { c with done := .known false }
  else c.unconstrain

/-- The byte a FIFO read returns: the byte at the read position, and a drawn byte past the end or where
the contents are unspecified (20_memory.md R50, R53, 93_implementation_defined.md U3, U4). -/
def Controller.fifoByte (c : Controller) (draw : Byte) : Byte :=
  match c.fifo with
  | .complete frame pos _ =>
    match frame[pos]? with
    | some b => b
    | none => draw
  | .unknown => draw
  | .capturing => draw

/-- A FIFO read advances the read position by one (20_memory.md R50, R55). -/
def Controller.fifoNext (c : Controller) : Controller :=
  match c.fifo with
  | .complete frame pos len => { c with fifo := .complete frame (pos + 1) len }
  | .unknown => c
  | .capturing => c

/-- Whether the controller answers a register read from the FIFO. It may only where the command byte equals
`BURST_CMD`, where 30_encoding.md R64 and 20_memory.md R50 make the byte a FIFO byte and 10_state.md R33 and
20_memory.md R51 make it a register byte: the environment chooses. DESIGN CHOICE, log entry 28. -/
def Controller.takesBurst (p : Params) (a : RegAddr) (e : EnvChoice) : Bool :=
  decide (readCommand a = p.burstCmd) && e.asBurst

/-- What the controller returns for the data byte of a register read (20_memory.md R50, R51). -/
def Controller.windowByte (c : Controller) (p : Params) (a : RegAddr) (e : EnvChoice) : Byte :=
  if Controller.takesBurst p a e then c.fifoByte e.draw else c.readRegister p a e.draw

/-- The controller after that byte: a FIFO byte is consumed (20_memory.md R50), a register read changes
nothing (R51). -/
def Controller.windowNext (c : Controller) (p : Params) (a : RegAddr) (e : EnvChoice) : Controller :=
  if Controller.takesBurst p a e then c.fifoNext else c

/-- What the data byte of a register write does to the controller (20_memory.md R52). Where the command
byte is `BURST_CMD` the spec leaves open what a byte sent in that window does, and the controller is
unconstrained after it. DESIGN CHOICE, log entry 28. -/
def Controller.windowWrite (c : Controller) (p : Params) (a : RegAddr) (v : Byte) : Controller :=
  if writeCommand a = p.burstCmd then c.unconstrain else c.writeRegister p a v

/-! ### Bus events and transfers -/

/-- Append an event to the bus trace. -/
def State.emit (e : BusEvent) (s : State) : State := { s with trace := s.trace ++ [e] }

/-- `Sel`: emitted only when deselected (20_memory.md R43). -/
def State.select (s : State) : State :=
  if s.st.sel then s else { s.emit .sel with st.sel := true }

/-- `Desel`: emitted only when selected (20_memory.md R43). -/
def State.deselect (s : State) : State :=
  if s.st.sel then { s.emit .desel with st.sel := false } else s

/-- The environment's side of one byte transfer: one choice is used, and the controller may move of
its own accord. -/
def State.transfer (s : State) : State :=
  { s with drawn := s.drawn + 1, ctl := s.ctl.move s.choice.move }

/-- The outcome of a bus operation: done with a result, or a transfer not acknowledged
(20_memory.md R54). The select window is still open after `nack`. -/
inductive Bus (α : Type) where
  | done (result : α) (s : State)
  | nack (s : State)
deriving DecidableEq, Repr

/-- Go on with a bus operation, unless a transfer was not acknowledged (41_capture_control.md R92). -/
def Bus.bind {α β : Type} (r : Bus α) (k : α → State → Bus β) : Bus β :=
  match r with
  | .done a s => k a s
  | .nack s => .nack s

/-- End a command that used the bus: by its own last part, or by the bus fault. -/
def Bus.settle {α : Type} (r : Bus α) (onNack : State → State) (k : α → State → State) : State :=
  match r with
  | .done a s => k a s
  | .nack s => onNack s

/-- `Tx(b)`: a failed transfer emits no event (20_memory.md R42, R54). -/
def txByte (b : Byte) (s : State) : Bus Unit :=
  if s.choice.ack then .done () (s.transfer.emit (.tx b)) else .nack s.transfer

/-- `Rx` of the data byte of `RdReg` (20_memory.md R44, R51). -/
def rxRegister (a : RegAddr) (s : State) : Bus Byte :=
  if s.choice.ack then
    .done (s.transfer.ctl.windowByte s.params a s.choice)
      { s.transfer.emit (.rx (s.transfer.ctl.windowByte s.params a s.choice)) with
        ctl := s.transfer.ctl.windowNext s.params a s.choice }
  else .nack s.transfer

/-- `Rx` of the next FIFO byte, which is consumed (20_memory.md R46, R50). -/
def rxFifo (s : State) : Bus Byte :=
  if s.choice.ack then
    .done (s.transfer.ctl.fifoByte s.choice.draw)
      { s.transfer.emit (.rx (s.transfer.ctl.fifoByte s.choice.draw)) with ctl := s.transfer.ctl.fifoNext }
  else .nack s.transfer

/-- The controller acts on the data byte of a register write. -/
def State.controllerWrite (a : RegAddr) (v : Byte) (s : State) : State :=
  { s with ctl := s.ctl.windowWrite s.params a v }

/-- `Tx` of the data byte of a register write, on which the controller acts; of a byte it did not
acknowledge it may have acted all the same (20_memory.md R45, R52, log entry 10). -/
def txData (a : RegAddr) (v : Byte) (s : State) : Bus Unit :=
  if s.choice.ack then .done () ((s.transfer.emit (.tx v)).controllerWrite a v)
  else if s.choice.landed then .nack (s.transfer.controllerWrite a v)
  else .nack s.transfer

/-- Close the select window of a primitive that was acknowledged throughout (20_memory.md R43). -/
def closeWindow {α : Type} (a : α) (s : State) : Bus α := .done a s.deselect

/-- `RdReg(a)` (20_memory.md R44). -/
def rdReg (a : RegAddr) (s : State) : Bus Byte :=
  ((txByte (readCommand a) s.select).bind fun _ => rxRegister a).bind closeWindow

/-- `WrReg(a, v)` (20_memory.md R45). -/
def wrReg (a : RegAddr) (v : Byte) (s : State) : Bus Unit :=
  ((txByte (writeCommand a) s.select).bind fun _ => txData a v).bind closeWindow

/-- The `n` FIFO bytes of one burst, in the order received (20_memory.md R46). -/
def rxFifoBytes : Nat → State → Bus (List Byte)
  | 0, s => .done [] s
  | n + 1, s => (rxFifo s).bind fun b t => (rxFifoBytes n t).bind fun bs u => .done (b :: bs) u

/-- `Burst(n)`, used with `n >= 1` (20_memory.md R46). -/
def burstRead (n : Nat) (s : State) : Bus (List Byte) :=
  ((txByte s.params.burstCmd s.select).bind fun _ => rxFifoBytes n).bind closeWindow

/-- The loop of `RawRead` (42_burst_stream.md R102): bursts of at most the chunk size until `m` bytes are
read. `rounds` bounds the loop; each round reads at least one byte. -/
def rawReadLoop : Nat → Nat → State → Bus (List Byte)
  | 0, _, s => .done [] s
  | rounds + 1, m, s =>
    if m = 0 then .done [] s
    else
      (burstRead (chunkOf s.params.burstChunk m) s).bind fun bs t =>
        (rawReadLoop rounds (m - chunkOf s.params.burstChunk m) t).bind fun rest u =>
          .done (bs ++ rest) u

/-- `RawRead(m)` (42_burst_stream.md R102). -/
def rawRead (m : Nat) (s : State) : Bus (List Byte) := rawReadLoop m m s

/-! ### Responses, the bus fault, Reset -/

/-- `respond(...)`: the command ends and the host gets the response, with the window writes made
(00_scope.md R15, 10_state.md R37). -/
def State.respond (r : Response) (writes : List (Nat × Byte)) (s : State) : State :=
  { s with answers := s.answers ++ [{ response := r, writes := writes }] }

/-- Write bytes to the window from offset 0 on (20_memory.md R47). -/
def State.fillWindow (bs : List Byte) (s : State) : State := { s with window := s.window.fill bs }

/-- Taking the BusFault (60_exceptions.md R124): the select window is closed, the block halts, the command
ends with `BUSFAULT`. Nothing is saved and there is no handler. -/
def takeBusFault (writes : List (Nat × Byte)) (s : State) : State :=
  { s.deselect with st.halted := true }.respond (plainResponse .busFault) writes

/-- The bus fault of a command that writes no window byte. -/
def busFault (s : State) : State := takeBusFault [] s

/-- The drawn bytes of `n` environment choices from number `k` on. -/
def State.draws (s : State) (k : Nat) : Nat → List Byte
  | 0 => []
  | n + 1 => (s.choiceAt k).draw :: s.draws (k + 1) n

/-- The bus fault of a `BURST` or `FILL` that was to write `n` bytes: every window offset below `n` holds
a drawn byte (60_exceptions.md R124, 93_implementation_defined.md U6, log entry 9). -/
def busFaultWindow (n : Nat) (s : State) : State :=
  takeBusFault (offsetsFrom 0 (s.draws s.drawn n))
    ({ s with drawn := s.drawn + n }.fillWindow (s.draws s.drawn n))

/-- The common entry of every command: a halted block answers `HALTED` and does nothing else
(41_capture_control.md R92, 60_exceptions.md R125). -/
def unlessHalted (k : State → State) (s : State) : State :=
  if s.st.halted then s.respond (plainResponse .halted) [] else k s

/-- An illegal command word: `ILLEGAL`, or `HALTED` first (30_encoding.md R69, 60_exceptions.md R126, R128). -/
def illegalCommand (s : State) : State :=
  unlessHalted (fun t => t.respond (plainResponse .illegal) []) s

/-- Nothing is known any more of what a read of the done bit gives (93_implementation_defined.md U13). The
controller's own state is as it was. -/
def State.doneUnsettled (s : State) : State := { s with ctl.cleared := false }

/-- The `Reset` event (70_reset_and_hazards.md R140): the block's fields and the observations are reset, the
controller's flag, FIFO and length are left as they are, and every read of the done bit is a draw until a `TRIG` is
accepted (93_implementation_defined.md U13). -/
def resetEvent (s : State) : State :=
  { s.doneUnsettled with st := Block.reset, trace := [], answers := [] }

/-! ### The command port -/

/-- The host's next command is taken up: its window is the window now (30_encoding.md R66). -/
def acceptCommand (r : Request) (rest : List Input) (s : State) : State :=
  { s with inbox := rest, window := r.window }

/-- The host's next action is taken off the queue. -/
def takeInput (rest : List Input) (s : State) : State := { s with inbox := rest }

/-- The request for a command word, with a window as large as the command asks for. -/
def requestFor (w : Word32) : Request :=
  { word := w, window := { size := (w.extractLsb' 0 24).toNat, cells := [] } }

/-- The host has done all it was to do, and begins its loop again; with no loop nothing happens (60_exceptions.md
R132, log entry 17). -/
def hostAgain (s : State) : State := { s with inbox := s.hostLoop }

/-- Put a command at the head of what the host will do next. -/
def State.offer (r : Request) (s : State) : State := { s with inbox := .command r :: s.inbox }

end Sys2Proof.Machine
end

