-- ==== Sys2Proof/Machine/Capture.lean ====
section
/-! DEFINITION. The meanings of RDREG, WRREG, TRIG, POLL and FLEN (41_capture_control.md R90 to R95). -/

namespace Sys2Proof.Machine

/-- `RDREG a` (41_capture_control.md R90). -/
def execRdreg (a : RegAddr) (s : State) : Host.Outcome State Fault Refusal :=
  .next (unlessHalted
    (fun t => (rdReg a t).settle busFault fun v u => u.respond (okResponse (v.zeroExtend 24)) []) s)

/-- `WRREG a, v` (41_capture_control.md R91). -/
def execWrreg (a : RegAddr) (v : Byte) (s : State) : Host.Outcome State Fault Refusal :=
  .next (unlessHalted
    (fun t => (wrReg a v t).settle busFault fun _ u => u.respond (okResponse 0) []) s)

/-- An accepted `TRIG` opens the session (41_capture_control.md R93). -/
def openSession (s : State) : State :=
  { s with st.triggered := true, st.bytesDelivered := 0, st.srcOffset := 0 }

/-- An accepted `TRIG` has performed its clear write: from now on the done bit follows 20_memory.md R52
(93_implementation_defined.md U13). -/
def State.clearPerformed (s : State) : State := { s with ctl.cleared := true }

/-- The clear write, then the start write (41_capture_control.md R93). -/
def triggerWrites (s : State) : Bus Unit :=
  (wrReg s.params.regClr s.params.valClr s).bind fun _ t =>
    wrReg t.params.regStart t.params.valStart t.clearPerformed

/-- `TRIG` (41_capture_control.md R93). -/
def execTrig (s : State) : Host.Outcome State Fault Refusal :=
  .next (unlessHalted
    (fun t =>
      if t.st.triggered then t.respond (plainResponse .busy) []
      else (triggerWrites t).settle busFault fun _ u => (openSession u).respond (okResponse 0) []) s)

/-- The response of `POLL` (41_capture_control.md R94). -/
def pollResponse (p : Params) (status : Byte) : Response :=
  { status := .ok, last := false, done := doneBitOf p status, payload := 0 }

/-- `POLL` (41_capture_control.md R94). -/
def execPoll (s : State) : Host.Outcome State Fault Refusal :=
  .next (unlessHalted
    (fun t => (rdReg t.params.regStatus t).settle busFault fun v u => u.respond (pollResponse u.params v) []) s)

/-- Before an `FLEN` the controller may have come to report another length; under the three reads the
length of a completed capture is stable (41_capture_control.md R95, log entry 26). -/
def State.reported (s : State) : State := { s with ctl := s.ctl.report s.choice.report }

/-- The three length reads, low, mid, high (41_capture_control.md R95). -/
def readLength (s : State) : Bus (BitVec 24) :=
  (rdReg s.params.regLenLo s.reported).bind fun lo t =>
    (rdReg t.params.regLenMid t).bind fun mid u =>
      (rdReg u.params.regLenHi u).bind fun hi x => .done (assembleLength lo mid hi) x

/-- `FLEN` (41_capture_control.md R95). -/
def execFlen (s : State) : Host.Outcome State Fault Refusal :=
  .next (unlessHalted
    (fun t => (readLength t).settle busFault fun len u => u.respond (okResponse len) []) s)

end Sys2Proof.Machine
end

