-- ==== Sys2Proof/Machine/Codec.lean ====
section
/-! DEFINITION. The CODEC unit (40_codec.md R81 to R85) and the meaning of CONV (R80). -/

namespace Sys2Proof.Machine

/-- `R5` (40_codec.md R82, 30_encoding.md R61). -/
def red5 (v : Sample) : Nat := (v.extractLsb' 11 5).toNat

/-- `G6` (40_codec.md R82, 30_encoding.md R61). -/
def green6 (v : Sample) : Nat := (v.extractLsb' 5 6).toNat

/-- `B5` (40_codec.md R82, 30_encoding.md R61). -/
def blue5 (v : Sample) : Nat := (v.extractLsb' 0 5).toNat

/-- The rescale of a channel with maximum `fieldMax`: multiply first, then divide, truncating
(40_codec.md R83). -/
def rescale (fieldMax channel : Nat) : Nat := channel * Config.scale / fieldMax

/-- The weighted sum `acc` (40_codec.md R84). -/
def weightedSum (v : Sample) : Nat :=
  Config.weightR * rescale Config.max5 (red5 v) + Config.weightG * rescale Config.max6 (green6 v)
    + Config.weightB * rescale Config.max5 (blue5 v)

/-- `Luma` (40_codec.md R81): the weighted sum shifted right by 8 (R85). -/
def luma (v : Sample) : Byte := BitVec.ofNat 8 (weightedSum v >>> Config.lumaShift)

/-- `CONV s` (40_codec.md R80). -/
def execConv (v : Sample) (s : State) : Host.Outcome State Fault Refusal :=
  .next (unlessHalted (fun t => t.respond (okResponse ((luma v).zeroExtend 24)) []) s)

end Sys2Proof.Machine
end

