-- ==== Sys2Proof/Machine/Stream.lean ====
section
/-! DEFINITION. The meanings of BURST (42_burst_stream.md R101) and FILL (R104 to R106). -/

namespace Sys2Proof.Machine

/-- `n` more raw bytes were consumed, modulo 2^32 (10_state.md R25). -/
def State.consumed (n : Nat) (s : State) : State :=
  { s with st.srcOffset := s.st.srcOffset + BitVec.ofNat 32 n }

/-- The bytes of a `BURST` go to the window as received (42_burst_stream.md R101). -/
def deliverRaw (n : Nat) (bs : List Byte) (s : State) : State :=
  ((s.fillWindow bs).consumed n).respond (okResponse (BitVec.ofNat 24 n)) (offsetsFrom 0 bs)

/-- A `BURST` of `n` bytes by a block that is not halted (42_burst_stream.md R101). -/
def burstInto (n : Nat) (s : State) : State :=
  if n = 0 then s.respond (okResponse 0) []
  else (burstRead n s).settle (busFaultWindow n) fun bs t => deliverRaw n bs t

/-- `BURST n` (42_burst_stream.md R101). -/
def execBurst (n : Count) (s : State) : Host.Outcome State Fault Refusal :=
  if s.st.halted then .next (s.respond (plainResponse .halted) [])
  else if n.toNat ≤ s.window.size then .next (burstInto n.toNat s)
  else .fault .windowOverrun

/-- `n` more luma bytes were delivered (42_burst_stream.md R104). -/
def State.delivered (n : Nat) (s : State) : State :=
  { s with st.bytesDelivered := s.st.bytesDelivered + BitVec.ofNat 32 n }

/-- The frame boundary, detected by count alone (42_burst_stream.md R106). -/
def atFrameEnd (s : State) : Bool := decide (s.st.bytesDelivered.toNat = Config.frameBytes)

/-- The end of a frame closes the session (42_burst_stream.md R106). -/
def closeSession (s : State) : State :=
  { s with st.triggered := false, st.bytesDelivered := 0 }

/-- The response of a `FILL` (42_burst_stream.md R104). -/
def fillResponse (last : Bool) (n : Nat) : Response :=
  { status := .ok, last := last, done := false, payload := BitVec.ofNat 24 n }

/-- The last part of a `FILL`: end the frame if it is complete, and respond (42_burst_stream.md R104). -/
def endFill (n : Nat) (ys : List Byte) (s : State) : State :=
  if atFrameEnd s then (closeSession s).respond (fillResponse true n) (offsetsFrom 0 ys)
  else s.respond (fillResponse false n) (offsetsFrom 0 ys)

/-- The luma bytes of a list of raw bytes (42_burst_stream.md R103, R104, 40_codec.md R88). -/
def lumaBytes (raw : List Byte) : List Byte := (pairSamples raw).map luma

/-- A `FILL` of `n` bytes in an open session (42_burst_stream.md R104). -/
def fillInto (n : Nat) (s : State) : State :=
  if n = 0 then endFill 0 [] s
  else
    (rawRead (2 * n) s).settle (busFaultWindow n) fun raw t =>
      endFill n (lumaBytes raw) (((t.fillWindow (lumaBytes raw)).consumed (2 * n)).delivered n)

/-- `FILL w` (42_burst_stream.md R104, R105). -/
def execFill (w : Count) (s : State) : Host.Outcome State Fault Refusal :=
  if s.st.halted then .next (s.respond (plainResponse .halted) [])
  else if s.st.triggered = false then .next (s.respond (plainResponse .noSession) [])
  else if fillCount w s.st.bytesDelivered ≤ s.window.size then
    .next (fillInto (fillCount w s.st.bytesDelivered) s)
  else .fault .windowOverrun

end Sys2Proof.Machine
end

