-- ==== Sys2Proof/Machine/Dispatch.lean ====
section
/-! DEFINITION. Dispatch: one arm per constructor of Instr. -/

namespace Sys2Proof.Machine

def exec (i : Instr) (s : State) : Host.Outcome State Fault Refusal :=
  match i with
  | .conv v => Sys2Proof.Machine.execConv v s
  | .rdreg a => Sys2Proof.Machine.execRdreg a s
  | .wrreg a v => Sys2Proof.Machine.execWrreg a v s
  | .trig => Sys2Proof.Machine.execTrig s
  | .poll => Sys2Proof.Machine.execPoll s
  | .flen => Sys2Proof.Machine.execFlen s
  | .burst n => Sys2Proof.Machine.execBurst n s
  | .fill w => Sys2Proof.Machine.execFill w s

end Sys2Proof.Machine
end

