-- ==== Sys2Proof/Machine/Step.lean ====
section
/-! DEFINITION. One step of the machine: the host's next action, or nothing. -/

namespace Sys2Proof.Machine

/-- One step: the block executes the host's next command to completion, is reset, or, with nothing to do, is
idle and keeps its state, while the host may begin its loop again (00_scope.md R10, 60_exceptions.md R132). -/
def step (s : State) : Host.Outcome State Fault Refusal :=
  match s.inbox with
  | [] => .next (hostAgain s)
  | .reset :: rest => .next (resetEvent (takeInput rest s))
  | .command r :: rest =>
    match decode r.word with
    | .ok i => exec i (acceptCommand r rest s)
    | .error _ => .next (illegalCommand (acceptCommand r rest s))

/-- The state with an instruction, given as the opcode table numbers its bits, as the host's next
command (log entry 4). -/
def State.withFetchWord (s : State) (nbits w : Nat) : State :=
  s.offer (requestFor (tableWord nbits w))

end Sys2Proof.Machine
end

