-- ==== Sys2Proof/Machine/HostLoops.lean ====
section
/-! DEFINITION. The host's own loops over the command port: WAITDONE, LENOK and DRAIN (30_encoding.md R73), and the sequence for one frame (70_reset_and_hazards.md R144). They are host behaviour, not commands; each is bounded by an argument, since the spec's loops have no bound (log entry 19). -/

namespace Sys2Proof.Machine

/-- The host issues one command and the block runs it (60_exceptions.md R133). -/
def issue (r : Request) (s : State) : Host.Outcome State Fault Refusal := step (s.offer r)

/-- The request of a command, with a window of exactly the bytes it asks for. -/
def requestOf (i : Instr) : Request :=
  { word := encode i, window := { size := i.windowNeed, cells := [] } }

/-- The last response, if there is one. -/
def lastResponse (s : State) : Option Response := s.answers.getLast?.map fun a => a.response

/-- The window writes of the last command. -/
def lastWrites (s : State) : List (Nat × Byte) :=
  match s.answers.getLast? with
  | some a => a.writes
  | none => []

/-- The last response is `OK` and meets a condition on its fields. -/
def lastOk (p : Response → Bool) (s : State) : Bool :=
  match lastResponse s with
  | some r => decide (r.status = .ok) && p r
  | none => false

/-- `WAITDONE` with at most `tries` POLLs (30_encoding.md R73): whether `DONE` was seen. The host stops
when a response is not `OK` (60_exceptions.md R133). -/
def waitDone : Nat → State → Host.Outcome (Bool × State) Fault Refusal
  | 0, s => .next (false, s)
  | tries + 1, s =>
    match issue (requestOf .poll) s with
    | .next t =>
      if lastOk (fun r => r.done) t then .next (true, t)
      else if lastOk (fun _ => true) t then waitDone tries t
      else .next (false, t)
    | .fault f => .fault f
    | .refused r => .refused r

/-- `LENOK` (30_encoding.md R73): whether the reported length passes `LenOk`. -/
def checkLength (s : State) : Host.Outcome (Bool × State) Fault Refusal :=
  match issue (requestOf .flen) s with
  | .next t => .next (lastOk (fun r => lenOk r.payload) t, t)
  | .fault f => .fault f
  | .refused r => .refused r

/-- What the host has after draining: the bytes it committed, in order, and whether `LAST` was seen. -/
structure Drained where
  committed : List Byte
  last : Bool
  state : State
deriving DecidableEq, Repr

/-- The operand of the `FILL` a window is used for: its size, or the largest count for a larger window
(30_encoding.md R68). -/
def fillWidth (w : Window) : Count := BitVec.ofNat 24 (min w.size 16777215)

/-- `DRAIN` over the windows the host obtains (30_encoding.md R73): after each `FILL` the host commits
exactly the bytes delivered (70_reset_and_hazards.md R152), until `LAST` or the windows run out. -/
def drain : List Window → State → Host.Outcome Drained Fault Refusal
  | [], s => .next { committed := [], last := false, state := s }
  | w :: ws, s =>
    match issue { word := encode (.fill (fillWidth w)), window := w } s with
    | .next t =>
      if lastOk (fun r => r.last) t then
        .next { committed := (lastWrites t).map Prod.snd, last := true, state := t }
      else if lastOk (fun _ => true) t then
        match drain ws t with
        | .next d => .next { d with committed := (lastWrites t).map Prod.snd ++ d.committed }
        | .fault f => .fault f
        | .refused r => .refused r
      else .next { committed := [], last := false, state := t }
    | .fault f => .fault f
    | .refused r => .refused r

/-- The rest of the sequence for one frame, once a session is open (70_reset_and_hazards.md R144): WAITDONE,
LENOK, DRAIN. -/
def streamFrame (tries : Nat) (windows : List Window) (s : State) : Host.Outcome Drained Fault Refusal :=
  match waitDone tries s with
  | .next (true, t) =>
    match checkLength t with
    | .next (true, u) => drain windows u
    | .next (false, u) => .next { committed := [], last := false, state := u }
    | .fault f => .fault f
    | .refused r => .refused r
  | .next (false, t) => .next { committed := [], last := false, state := t }
  | .fault f => .fault f
  | .refused r => .refused r

/-- The answers to TRIG after which the host goes on: `OK` and `BUSY` (60_exceptions.md R133). -/
def triggerAnswered (s : State) : Bool :=
  match lastResponse s with
  | some r => decide (r.status = .ok ∨ r.status = .busy)
  | none => false

/-- The host's sequence for one frame (70_reset_and_hazards.md R144): TRIG, WAITDONE, LENOK, DRAIN. A
`BUSY` answer to TRIG is harmless; after any other answer but `OK` the host stops (60_exceptions.md R133);
a length that does not pass ends the attempt. -/
def oneFrame (tries : Nat) (windows : List Window) (s : State) : Host.Outcome Drained Fault Refusal :=
  match issue (requestOf .trig) s with
  | .next t =>
    if triggerAnswered t then streamFrame tries windows t
    else .next { committed := [], last := false, state := t }
  | .fault f => .fault f
  | .refused r => .refused r

end Sys2Proof.Machine
end

