-- ==== Sys2Proof/Safety.lean ====
section
/-! DEFINITION. What claims about the block are stated in: transfers acknowledged, a frame complete and a run gone wrong (70_reset_and_hazards.md R155), the select discipline (20_memory.md R43), the invariants, and the host's obligations (70_reset_and_hazards.md R144 to R151). -/

namespace Sys2Proof.Machine

/-- The next `n` byte transfers are acknowledged (20_memory.md R54). -/
def State.acked (s : State) (n : Nat) : Prop :=
  ∀ k, k < n → (s.choiceAt (s.drawn + k)).ack = true

/-- The controller after `n` more byte transfers that neither write a register nor read the FIFO: it has
moved of its own accord only (20_memory.md R51, R52). -/
def State.ctlAfter (s : State) : Nat → Controller
  | 0 => s.ctl
  | n + 1 => (s.ctlAfter n).move (s.choiceAt (s.drawn + n)).move

/-- The drawn value of the environment's choice at the `k`-th transfer from now. -/
def State.drawAt (s : State) (k : Nat) : Byte := (s.choiceAt (s.drawn + k)).draw

/-- The byte an acknowledged register read from this state returns (20_memory.md R44, R51). -/
def State.byteRead (s : State) (a : RegAddr) : Byte := (s.ctlAfter 2).windowByte s.params a (s.choiceAt (s.drawn + 1))

/-- The state after an acknowledged register read (20_memory.md R44): one select window of the command byte
and the byte read. -/
def State.afterRead (s : State) (a : RegAddr) : State :=
  { s with
    ctl := (s.ctlAfter 2).windowNext s.params a (s.choiceAt (s.drawn + 1))
    drawn := s.drawn + 2
    trace := s.trace ++ [.sel, .tx (BitVec.ofNat 8 a.toNat), .rx (s.byteRead a), .desel] }

/-- The bus trace of bursts, one select window for each list of bytes received (20_memory.md R46). -/
def burstEvents (cmd : Byte) : List (List Byte) → List BusEvent
  | [] => []
  | bs :: rest => [.sel, .tx cmd] ++ bs.map .rx ++ [.desel] ++ burstEvents cmd rest

/-- The number of the transfer, from the first of a `RawRead`, that receives its byte `i`: each select window
has one command byte before its bytes (20_memory.md R46, 42_burst_stream.md R102). -/
def rawTransfer (chunk : BurstChunk) (i : Nat) : Nat :=
  match chunk with
  | .unlimited => i + 1
  | .atMost c _ => i + i / c + 1

/-- The sizes of the bursts of `RawRead(m)`: as many of `BURST_CHUNK` bytes as there are, then the rest; one
burst where the chunk is unlimited, none for no bytes (42_burst_stream.md R102). -/
def specChunks (chunk : BurstChunk) (m : Nat) : List Nat :=
  match chunk with
  | .unlimited => if m = 0 then [] else [m]
  | .atMost c _ => List.replicate (m / c) c ++ (if m % c = 0 then [] else [m % c])

/-- The number of byte transfers of a `DRAIN` over windows of these sizes with `rest` luma bytes of the frame to
come: those of its `FILL`s, each one a raw byte and one a select window (30_encoding.md R73, 42_burst_stream.md R102,
R105). -/
def drainTransfers (chunk : BurstChunk) : Nat → List Nat → Nat
  | _, [] => 0
  | rest, w :: ws => 2 * min w rest + (specChunks chunk (2 * min w rest)).length
      + drainTransfers chunk (rest - min w rest) ws

/-- A frame is complete at this answer: `OK LAST` (70_reset_and_hazards.md R155). -/
def frameComplete (a : Answer) : Bool := decide (a.response.status = .ok) && a.response.last

/-- A run has gone wrong at this answer (70_reset_and_hazards.md R155). -/
def goneWrong (a : Answer) : Bool :=
  decide (a.response.status = .busFault) || decide (a.response.status = .halted)

/-- The select line after a bus trace, from a given select line; none where an event breaks the
discipline of 20_memory.md R43. -/
def selectAfter : Bool → List BusEvent → Option Bool
  | sel, [] => some sel
  | false, .sel :: rest => selectAfter true rest
  | true, .desel :: rest => selectAfter false rest
  | true, .tx _ :: rest => selectAfter true rest
  | true, .rx _ :: rest => selectAfter true rest
  | _, _ => none

/-- Between commands the bus is deselected and the whole bus trace obeyed the select discipline
(20_memory.md R43). -/
def State.selectOk (s : State) : Prop := s.st.sel = false ∧ selectAfter false s.trace = some false

/-- The session invariant of 10_state.md R24. -/
def State.sessionOk (s : State) : Prop :=
  s.st.bytesDelivered.toNat < Config.frameBytes ∧ (0 < s.st.bytesDelivered.toNat → s.st.triggered = true)

/-- The windows the host has yet to hand over are well formed. -/
def Input.wf : Input → Bool
  | .command r => r.window.wf
  | .reset => true

/-- Every window is in canonical form and within its size. -/
def State.windowsOk (s : State) : Prop := s.window.wf = true ∧ s.inbox.all Input.wf = true ∧ s.hostLoop.all Input.wf = true

/-- The bytes received in a bus trace, in order. -/
def receivedBytes : List BusEvent → List Byte
  | [] => []
  | .rx b :: rest => b :: receivedBytes rest
  | .sel :: rest => receivedBytes rest
  | .desel :: rest => receivedBytes rest
  | .tx _ :: rest => receivedBytes rest

/-- What the host knows (70_reset_and_hazards.md R144): a session it opened, `DONE` seen since, a length that
passed since; and that it must stop, after `BUSFAULT` or `HALTED` (60_exceptions.md R133). -/
structure HostView where
  session : Bool
  done : Bool
  lengthOk : Bool
  stopped : Bool
deriving DecidableEq, Repr

/-- The host knows nothing yet. -/
def HostView.start : HostView :=
  { session := false, done := false, lengthOk := false, stopped := false }

/-- A command the host may issue without breaking an obligation of 70_reset_and_hazards.md R145 to R151 and
R153, none of which the block checks (log entry 18). Whether a `BURST` with no session open is one of them is
left open between 20_memory.md R59 and 70_reset_and_hazards.md R146, and it is allowed here. Whether a `BURST` in a
session also needs a length that passed is left open between 70_reset_and_hazards.md R147, with R146 on one side, and
60_exceptions.md R133 on the other, and it needs none here, only `DONE` and an even count. Whether a `TRIG` in an open
session breaks one is left open between 60_exceptions.md R133, by which the host must trigger only with no session, and
70_reset_and_hazards.md R144, by which the `BUSY` is harmless, and it is allowed here. DESIGN CHOICE, log entry 18, for
all three. -/
def hostMay (h : HostView) (i : Instr) : Bool :=
  !h.stopped &&
    match i with
    | .conv _ => true
    | .rdreg _ => true
    | .wrreg _ _ => !h.session
    | .trig => true
    | .poll => h.session
    | .flen => h.session && h.done
    | .burst n => !h.session || (h.done && decide (n.toNat % 2 = 0))
    | .fill _ => h.session && h.done && h.lengthOk

/-- What the host knows after a command's response (70_reset_and_hazards.md R144). -/
def hostLearns (h : HostView) (i : Instr) (r : Response) : HostView :=
  if r.status = .ok then
    match i with
    | .conv _ => h
    | .rdreg _ => h
    | .wrreg _ _ => h
    | .trig => { session := true, done := false, lengthOk := false, stopped := h.stopped }
    | .poll => { h with done := h.done || r.done }
    | .flen => { h with lengthOk := lenOk r.payload }
    | .burst _ => h
    | .fill _ => if r.last then HostView.start else h
  else if r.status = .busFault ∨ r.status = .halted then { h with stopped := true }
  else h

end Sys2Proof.Machine
end

