-- ==== Sys2Proof/Certificates/Slice0/Obligations.lean ====
section
/-! DEFINITION. The statements for the provers. -/

open Sys2Proof Sys2Proof.Machine

/-! ### Encodings -/

/-- Decoding the command word of any command gives it back, with every operand at every value its field
admits (30_encoding.md R66 to R68). -/
def Obligations.DecodeOfEncode : Prop :=
  ∀ i : Instr, decode (encode i) = .ok i

/-- A legal command word has one meaning and is that command's word: no bit of it is dropped
(30_encoding.md R66 to R69). -/
def Obligations.EncodeOfDecode : Prop :=
  ∀ (w : Word32) (i : Instr), decode w = .ok i → encode i = w

/-- The legal words are those that match a row of the operation map, and each decodes to the operation of
that row (30_encoding.md R67, R69). -/
def Obligations.LegalWordsAreTableRows : Prop :=
  ∀ w : Word32,
    (∀ i, decode w = .ok i → ∃ row ∈ opTable, row.mnemonic = i.mnemonic ∧ w &&& row.mask = row.pattern) ∧
    (∀ row ∈ opTable, w &&& row.mask = row.pattern → ∃ i, decode w = .ok i ∧ i.mnemonic = row.mnemonic)

/-- Words written out from the tables of 30_encoding.md R67 and R68, one per operation and two illegal
ones: a sanity check. -/
def Obligations.SpecWordsDecode : Prop :=
  decode 0x1000F800#32 = .ok (.conv 0xF800) ∧
  decode 0x2000007F#32 = .ok (.rdreg 0x7F) ∧
  decode 0x30001234#32 = .ok (.wrreg 0x12 0x34) ∧
  decode 0x40000000#32 = .ok .trig ∧
  decode 0x50000000#32 = .ok .poll ∧
  decode 0x60000000#32 = .ok .flen ∧
  decode 0x70000004#32 = .ok (.burst 4) ∧
  decode 0x80012C00#32 = .ok (.fill 76800) ∧
  decode 0x00000000#32 = .error .unknownOp ∧
  decode 0x1100F800#32 = .error .reservedBits

/-- The status codes of 30_encoding.md R71, written out. -/
def specStatusCode : Status → Nat
  | .ok => 0
  | .busy => 1
  | .noSession => 2
  | .illegal => 3
  | .busFault => 4
  | .halted => 5

/-- The response word: status code in bits 31 to 28, bits 27 and 26 zero, `LAST` in bit 25, `DONE` in bit
24, payload in bits 23 to 0 (30_encoding.md R70, R71). -/
def Obligations.ResponseWordLayout : Prop :=
  ∀ r : Response, (responseWord r).toNat = specStatusCode r.status * 268435456
    + (if r.last then 33554432 else 0) + (if r.done then 16777216 else 0) + r.payload.toNat

/-- The host reads back from a response word the response the block gave (30_encoding.md R70, R71). -/
def Obligations.ResponseReadBack : Prop :=
  ∀ r : Response, readResponse (responseWord r) = some r

/-! ### The machine's step -/

/-- When the host's next action is a command whose word decodes to `i`, a step runs `i`, with the command
taken off the queue and its window handed over. With nothing to do the block is idle and the whole state stays
as it is (60_exceptions.md R132), unless the host has a loop, which it then begins again. The queue and the loop
are the model's form of the command port (log entries 4, 17). -/
def Obligations.StepRunsDecodedInstruction : Prop :=
  (∀ (s : State) (r : Request) (rest : List Input) (i : Instr),
    s.inbox = .command r :: rest → decode r.word = .ok i →
      step s = exec i { s with inbox := rest, window := r.window }) ∧
  (∀ s : State, s.inbox = [] → step s = .next { s with inbox := s.hostLoop }) ∧
  (∀ s : State, s.inbox = [] → s.hostLoop = [] → step s = .next s)

/-- An illegal command word is answered `ILLEGAL` by a block that is not halted, with no other effect, and
the block stays usable (60_exceptions.md R126). The queue and the window are the model's form of the command
port (log entry 4). -/
def Obligations.IllegalWordAnswered : Prop :=
  ∀ (s : State) (r : Request) (rest : List Input),
    s.inbox = .command r :: rest → (∀ i, decode r.word ≠ .ok i) → s.st.halted = false →
      step s = .next { s with
        inbox := rest
        window := r.window
        answers := s.answers ++ [⟨⟨.illegal, false, false, 0⟩, []⟩] }

/-- While halted every command word, legal or illegal, is answered `HALTED`: no bus event, no window
write, no change of `st`, so no command clears `st.halted` (60_exceptions.md R125). The queue and the window
are the model's form of the command port (log entry 4). -/
def Obligations.HaltedAnswersEveryWord : Prop :=
  ∀ (s : State) (r : Request) (rest : List Input),
    s.inbox = .command r :: rest → s.st.halted = true →
      step s = .next { s with
        inbox := rest
        window := r.window
        answers := s.answers ++ [⟨⟨.halted, false, false, 0⟩, []⟩] }

/-- The `Reset` event sets the block's five fields to 0, empties the observations, emits no bus event and
leaves the controller's flag, FIFO and length alone (70_reset_and_hazards.md R140); what a read of the done bit then
gives is any value, as before any trigger, which the field `cleared` records (93_implementation_defined.md U13,
`PollDrawsBeforeTrigger`; log entry 29). That the window and the host's queue are kept is the model's choice (log entry
20). -/
def Obligations.ResetEventEffect : Prop :=
  ∀ (s : State) (rest : List Input), s.inbox = .reset :: rest →
    step s = .next { s with
      st := { triggered := false, bytesDelivered := 0, srcOffset := 0, halted := false, sel := false }
      ctl := { cleared := false, done := s.ctl.done, fifo := s.ctl.fifo }
      trace := []
      answers := []
      inbox := rest }

/-- The block's record after reset: every field 0, and nothing observed (10_state.md R20,
70_reset_and_hazards.md R140). -/
def Obligations.ResetValues : Prop :=
  State.reset.st = { triggered := false, bytesDelivered := 0, srcOffset := 0, halted := false, sel := false } ∧
  State.reset.trace = [] ∧ State.reset.answers = []

/-- A command whose window is as large as the host must make it always runs to an answer: it is never refused
and never stops, and with the bus deselected, as it is between commands, exactly one answer is added
(30_encoding.md R66, 00_scope.md R15). -/
def Obligations.CommandsNeverStop : Prop :=
  ∀ (i : Instr) (s : State), i.wellFormed s.window.size = true →
    ∃ t, exec i s = .next t ∧ (s.st.sel = false → ∃ a, t.answers = s.answers ++ [a])

/-- The model's one stop: a window shorter than the bytes to be written, which 30_encoding.md R66 forbids
the host (log entry 6). -/
def Obligations.ShortWindowStops : Prop :=
  (∀ (n : Count) (s : State),
    exec (.burst n) s = .fault .windowOverrun ↔ s.st.halted = false ∧ s.window.size < n.toNat) ∧
  (∀ (w : Count) (s : State),
    exec (.fill w) s = .fault .windowOverrun ↔ s.st.halted = false ∧ s.st.triggered = true ∧
      s.window.size < min w.toNat (76800 - s.st.bytesDelivered.toNat))

/-- Every command ends with exactly one response; a response that is not `OK` has flags and payload 0;
only a `FILL` answers `LAST`, only a `POLL` answers `DONE` (00_scope.md R15, 30_encoding.md R70). -/
def Obligations.OneResponsePerCommand : Prop :=
  ∀ (i : Instr) (s t : State), s.st.sel = false → exec i s = .next t →
    ∃ r ws, t.answers = s.answers ++ [⟨r, ws⟩] ∧
      (r.status ≠ .ok → r.last = false ∧ r.done = false ∧ r.payload = 0) ∧
      (r.last = true → ∃ w, i = .fill w) ∧ (r.done = true → i = .poll)

/-! ### CONV -/

/-- `CONV s`: a block that is not halted answers `OK` with the luma of the sample by the exact
integer-division formula, and nothing else changes; a halted one answers `HALTED` (40_codec.md R80, R81).
The formula is written over the sample as a number. -/
def Obligations.ConvAnswersLuma : Prop :=
  (∀ (v : Sample) (s : State), s.st.halted = false →
    exec (.conv v) s = .next { s with
      answers := s.answers ++ [⟨⟨.ok, false, false, BitVec.ofNat 24
        ((77 * (v.toNat / 2048 * 255 / 31) + 150 * (v.toNat / 32 % 64 * 255 / 63)
          + 29 * (v.toNat % 32 * 255 / 31)) / 256)⟩, []⟩] }) ∧
  (∀ (v : Sample) (s : State), s.st.halted = true →
    exec (.conv v) s = .next { s with answers := s.answers ++ [⟨⟨.halted, false, false, 0⟩, []⟩] })

/-- The weighted sum never exceeds 65,280, and the luma is its high byte: no clamp, wrap or rounding takes
part (40_codec.md R84, R85). -/
def Obligations.WeightedSumNeverOverflows : Prop :=
  ∀ v : Sample, weightedSum v ≤ 65280 ∧ (luma v).toNat = weightedSum v / 256

/-- `Luma` is 0 exactly for the samples 0 and 1, is 255 exactly for 0xFFFF, and is never 254
(40_codec.md R86 g). -/
def Obligations.LumaExtremes : Prop :=
  ∀ v : Sample, (luma v = 0 ↔ v = 0x0000 ∨ v = 0x0001) ∧ (luma v = 255 ↔ v = 0xFFFF) ∧ luma v ≠ 254

/-- `Luma` is monotone in each channel: raising fields never lowers it (40_codec.md R86 f). -/
def Obligations.LumaMonotone : Prop :=
  ∀ v v' : Sample, v.toNat / 2048 ≤ v'.toNat / 2048 → v.toNat / 32 % 64 ≤ v'.toNat / 32 % 64 →
    v.toNat % 32 ≤ v'.toNat % 32 → (luma v).toNat ≤ (luma v').toNat

/-! ### Register access and capture control -/

/-- `RDREG a` with both transfers acknowledged: one select window of the command byte, bit 7 clear, and
the byte the controller returns, which is the answer; `st` and the window are unchanged
(41_capture_control.md R90, 20_memory.md R44). The byte is a register byte and the controller stays as it is
(R51). Only where the command byte equals `BURST_CMD` may the controller take it for a burst, and then the next
FIFO byte comes and is consumed (20_memory.md R50): that it may do either is the model's choice (log entry 28).
A register byte, `draw` being the draw of its own transfer, is that draw at an address that is no status and no
length register (10_state.md R33); in the status byte the bit `DONE_BIT` is the capture-done flag where that is
known and an accepted `TRIG` has performed its clear write since the last `Reset`, and every other bit, or the whole byte, is drawn
(10_state.md R31, 93_implementation_defined.md U1, U13); a length register holds its part of the length while a
capture is complete, with bit 7 of the high one drawn (10_state.md R32, U2), and is drawn otherwise (20_memory.md
R53, U4). Which register answers at an address that two of them share is the model's choice (log entry 14). -/
def Obligations.RdregReadsRegister : Prop :=
  (∀ (a : RegAddr) (s : State) (v : Byte) (c : Controller), s.st.halted = false → s.st.sel = false → s.acked 2 →
    (if BitVec.ofNat 8 a.toNat = s.params.burstCmd ∧ (s.choiceAt (s.drawn + 1)).asBurst = true then
      v = (s.ctlAfter 2).fifoByte (s.drawAt 1) ∧ c = (s.ctlAfter 2).fifoNext
    else v = (s.ctlAfter 2).readRegister s.params a (s.drawAt 1) ∧ c = s.ctlAfter 2) →
      exec (.rdreg a) s = .next { s with
        ctl := c
        drawn := s.drawn + 2
        trace := s.trace ++ [.sel, .tx (BitVec.ofNat 8 a.toNat), .rx v, .desel]
        answers := s.answers ++ [⟨⟨.ok, false, false, BitVec.ofNat 24 v.toNat⟩, []⟩] }) ∧
  ∀ (c : Controller) (p : Params) (a : RegAddr) (draw : Byte),
    (a ≠ p.regStatus → a ≠ p.regLenLo → a ≠ p.regLenMid → a ≠ p.regLenHi → c.readRegister p a draw = draw) ∧
    (∀ b, c.cleared = true → c.done = .known b → ∀ k, (c.readRegister p p.regStatus draw).getLsbD k =
      if k = p.doneBit.val then b else draw.getLsbD k) ∧
    (c.cleared = false ∨ c.done = .unconstrained → c.readRegister p p.regStatus draw = draw) ∧
    ((∀ frame pos len, c.fifo ≠ .complete frame pos len) → a ≠ p.regStatus → c.readRegister p a draw = draw) ∧
    (∀ frame pos len, c.fifo = .complete frame pos len → a ≠ p.regStatus →
      (a = p.regLenLo → (c.readRegister p a draw).toNat = len.toNat % 256) ∧
      (a = p.regLenMid → a ≠ p.regLenLo → (c.readRegister p a draw).toNat = len.toNat / 256 % 256) ∧
      (a = p.regLenHi → a ≠ p.regLenLo → a ≠ p.regLenMid →
        (c.readRegister p a draw).toNat = len.toNat / 65536 + draw.toNat / 128 * 128))

/-- A `RDREG` whose command byte, or whose data byte, is not acknowledged: the failed transfer emits no
event, the select window is closed, the block halts and answers `BUSFAULT` (20_memory.md R54,
60_exceptions.md R124). -/
def Obligations.RdregBusFault : Prop :=
  ∀ (a : RegAddr) (s : State), s.st.halted = false → s.st.sel = false →
    ((s.choiceAt s.drawn).ack = false →
      exec (.rdreg a) s = .next { s with
        st := { s.st with halted := true }
        ctl := s.ctlAfter 1
        drawn := s.drawn + 1
        trace := s.trace ++ [.sel, .desel]
        answers := s.answers ++ [⟨⟨.busFault, false, false, 0⟩, []⟩] }) ∧
    ((s.choiceAt s.drawn).ack = true → (s.choiceAt (s.drawn + 1)).ack = false →
      exec (.rdreg a) s = .next { s with
        st := { s.st with halted := true }
        ctl := s.ctlAfter 2
        drawn := s.drawn + 2
        trace := s.trace ++ [.sel, .tx (BitVec.ofNat 8 a.toNat), .desel]
        answers := s.answers ++ [⟨⟨.busFault, false, false, 0⟩, []⟩] })

/-- `WRREG a, v` with both transfers acknowledged: one select window of the command byte, bit 7 set, and
the data byte, on which the controller acts; `st` and the window are unchanged (41_capture_control.md R91,
20_memory.md R45). Where the command byte is `BURST_CMD` the controller is unconstrained after it (the model's
choice, log entry 28). -/
def Obligations.WrregWritesRegister : Prop :=
  ∀ (a : RegAddr) (v : Byte) (s : State), s.st.halted = false → s.st.sel = false → s.acked 2 →
    exec (.wrreg a v) s = .next { s with
      ctl := if BitVec.ofNat 8 (128 + a.toNat) = s.params.burstCmd then
          { s.ctlAfter 2 with done := .unconstrained, fifo := .unknown }
        else (s.ctlAfter 2).writeRegister s.params a v
      drawn := s.drawn + 2
      trace := s.trace ++ [.sel, .tx (BitVec.ofNat 8 (128 + a.toNat)), .tx v, .desel]
      answers := s.answers ++ [⟨⟨.ok, false, false, 0⟩, []⟩] }

/-- What a register write does to the controller, where its command byte is not `BURST_CMD` (20_memory.md R52;
the other case: `WrregWritesRegister`, log entry 28): the clear write clears the capture-done flag and nothing
else, the start write starts a capture and leaves the flag as it is (that it does is the model's reading, log
entry 23), and any other write leaves the whole controller unconstrained. A write that is both the clear and the
start write does both (log entry 12). No register write settles what a done bit
read before the first accepted `TRIG` from power-on or a `Reset` is (log entry 29). -/
def Obligations.RegisterWriteEffects : Prop :=
  ∀ (c : Controller) (p : Params),
    ((p.regClr ≠ p.regStart ∨ p.valClr ≠ p.valStart) →
      c.writeRegister p p.regClr p.valClr = { cleared := c.cleared, done := .known false, fifo := c.fifo } ∧
      c.writeRegister p p.regStart p.valStart = { cleared := c.cleared, done := c.done, fifo := .capturing }) ∧
    (p.regClr = p.regStart → p.valClr = p.valStart →
      c.writeRegister p p.regStart p.valStart = { cleared := c.cleared, done := .known false, fifo := .capturing }) ∧
    (∀ a v, (a ≠ p.regClr ∨ v ≠ p.valClr) → (a ≠ p.regStart ∨ v ≠ p.valStart) →
      c.writeRegister p a v = { cleared := c.cleared, done := .unconstrained, fifo := .unknown })

/-- What the controller does of its own accord: a capture in progress, or one that may be, completes, and then
the done flag is set, the FIFO holds the new frame with the read position at its first byte, and the length
registers report its length (20_memory.md R50, R52, 10_state.md R31, R36 c); whether a `TRIG` was accepted is
untouched. A completed capture is not replaced by another completion (the model's reading, log entry 11), and a
controller that does nothing stays as it is. -/
def Obligations.CaptureCompletes : Prop :=
  (∀ (c : Controller) (capture : Capture), c.fifo = .capturing ∨ c.fifo = .unknown →
    c.move (.complete capture) =
      { cleared := c.cleared, done := .known true, fifo := .complete capture.frame 0 capture.len }) ∧
  (∀ (c : Controller) (capture : Capture) (frame : List Byte) (pos : Nat) (len : BitVec 23),
    c.fifo = .complete frame pos len → c.move (.complete capture) = c) ∧
  (∀ c : Controller, c.move .nothing = c) ∧
  (∀ s : State, s.transfer = { s with drawn := s.drawn + 1, ctl := s.ctl.move (s.choiceAt s.drawn).move })

/-- An accepted `TRIG` with its four transfers acknowledged: the clear write, then the start write, in
that order; then the session is open with both counters 0, and from now on the done bit read is the
controller's flag (41_capture_control.md R93, 93_implementation_defined.md U13). Unless the command byte of the
start write is `BURST_CMD`, the controller is capturing. Its flag is then what the clear write, and an old capture
that ends between the writes, have left, `c` being the controller after the clear write: the start write does not
change it (log entry 23), but a start write equal to the clear write clears it (log entry 12). Where a write's command byte is `BURST_CMD` it leaves the controller unconstrained (the
model's choice, log entry 28). -/
def Obligations.TrigOpensSession : Prop :=
  ∀ (s : State) (c : Controller), s.st.halted = false → s.st.sel = false → s.st.triggered = false → s.acked 4 →
    c = (if BitVec.ofNat 8 (128 + s.params.regClr.toNat) = s.params.burstCmd then
        { cleared := true, done := .unconstrained, fifo := .unknown }
      else if s.params.regClr = s.params.regStart ∧ s.params.valClr = s.params.valStart then
        { cleared := true, done := .known false, fifo := .capturing }
      else { cleared := true, done := .known false, fifo := (s.ctlAfter 2).fifo }) →
    exec .trig s = .next { s with
      st := { triggered := true, bytesDelivered := 0, srcOffset := 0, halted := false, sel := false }
      ctl := if BitVec.ofNat 8 (128 + s.params.regStart.toNat) = s.params.burstCmd then
          { cleared := true, done := .unconstrained, fifo := .unknown }
        else
          { cleared := true
            done :=
              if s.params.regClr = s.params.regStart ∧ s.params.valClr = s.params.valStart then .known false
              else ((c.move (s.choiceAt (s.drawn + 2)).move).move (s.choiceAt (s.drawn + 3)).move).done
            fifo := .capturing }
      drawn := s.drawn + 4
      trace := s.trace ++
        [.sel, .tx (BitVec.ofNat 8 (128 + s.params.regClr.toNat)), .tx s.params.valClr, .desel,
         .sel, .tx (BitVec.ofNat 8 (128 + s.params.regStart.toNat)), .tx s.params.valStart, .desel]
      answers := s.answers ++ [⟨⟨.ok, false, false, 0⟩, []⟩] }

/-- A `TRIG` while a session is open is answered `BUSY`, with no bus event and no state change
(41_capture_control.md R93). -/
def Obligations.TrigRefusedBusy : Prop :=
  ∀ s : State, s.st.halted = false → s.st.triggered = true →
    exec .trig s = .next { s with answers := s.answers ++ [⟨⟨.busy, false, false, 0⟩, []⟩] }

/-- `POLL` with both transfers acknowledged: one read of `REG_STATUS`; the answer's flag `DONE` is bit
`DONE_BIT` of the byte read; `st` is unchanged (41_capture_control.md R94). Where the command byte of that read
equals `BURST_CMD` the controller may answer with the next FIFO byte (the model's choice, log entry 28). -/
def Obligations.PollTestsDoneBit : Prop :=
  ∀ (s : State) (v : Byte) (c : Controller), s.st.halted = false → s.st.sel = false → s.acked 2 →
    (if BitVec.ofNat 8 s.params.regStatus.toNat = s.params.burstCmd ∧
        (s.choiceAt (s.drawn + 1)).asBurst = true then
      v = (s.ctlAfter 2).fifoByte (s.drawAt 1) ∧ c = (s.ctlAfter 2).fifoNext
    else v = (s.ctlAfter 2).readRegister s.params s.params.regStatus (s.drawAt 1) ∧ c = s.ctlAfter 2) →
      exec .poll s = .next { s with
        ctl := c
        drawn := s.drawn + 2
        trace := s.trace ++ [.sel, .tx (BitVec.ofNat 8 s.params.regStatus.toNat), .rx v, .desel]
        answers := s.answers ++ [⟨⟨.ok, false, v.getLsbD s.params.doneBit.val, 0⟩, []⟩] }

/-- Once a `TRIG` has performed its clear write since the last `Reset`, and where the capture-done flag is known when the status byte
is read, `POLL` answers that flag; once it is set, it stays set under any number of polls (20_memory.md R51, R52,
41_capture_control.md R94, 93_implementation_defined.md U13). The premise that the read's command byte is not
`BURST_CMD` leaves to `PollTestsDoneBit` the case in which `POLL` may read the FIFO (log entry 28). -/
def Obligations.PollReportsDoneFlag : Prop :=
  ∀ (s t : State) (b : Bool), s.st.halted = false → s.st.sel = false → s.acked 2 →
    BitVec.ofNat 8 s.params.regStatus.toNat ≠ s.params.burstCmd → s.ctl.cleared = true →
    (s.ctlAfter 2).done = .known b → exec .poll s = .next t →
      t.answers = s.answers ++ [⟨⟨.ok, false, b, 0⟩, []⟩] ∧ t.ctl.done = .known b ∧ t.ctl.cleared = true ∧
      (s.ctl.done = .known true → b = true)

/-- From power-on, and from every `Reset`, until an accepted `TRIG` has performed its clear write the done bit is
any value at each read: `POLL` answers a bit that the environment draws at that read, whatever the capture-done flag
is, so that nothing relates the answers of two polls, with clear or start writes by hand between them or not
(70_reset_and_hazards.md R140, R145, 41_capture_control.md R94, 93_implementation_defined.md U13). The premise on
`BURST_CMD`: log entry 28. And no other step ends this: where it ends, the step was a `TRIG` accepted by a block that
is not halted, with both transfers of its clear write acknowledged (that both must be: log entry 29). -/
def Obligations.PollDrawsBeforeTrigger : Prop :=
  State.reset.ctl.cleared = false ∧
  (∀ (s t : State) (rest : List Input), s.inbox = .reset :: rest → step s = .next t → t.ctl.cleared = false) ∧
  (∀ s t : State, s.selectOk → s.ctl.cleared = false → step s = .next t → t.ctl.cleared = true →
    ∃ r rest, s.inbox = .command r :: rest ∧ decode r.word = .ok .trig ∧ s.st.halted = false ∧
      s.st.triggered = false ∧ s.acked 2) ∧
  ∀ s : State, s.st.halted = false → s.st.sel = false → s.acked 2 →
    BitVec.ofNat 8 s.params.regStatus.toNat ≠ s.params.burstCmd → s.ctl.cleared = false →
      ∃ t, exec .poll s = .next t ∧
        t.answers = s.answers ++
          [⟨⟨.ok, false, (s.choiceAt (s.drawn + 1)).draw.getLsbD s.params.doneBit.val, 0⟩, []⟩] ∧
        t.ctl.cleared = false ∧ t.drawn = s.drawn + 2

/-- Once an accepted `TRIG` has performed its clear write the done bit follows the flag until the next `Reset`: no
other step undoes it, and a `Reset` does (93_implementation_defined.md U13, 70_reset_and_hazards.md R140). -/
def Obligations.TriggerClearLasts : Prop :=
  ∀ s t : State, s.selectOk → s.ctl.cleared = true → step s = .next t →
    (t.ctl.cleared = false ↔ ∃ rest, s.inbox = .reset :: rest)

/-- `FLEN` with its six transfers acknowledged: three register reads in select windows of their own, low, mid,
high; the answer is the 24-bit value of the three bytes without its top bit; `st` and the window are unchanged
(41_capture_control.md R95, 20_memory.md R44, 30_encoding.md R65). That the first read is made from the state in
which the controller has come to report another length, or not, is the model's choice (log entry 26), and so is
that a read whose command byte equals `BURST_CMD` may return and consume a FIFO byte, which `byteRead` and
`afterRead` allow for (log entry 28). -/
def Obligations.FlenReadsLength : Prop :=
  ∀ (s s1 s2 s3 s4 : State) (lo mid hi : Byte), s.st.halted = false → s.st.sel = false → s.acked 6 →
    s1 = { s with ctl := s.ctl.report (s.choiceAt s.drawn).report } →
    lo = s1.byteRead s.params.regLenLo → s2 = s1.afterRead s.params.regLenLo →
    mid = s2.byteRead s.params.regLenMid → s3 = s2.afterRead s.params.regLenMid →
    hi = s3.byteRead s.params.regLenHi → s4 = s3.afterRead s.params.regLenHi →
      exec .flen s = .next { s with
        ctl := s4.ctl
        drawn := s.drawn + 6
        trace := s.trace ++
          [.sel, .tx (BitVec.ofNat 8 s.params.regLenLo.toNat), .rx lo, .desel,
           .sel, .tx (BitVec.ofNat 8 s.params.regLenMid.toNat), .rx mid, .desel,
           .sel, .tx (BitVec.ofNat 8 s.params.regLenHi.toNat), .rx hi, .desel]
        answers := s.answers ++ [⟨⟨.ok, false, false,
          BitVec.ofNat 24 ((65536 * hi.toNat + 256 * mid.toNat + lo.toNat) % 8388608)⟩, []⟩] }

/-- When a capture is complete, and the length registers are at addresses of their own whose read commands are
not `BURST_CMD`, `FLEN` answers one length that the controller reports, whatever bit 7 of the high register is
and whatever the controller does between the three reads; the length is the one it reported before, unless it
has come to report another (10_state.md R32, 20_memory.md R51, 41_capture_control.md R95; that it may is log
entry 26), and the FIFO is as it was. -/
def Obligations.FlenReportsCaptureLength : Prop :=
  ∀ (s t : State) (frame : List Byte) (pos : Nat) (len : BitVec 23),
    s.st.halted = false → s.st.sel = false → s.acked 6 → s.ctl.fifo = .complete frame pos len →
    s.params.regLenLo ≠ s.params.regStatus → s.params.regLenMid ≠ s.params.regStatus →
    s.params.regLenHi ≠ s.params.regStatus → s.params.regLenMid ≠ s.params.regLenLo →
    s.params.regLenHi ≠ s.params.regLenLo → s.params.regLenHi ≠ s.params.regLenMid →
    BitVec.ofNat 8 s.params.regLenLo.toNat ≠ s.params.burstCmd →
    BitVec.ofNat 8 s.params.regLenMid.toNat ≠ s.params.burstCmd →
    BitVec.ofNat 8 s.params.regLenHi.toNat ≠ s.params.burstCmd →
    exec .flen s = .next t →
      ∃ reported, ((s.choiceAt s.drawn).report = none → reported = len) ∧
        (∀ new, (s.choiceAt s.drawn).report = some new → reported = new) ∧
        t.answers = s.answers ++ [⟨⟨.ok, false, false, BitVec.ofNat 24 reported.toNat⟩, []⟩] ∧
        t.ctl.fifo = .complete frame pos reported

/-! ### BURST and FILL -/

/-- `BURST n`, `n >= 1`, with its transfers acknowledged: exactly one command byte and exactly `n` received
bytes in one select window, whatever `BURST_CHUNK` is; the bytes go to window offsets 0 to `n - 1` in the order
received and the rest of the window is untouched; `st.src_offset` grows by `n` modulo 2^32, no other field
changes; the answer is `n` (42_burst_stream.md R101, 20_memory.md R46, R47). Over a complete capture each byte is
the frame's at the read position, and past the frame's end the draw of its own transfer (20_memory.md R50,
93_implementation_defined.md U3); while there is no complete capture and none completes, every byte is the draw
of its own transfer and the controller is as it was (20_memory.md R53, 93_implementation_defined.md U4). -/
def Obligations.BurstReadsRawBytes : Prop :=
  ∀ (n : Count) (s : State), s.st.halted = false → s.st.sel = false → n ≠ 0 →
    n.toNat ≤ s.window.size → s.acked (n.toNat + 1) →
      ∃ (raw : List Byte) (t : State), exec (.burst n) s = .next t ∧ raw.length = n.toNat ∧
        t.trace = s.trace ++ ([.sel, .tx s.params.burstCmd] ++ raw.map .rx ++ [.desel]) ∧
        t.st = { s.st with srcOffset := s.st.srcOffset + BitVec.ofNat 32 n.toNat } ∧
        (∀ k, k < n.toNat → Memory.read t.window.cells k = raw[k]?) ∧
        (∀ k, n.toNat ≤ k → Memory.read t.window.cells k = Memory.read s.window.cells k) ∧
        t.window.size = s.window.size ∧
        t.answers = s.answers ++ [⟨⟨.ok, false, false, n⟩, offsetsFrom 0 raw⟩] ∧
        t.drawn = s.drawn + (n.toNat + 1) ∧ t.params = s.params ∧ t.env = s.env ∧ t.inbox = s.inbox ∧
        t.hostLoop = s.hostLoop ∧
        (∀ frame pos len, s.ctl.fifo = .complete frame pos len →
          t.ctl = { s.ctl with fifo := .complete frame (pos + n.toNat) len } ∧
          ∀ k, k < n.toNat → raw[k]? = some (frame[pos + k]?.getD (s.choiceAt (s.drawn + (k + 1))).draw)) ∧
        ((∀ frame pos len, s.ctl.fifo ≠ .complete frame pos len) →
          (∀ k, k ≤ n.toNat → (s.choiceAt (s.drawn + k)).move = .nothing) →
          t.ctl = s.ctl ∧ ∀ k, k < n.toNat → raw[k]? = some (s.choiceAt (s.drawn + (k + 1))).draw)

/-- `BURST 0` and, in an open session short of the frame's end, `FILL 0` answer `OK` with 0 bytes and
nothing else happens: no bus event, no window write (42_burst_stream.md R101, R105, 20_memory.md R46). -/
def Obligations.ZeroLengthDoesNothing : Prop :=
  (∀ s : State, s.st.halted = false →
    exec (.burst 0) s = .next { s with answers := s.answers ++ [⟨⟨.ok, false, false, 0⟩, []⟩] }) ∧
  (∀ s : State, s.st.halted = false → s.st.triggered = true → s.st.bytesDelivered.toNat < 76800 →
    exec (.fill 0) s = .next { s with answers := s.answers ++ [⟨⟨.ok, false, false, 0⟩, []⟩] })

/-- A burst from a complete capture that still holds `n` bytes delivers exactly the next `n` bytes of the
FIFO and advances the read position past them, so that they are not read again; nothing else of the controller
changes (20_memory.md R50, R55). -/
def Obligations.BurstConsumesFifoInOrder : Prop :=
  ∀ (n : Count) (s t : State) (frame : List Byte) (pos : Nat) (len : BitVec 23),
    s.st.halted = false → s.st.sel = false → s.acked (n.toNat + 1) →
    s.ctl.fifo = .complete frame pos len → pos + n.toNat ≤ frame.length →
    exec (.burst n) s = .next t →
      (∀ k, k < n.toNat → Memory.read t.window.cells k = frame[pos + k]?) ∧
      t.ctl = { s.ctl with fifo := .complete frame (pos + n.toNat) len }

/-- `FILL` with no session open is answered `NOSESSION`, whatever the window: no bus event, no window write
(42_burst_stream.md R104). -/
def Obligations.FillRefusedWithoutSession : Prop :=
  ∀ (w : Count) (s : State), s.st.halted = false → s.st.triggered = false →
    exec (.fill w) s = .next { s with answers := s.answers ++ [⟨⟨.noSession, false, false, 0⟩, []⟩] }

/-- `FILL w` in an open session, `n = min(w, FRAME_BYTES - st.bytes_delivered)`, with its own transfers
acknowledged, one for each of the `2n` raw bytes and one for each select window, whatever comes after them: exactly
`2n` raw bytes are received, paired high byte first and converted; the `n` luma bytes go
to window offsets 0 to `n - 1` and the rest of the window is untouched; both counters advance; when the
total is 76,800, and only then, the answer has `LAST` and the session is closed (42_burst_stream.md R104 to
R106). -/
def Obligations.FillDeliversLuma : Prop :=
  ∀ (w : Count) (s : State) (n : Nat), s.st.halted = false → s.st.sel = false → s.st.triggered = true →
    s.st.bytesDelivered.toNat < 76800 → n = min w.toNat (76800 - s.st.bytesDelivered.toNat) →
    n ≤ s.window.size → s.acked (2 * n + (specChunks s.params.burstChunk (2 * n)).length) →
      ∃ (raw ys : List Byte) (es : List BusEvent) (t : State), exec (.fill w) s = .next t ∧
        t.trace = s.trace ++ es ∧ receivedBytes es = raw ∧ raw.length = 2 * n ∧ ys.length = n ∧
        (∀ k, k < n → ∃ b0 b1, raw[2 * k]? = some b0 ∧ raw[2 * k + 1]? = some b1 ∧
          ys[k]? = some (luma (BitVec.ofNat 16 (256 * b0.toNat + b1.toNat)))) ∧
        (∀ k, k < n → Memory.read t.window.cells k = ys[k]?) ∧
        (∀ k, n ≤ k → Memory.read t.window.cells k = Memory.read s.window.cells k) ∧
        t.window.size = s.window.size ∧
        (s.st.bytesDelivered.toNat + n ≠ 76800 →
          t.st = { s.st with
            bytesDelivered := BitVec.ofNat 32 (s.st.bytesDelivered.toNat + n)
            srcOffset := s.st.srcOffset + BitVec.ofNat 32 (2 * n) } ∧
          t.answers = s.answers ++ [⟨⟨.ok, false, false, BitVec.ofNat 24 n⟩, offsetsFrom 0 ys⟩]) ∧
        (s.st.bytesDelivered.toNat + n = 76800 →
          t.st = { s.st with
            triggered := false
            bytesDelivered := 0
            srcOffset := s.st.srcOffset + BitVec.ofNat 32 (2 * n) } ∧
          t.answers = s.answers ++ [⟨⟨.ok, true, false, BitVec.ofNat 24 n⟩, offsetsFrom 0 ys⟩]) ∧
        t.params = s.params ∧ t.env = s.env ∧ t.inbox = s.inbox ∧ t.hostLoop = s.hostLoop

/-- A `FILL` whose own transfers are acknowledged delivers from a complete capture the next pixels of the frame in order, whatever `BURST_CHUNK`
is, and advances the FIFO by two bytes for each byte delivered (42_burst_stream.md R102 to R104,
20_memory.md R50). A raw byte past the end of the frame is the draw of its own transfer (`rawTransfer`;
93_implementation_defined.md U3), and so is every raw byte while there is no complete capture and none completes
during those transfers (20_memory.md R53, 93_implementation_defined.md U4). -/
def Obligations.FillDeliversNextPixels : Prop :=
  ∀ (w : Count) (s t : State) (n : Nat) (draw : Nat → Byte),
    s.st.halted = false → s.st.sel = false → s.st.triggered = true →
    n = min w.toNat (76800 - s.st.bytesDelivered.toNat) →
    s.acked (2 * n + (specChunks s.params.burstChunk (2 * n)).length) →
    (∀ i, draw i = (s.choiceAt (s.drawn + rawTransfer s.params.burstChunk i)).draw) →
    exec (.fill w) s = .next t →
      (∀ frame pos len, s.ctl.fifo = .complete frame pos len →
        (∀ k, k < n → Memory.read t.window.cells k = some (luma (BitVec.ofNat 16
          (256 * (frame[pos + 2 * k]?.getD (draw (2 * k))).toNat +
            (frame[pos + 2 * k + 1]?.getD (draw (2 * k + 1))).toNat)))) ∧
        t.ctl = { s.ctl with fifo := .complete frame (pos + 2 * n) len }) ∧
      ((∀ frame pos len, s.ctl.fifo ≠ .complete frame pos len) →
        (∀ k, k < 2 * n + (specChunks s.params.burstChunk (2 * n)).length →
          (s.choiceAt (s.drawn + k)).move = .nothing) →
        (∀ k, k < n → Memory.read t.window.cells k = some (luma (BitVec.ofNat 16
          (256 * (draw (2 * k)).toNat + (draw (2 * k + 1)).toNat)))) ∧
        t.ctl = s.ctl)

/-- A `FILL` of `n` bytes whose own transfers are acknowledged performs one burst after another, each in a select
window of its own that holds exactly one burst command byte and then the bytes received: every window but the
last carries `BURST_CHUNK` bytes and the last one the rest of the `2n`, so that there are
`ceil(2n / BURST_CHUNK)` of them, and there is no other bus event (42_burst_stream.md R102, 20_memory.md R46).
One environment choice is used for each byte received and for each command byte. -/
def Obligations.FillSelectWindows : Prop :=
  ∀ (w : Count) (s t : State) (n : Nat), s.st.halted = false → s.st.sel = false → s.st.triggered = true →
    n = min w.toNat (76800 - s.st.bytesDelivered.toNat) →
    s.acked (2 * n + (specChunks s.params.burstChunk (2 * n)).length) → exec (.fill w) s = .next t →
      ∃ chunks : List (List Byte), t.trace = s.trace ++ burstEvents s.params.burstCmd chunks ∧
        chunks.map List.length = specChunks s.params.burstChunk (2 * n) ∧
        (∀ c h, s.params.burstChunk = .atMost c h → chunks.length = (2 * n + c - 1) / c) ∧
        t.drawn = s.drawn + 2 * n + chunks.length ∧
        ∀ k, k < n → ∃ b0 b1, chunks.flatten[2 * k]? = some b0 ∧ chunks.flatten[2 * k + 1]? = some b1 ∧
          Memory.read t.window.cells k = some (luma (BitVec.ofNat 16 (256 * b0.toNat + b1.toNat)))

/-- The streaming property: in an open session over a complete capture that holds the rest of the frame,
with none of its own transfers failing, draining into any windows delivers the next pixels in order, as many as fit, none
read twice and none skipped, and sees `LAST` exactly when the frame's 76,800 bytes are reached
(42_burst_stream.md R109). The host's loop is the model's bounded form of DRAIN (log entry 19). -/
def Obligations.DrainStreamsFrame : Prop :=
  ∀ (ws : List Window) (s : State) (m rest : Nat) (frame : List Byte) (pos : Nat) (len : BitVec 23),
    s.st.halted = false → s.st.sel = false → s.st.triggered = true →
    rest = 76800 - s.st.bytesDelivered.toNat → 0 < rest →
    m = min rest (ws.map fun w => min w.size 16777215).sum →
    s.acked (drainTransfers s.params.burstChunk rest (ws.map fun w => min w.size 16777215)) →
    s.ctl.fifo = .complete frame pos len → pos + 2 * m ≤ frame.length →
      ∃ d : Drained, drain ws s = .next d ∧
        d.committed = ((List.range m).map fun k => luma (BitVec.ofNat 16
          (256 * (frame.getD (pos + 2 * k) 0).toNat + (frame.getD (pos + 2 * k + 1) 0).toNat))) ∧
        (d.last = true ↔ m = rest) ∧
        d.state.ctl.fifo = .complete frame (pos + 2 * m) len

/-- Whatever comes of a `BURST n` or a `FILL w`, a bus fault included, no window byte at or above the count
it was to write changes, and no other command writes the window at all (20_memory.md R47,
60_exceptions.md R124, 92_eei_decisions.md D29). -/
def Obligations.WindowBeyondCountUntouched : Prop :=
  (∀ (n : Count) (s t : State) (k : Nat), s.st.sel = false → exec (.burst n) s = .next t → n.toNat ≤ k →
    Memory.read t.window.cells k = Memory.read s.window.cells k) ∧
  (∀ (w : Count) (s t : State) (k : Nat), s.st.sel = false → exec (.fill w) s = .next t →
    min w.toNat (76800 - s.st.bytesDelivered.toNat) ≤ k →
    Memory.read t.window.cells k = Memory.read s.window.cells k) ∧
  (∀ (i : Instr) (s t : State), s.st.sel = false → exec i s = .next t → (∀ n, i ≠ .burst n) →
    (∀ w, i ≠ .fill w) → t.window = s.window)

/-! ### The bus fault -/

/-- What a bus fault of any command does to the block: the trace ends with `Desel`, the block is halted and
deselected, every other field keeps the value it had when the command began, the answer is `BUSFAULT`
(60_exceptions.md R124). What it does not undo is said command by command: `RdregBusFault`, `WriteBusFault`,
`ReadBusFault`, `BurstBusFault`, `FillBusFault`. -/
def Obligations.BusFaultEffect : Prop :=
  ∀ (i : Instr) (s t : State), s.st.halted = false → s.st.sel = false → exec i s = .next t →
    t.st.halted = true →
      t.st = { s.st with halted := true } ∧
      (∃ es, t.trace = s.trace ++ es ++ [.desel]) ∧
      ∃ ws, t.answers = s.answers ++ [⟨⟨.busFault, false, false, 0⟩, ws⟩]

/-- The state after a command that met a bus fault and writes no window: `n` choices used, the events `es` and
then `Desel`, the controller `c`, the block halted, `BUSFAULT` answered (60_exceptions.md R124). -/
def faultedState (s : State) (n : Nat) (es : List BusEvent) (c : Controller) : State :=
  { s with
    st := { s.st with halted := true }
    ctl := c
    drawn := s.drawn + n
    trace := s.trace ++ es ++ [.desel]
    answers := s.answers ++ [⟨⟨.busFault, false, false, 0⟩, []⟩] }

/-- The state after a command whose register write from `s` fails at its command byte, or at its data byte, on
which the controller may have acted all the same (log entry 10). -/
def writeFaulted (s : State) (a : RegAddr) (v : Byte) (atData : Bool) : State :=
  if atData then
    faultedState s 2 [.sel, .tx (BitVec.ofNat 8 (128 + a.toNat))]
      (if (s.choiceAt (s.drawn + 1)).landed = true then
        (s.ctlAfter 2).windowWrite s.params a v else s.ctlAfter 2)
  else faultedState s 1 [.sel] (s.ctlAfter 1)

/-- The state after a command whose register read from `s` fails at its command byte, or at its data byte. -/
def readFaulted (s : State) (a : RegAddr) (atData : Bool) : State :=
  if atData then faultedState s 2 [.sel, .tx (BitVec.ofNat 8 a.toNat)] (s.ctlAfter 2)
  else faultedState s 1 [.sel] (s.ctlAfter 1)

/-- Where the first transfer of `i` from `s` that is not acknowledged is transfer `k`, or `k + 1`, it ends in
`f false`, or `f true`. -/
def FaultsAt (i : Instr) (s : State) (k : Nat) (f : Bool → State) : Prop :=
  ∀ atData : Bool, s.acked (k + atData.toNat) → (s.choiceAt (s.drawn + (k + atData.toNat))).ack = false →
    exec i s = .next (f atData)

/-- `WRREG` and `TRIG` with a transfer not acknowledged: the failed transfer emits no event, the select window
is closed, the block halts; what was done before is not undone. Of a `TRIG` whose start write fails the clear
write stays done, in the trace and in the controller, `s2` being the state after it (60_exceptions.md R124,
20_memory.md R54). Three points are the model's: that an unacknowledged data byte may have had its effect (log
entry 10); that a write whose command byte is `BURST_CMD` leaves the controller unconstrained (`windowWrite`, log
entry 28); and that a `TRIG` whose clear write was acknowledged counts as accepted for the done bit read later,
though its start write fails, while one whose clear write's data byte was not acknowledged does not (`cleared`,
93_implementation_defined.md U13, log entry 29). -/
def Obligations.WriteBusFault : Prop :=
  (∀ (a : RegAddr) (v : Byte) (s : State), s.st.halted = false → s.st.sel = false →
    FaultsAt (.wrreg a v) s 0 (writeFaulted s a v)) ∧
  (∀ s s2 : State, s.st.halted = false → s.st.sel = false → s.st.triggered = false →
    s2 = { s with
      ctl := { (s.ctlAfter 2).windowWrite s.params s.params.regClr s.params.valClr with cleared := true }
      drawn := s.drawn + 2
      trace := s.trace ++ [.sel, .tx (BitVec.ofNat 8 (128 + s.params.regClr.toNat)), .tx s.params.valClr, .desel] } →
    FaultsAt .trig s 0 (writeFaulted s s.params.regClr s.params.valClr) ∧
    FaultsAt .trig s 2 (writeFaulted s2 s.params.regStart s.params.valStart))

/-- `POLL` and `FLEN` with a transfer not acknowledged: the failed transfer emits no event, the select window
is closed, the block halts; the reads before it stay in the trace (60_exceptions.md R124, 20_memory.md R54). The
states between the reads of an `FLEN` are those of `FlenReadsLength` (log entries 26, 28). -/
def Obligations.ReadBusFault : Prop :=
  (∀ s : State, s.st.halted = false → s.st.sel = false →
    FaultsAt .poll s 0 (readFaulted s s.params.regStatus)) ∧
  (∀ s s1 s2 s3 : State, s.st.halted = false → s.st.sel = false →
    s1 = { s with ctl := s.ctl.report (s.choiceAt s.drawn).report } →
    s2 = s1.afterRead s.params.regLenLo → s3 = s2.afterRead s.params.regLenMid →
    FaultsAt .flen s 0 (readFaulted s1 s.params.regLenLo) ∧
    FaultsAt .flen s 2 (readFaulted s2 s.params.regLenMid) ∧
    FaultsAt .flen s 4 (readFaulted s3 s.params.regLenHi))

/-- `BURST n` whose transfer `j` is the first not acknowledged: the trace keeps the command byte and the bytes
received before it, the failed transfer emits no event, and the FIFO bytes received, and only those, stay
consumed (60_exceptions.md R124, 20_memory.md R54; that the failed receive consumes none is the model's reading,
log entry 27). -/
def Obligations.BurstBusFault : Prop :=
  ∀ (n : Count) (s : State) (j : Nat), s.st.halted = false → s.st.sel = false → n ≠ 0 →
    n.toNat ≤ s.window.size → j ≤ n.toNat → s.acked j → (s.choiceAt (s.drawn + j)).ack = false →
      ∃ (raw : List Byte) (t : State), exec (.burst n) s = .next t ∧ raw.length = j - 1 ∧
        t.trace = s.trace ++ (.sel :: (if j = 0 then [] else .tx s.params.burstCmd :: raw.map .rx)) ++ [.desel] ∧
        t.st = { s.st with halted := true } ∧
        (∀ frame pos len, s.ctl.fifo = .complete frame pos len →
          t.ctl = { s.ctl with fifo := .complete frame (pos + (j - 1)) len } ∧
          ∀ k, k < j - 1 → raw[k]? = some (frame[pos + k]?.getD (s.choiceAt (s.drawn + (k + 1))).draw)) ∧
        ((∀ frame pos len, s.ctl.fifo ≠ .complete frame pos len) →
          (∀ k, k ≤ j → (s.choiceAt (s.drawn + k)).move = .nothing) →
          t.ctl = s.ctl ∧ ∀ k, k < j - 1 → raw[k]? = some (s.choiceAt (s.drawn + (k + 1))).draw)

/-- `FILL` of `n` bytes whose transfer `j` is the first not acknowledged: the select windows before it, full
ones, stay in the trace, the open window keeps its command byte and the bytes received, the failed transfer
emits no event, and the FIFO bytes received, and only those, stay consumed (60_exceptions.md R124,
42_burst_stream.md R102, 20_memory.md R54); with no complete capture and none completing the bytes received are
draws and the controller is as it was (20_memory.md R53, 93_implementation_defined.md U4; that the failed receive consumes none is the model's reading, log entry
27). -/
def Obligations.FillBusFault : Prop :=
  ∀ (w : Count) (s : State) (n j : Nat), s.st.halted = false → s.st.sel = false → s.st.triggered = true →
    n = min w.toNat (76800 - s.st.bytesDelivered.toNat) → n ≤ s.window.size →
    j < 2 * n + (specChunks s.params.burstChunk (2 * n)).length →
    s.acked j → (s.choiceAt (s.drawn + j)).ack = false →
      ∃ (chunks : List (List Byte)) (raw : List Byte) (es : List BusEvent) (t : State),
        exec (.fill w) s = .next t ∧
        t.trace = s.trace ++ burstEvents s.params.burstCmd chunks ++ (.sel :: es) ++ [.desel] ∧
        ((es = [] ∧ raw = [] ∧ j = chunks.length + chunks.flatten.length) ∨
          (es = .tx s.params.burstCmd :: raw.map .rx ∧
            j = chunks.length + chunks.flatten.length + 1 + raw.length)) ∧
        (s.params.burstChunk = .unlimited → chunks = []) ∧
        (∀ c h, s.params.burstChunk = .atMost c h → (∀ bs ∈ chunks, bs.length = c) ∧ raw.length < c) ∧
        t.st = { s.st with halted := true } ∧
        (∀ frame pos len, s.ctl.fifo = .complete frame pos len →
          t.ctl = { s.ctl with fifo := .complete frame (pos + (chunks.flatten.length + raw.length)) len } ∧
          ∀ i, i < chunks.flatten.length + raw.length → (chunks.flatten ++ raw)[i]? =
            some (frame[pos + i]?.getD (s.choiceAt (s.drawn + rawTransfer s.params.burstChunk i)).draw)) ∧
        ((∀ frame pos len, s.ctl.fifo ≠ .complete frame pos len) →
          (∀ k, k ≤ j → (s.choiceAt (s.drawn + k)).move = .nothing) →
          t.ctl = s.ctl ∧ ∀ i, i < chunks.flatten.length + raw.length → (chunks.flatten ++ raw)[i]? =
            some (s.choiceAt (s.drawn + rawTransfer s.params.burstChunk i)).draw)

/-- A command halts the block exactly when one of the environment's choices it used (log entry 1) is a
transfer not acknowledged (20_memory.md R54, 60_exceptions.md R121). A command that uses none, among them every `CONV`,
never does. -/
def Obligations.HaltsOnlyOnFailedTransfer : Prop :=
  ∀ (i : Instr) (s t : State), s.st.halted = false → s.st.sel = false → exec i s = .next t →
    (t.st.halted = true ↔ ∃ k, s.drawn ≤ k ∧ k < t.drawn ∧ (s.choiceAt k).ack = false)

/-- A `BURST` or a `FILL` that meets a bus fault leaves in the window, below the count it was to write, drawn
bytes and nothing the spec determines (60_exceptions.md R124, 93_implementation_defined.md U6). That each is an
environment choice after those of its transfers, `k` being the one after the failed transfer's, is the model's
choice (log entry 9). -/
def Obligations.FaultingWindowDrawn : Prop :=
  ∀ (i : Instr) (s t : State) (n : Nat), s.st.halted = false → s.st.sel = false →
    ((∃ m, i = .burst m ∧ n = m.toNat) ∨
      ∃ w, i = .fill w ∧ n = min w.toNat (76800 - s.st.bytesDelivered.toNat)) →
    exec i s = .next t → t.st.halted = true →
      ∃ k, s.drawn < k ∧ (s.choiceAt (k - 1)).ack = false ∧
        (∀ j, s.drawn ≤ j → j < k - 1 → (s.choiceAt j).ack = true) ∧ t.drawn = k + n ∧
        ∀ j, j < n → Memory.read t.window.cells j = some (s.choiceAt (k + j)).draw

/-! ### Frames and invariants -/

/-- Each field of `st` is written only as the state table says: `triggered` and `bytes_delivered` by `TRIG` and
`FILL`, `src_offset` by `TRIG`, `BURST` and `FILL`, `halted` by a bus fault, which sets it and answers
`BUSFAULT`, and cleared by no command, and `sel` is after every command what it was before (10_state.md R20,
20_memory.md R43). No command writes the model's own fields: the open parameters (log entry 2), the
environment's script (log entry 1), the host's queue (log entry 4) and its loop (log entry 17). -/
def Obligations.FieldsWrittenOnlyByTheirCommands : Prop :=
  ∀ (i : Instr) (s t : State), s.st.sel = false → exec i s = .next t →
    (i ≠ .trig → (∀ w, i ≠ .fill w) →
      t.st.triggered = s.st.triggered ∧ t.st.bytesDelivered = s.st.bytesDelivered) ∧
    (i ≠ .trig → (∀ w, i ≠ .fill w) → (∀ n, i ≠ .burst n) → t.st.srcOffset = s.st.srcOffset) ∧
    (s.st.halted = true → t.st.halted = true) ∧
    (s.st.halted = false → t.st.halted = true →
      ∃ ws, t.answers = s.answers ++ [⟨⟨.busFault, false, false, 0⟩, ws⟩]) ∧
    t.st.sel = s.st.sel ∧
    t.params = s.params ∧ t.env = s.env ∧ t.inbox = s.inbox ∧ t.hostLoop = s.hostLoop

/-- The select discipline is kept by every step: from a deselected bus and a trace in which `Sel` and `Desel`
alternate with transfers only between them, every step leaves such a trace and a deselected bus
(20_memory.md R43). -/
def Obligations.SelectDisciplineKept : Prop :=
  ∀ s t : State, s.selectOk → step s = .next t → t.selectOk

/-- The session invariant is kept by every step (10_state.md R24). -/
def Obligations.SessionInvariantKept : Prop :=
  ∀ s t : State, s.selectOk → s.sessionOk → step s = .next t → t.sessionOk

/-- Every step keeps every window in its canonical form and within its size (20_memory.md R47). -/
def Obligations.WindowsStayCanonical : Prop :=
  ∀ s t : State, s.selectOk → s.windowsOk → step s = .next t → t.windowsOk

/-- The three invariants hold right after reset. -/
def Obligations.InvariantsHoldAtReset : Prop :=
  State.reset.selectOk ∧ State.reset.sessionOk ∧ State.reset.windowsOk

/-- A session opens only by an accepted `TRIG` (42_burst_stream.md R107). -/
def Obligations.SessionOpensOnlyByTrig : Prop :=
  ∀ s t : State, s.selectOk → step s = .next t → s.st.triggered = false → t.st.triggered = true →
    ∃ r rest, s.inbox = .command r :: rest ∧ decode r.word = .ok .trig ∧
      t.answers = s.answers ++ [⟨⟨.ok, false, false, 0⟩, []⟩]

/-- A session closes only by `Reset` or by the `FILL` that delivers the last byte of the frame, which
answers `LAST` (42_burst_stream.md R106, R107). -/
def Obligations.SessionClosesOnlyAtFrameEnd : Prop :=
  ∀ s t : State, s.selectOk → s.sessionOk → step s = .next t → s.st.triggered = true →
    t.st.triggered = false →
      (∃ rest, s.inbox = .reset :: rest) ∨
      ∃ r rest w a, s.inbox = .command r :: rest ∧ decode r.word = .ok (.fill w) ∧
        76800 - s.st.bytesDelivered.toNat ≤ w.toNat ∧ t.answers = s.answers ++ [a] ∧ frameComplete a = true

/-- The block leaves the halted state only by `Reset` (60_exceptions.md R129). -/
def Obligations.HaltedLeftOnlyByReset : Prop :=
  ∀ s t : State, step s = .next t → s.st.halted = true → t.st.halted = false →
    ∃ rest, s.inbox = .reset :: rest

/-- A `FILL` keeps `st.src_offset` at twice `st.bytes_delivered` while the session lasts
(10_state.md R25). -/
def Obligations.FillKeepsOffsetTwiceDelivered : Prop :=
  ∀ (w : Count) (s t : State), s.st.sel = false → s.st.bytesDelivered.toNat < 76800 →
    s.st.srcOffset.toNat = 2 * s.st.bytesDelivered.toNat → exec (.fill w) s = .next t →
    t.st.triggered = true → t.st.srcOffset.toNat = 2 * t.st.bytesDelivered.toNat

/-- Every step only adds to the observations, except a `Reset`, which empties them (10_state.md R37,
20_memory.md R42, 70_reset_and_hazards.md R140). -/
def Obligations.ObservationsOnlyGrow : Prop :=
  ∀ s t : State, s.selectOk → step s = .next t →
    (∃ rest, s.inbox = .reset :: rest ∧ t.trace = [] ∧ t.answers = []) ∨
    ((∃ es, t.trace = s.trace ++ es) ∧ ∃ as, t.answers = s.answers ++ as)

/-- An execution without end: a state for every number of steps, each a step of the one before. -/
def Endless (f : Nat → State) : Prop := ∀ k, step (f k) = .next (f (k + 1))

/-- The environment acknowledges every transfer from now on, for ever, and the controller does nothing of its own
accord. -/
def QuietForEver (s : State) : Prop :=
  ∀ k, s.drawn ≤ k → (s.choiceAt k).ack = true ∧ (s.choiceAt k).move = .nothing ∧ (s.choiceAt k).report = none

/-- The two liveness failures are executions without end, with no fault, no status but `OK` and `BUSY` and no
change of `st` (60_exceptions.md R136, 20_memory.md R53). The stalled capture: the controller never sets the done
flag, the host polls for ever, and every `POLL` answers `OK` with `DONE` 0. The length that never passes: every
`FLEN` answers less than 153,600, the host asks and triggers for ever, the session stays open, and every `TRIG` is
answered `BUSY`. That the host acts from the state's list of what it does again and again, taking one step to begin
it, is the model's form of such a host (log entry 17); the premises on `BURST_CMD`: log entry 28. -/
def Obligations.LivenessFailuresNeverEnd : Prop :=
  (∀ (s : State) (r : Request), s.st.halted = false → s.st.sel = false → QuietForEver s →
    s.ctl.cleared = true → s.ctl.done = .known false → s.ctl.fifo = .capturing →
    BitVec.ofNat 8 s.params.regStatus.toNat ≠ s.params.burstCmd →
    s.inbox = [] → s.hostLoop = [.command r] → decode r.word = .ok .poll →
      ∃ f, Endless f ∧ f 0 = s ∧ ∀ k, (f (2 * k)).st = s.st ∧ (f (2 * k)).ctl = s.ctl ∧
        (f (2 * k)).answers = s.answers ++ List.replicate k ⟨⟨.ok, false, false, 0⟩, []⟩) ∧
  (∀ (s : State) (r r' : Request) (frame : List Byte) (pos : Nat) (len : BitVec 23),
    s.st.halted = false → s.st.sel = false → s.st.triggered = true → QuietForEver s →
    s.ctl.fifo = .complete frame pos len → len.toNat < 153600 →
    [s.params.regStatus, s.params.regLenLo, s.params.regLenMid, s.params.regLenHi].Nodup →
    (∀ a ∈ [s.params.regLenLo, s.params.regLenMid, s.params.regLenHi],
      BitVec.ofNat 8 a.toNat ≠ s.params.burstCmd) →
    s.inbox = [] → s.hostLoop = [.command r, .command r'] → decode r.word = .ok .flen →
    decode r'.word = .ok .trig →
      ∃ f, Endless f ∧ f 0 = s ∧ ∀ k, (f (3 * k)).st = s.st ∧ (f (3 * k)).ctl = s.ctl ∧
        (f (3 * k)).answers = s.answers ++ (List.replicate k
          [⟨⟨.ok, false, false, BitVec.ofNat 24 len.toNat⟩, []⟩, ⟨⟨.busy, false, false, 0⟩, []⟩]).flatten)

/-- The host can follow the block from the responses alone: if what it knows of the session and of the halt
agrees with the block before a command, it agrees after it, whatever the command and its outcome
(70_reset_and_hazards.md R144, 42_burst_stream.md R107, 60_exceptions.md R125). The record of what it knows is
the model's (log entry 18). -/
def Obligations.HostViewTracksBlock : Prop :=
  ∀ (h : HostView) (i : Instr) (s t : State), s.st.sel = false → h.session = s.st.triggered →
    h.stopped = s.st.halted → exec i s = .next t →
      ∃ a, t.answers = s.answers ++ [a] ∧ (hostLearns h i a.response).session = t.st.triggered ∧
        (hostLearns h i a.response).stopped = t.st.halted

/-- A host that keeps to the protocol of 70_reset_and_hazards.md R144 is refused by `BUSY` to a `TRIG` at most:
every other command of it is answered `OK` or `BUSFAULT`, so never `NOSESSION`, `HALTED` or `ILLEGAL`
(60_exceptions.md R120, R128). The check of the protocol is the model's (log entry 18). -/
def Obligations.ProtocolHostRefusedOnlyByBusy : Prop :=
  ∀ (h : HostView) (i : Instr) (s t : State), s.st.sel = false → h.session = s.st.triggered →
    h.stopped = s.st.halted → hostMay h i = true → exec i s = .next t →
      ∃ a, t.answers = s.answers ++ [a] ∧
        (a.response.status = .ok ∨ a.response.status = .busFault ∨ (a.response.status = .busy ∧ i = .trig))
end

