-- ==== Sys2Proof/Laws/Memory.lean ====
section
/-! SUPPORT. Memory and windows: read after write, and that every operation keeps the canonical form. -/

namespace Sys2Proof.Machine

@[simp] theorem Memory.read_write_same (m : Memory) (a : Nat) (b : Byte) :
    Memory.read (Memory.write m a b) a = some b := by
  induction m with
  | nil => simp [Memory.write, Memory.read]
  | cons x rest ih =>
    unfold Memory.write
    split
    · simp [Memory.read]
    · split
      · simp [Memory.read]
      · rename_i _ hne
        rw [Memory.read, if_neg (Ne.symm hne), ih]

theorem Memory.read_write_other (m : Memory) {a c : Nat} (b : Byte) (h : c ≠ a) :
    Memory.read (Memory.write m a b) c = Memory.read m c := by
  induction m with
  | nil => simp [Memory.write, Memory.read, h.symm]
  | cons x rest ih =>
    unfold Memory.write
    split
    · simp [Memory.read, h.symm]
    · split
      · rename_i _ heq
        simp [Memory.read, h.symm, ← heq]
      · simp [Memory.read, ih]

/-- Offsets below the first byte written keep their bytes. -/
theorem Memory.read_writeFrom_below (bs : List Byte) :
    ∀ (m : Memory) (a c : Nat), c < a → Memory.read (Memory.writeFrom m a bs) c = Memory.read m c := by
  induction bs with
  | nil => intro m a c _; rfl
  | cons b bs ih =>
    intro m a c h
    rw [Memory.writeFrom, ih _ _ _ (by omega), Memory.read_write_other _ _ (by omega)]

/-- Offsets past the last byte written keep their bytes. -/
theorem Memory.read_writeFrom_above (bs : List Byte) :
    ∀ (m : Memory) (a c : Nat), a + bs.length ≤ c →
      Memory.read (Memory.writeFrom m a bs) c = Memory.read m c := by
  induction bs with
  | nil => intro m a c _; rfl
  | cons b bs ih =>
    intro m a c h
    simp only [List.length_cons] at h
    rw [Memory.writeFrom, ih _ _ _ (by omega), Memory.read_write_other _ _ (by omega)]

/-- Every byte written is read back at its offset. -/
theorem Memory.read_writeFrom_inside (bs : List Byte) :
    ∀ (m : Memory) (a k : Nat), k < bs.length →
      Memory.read (Memory.writeFrom m a bs) (a + k) = bs[k]? := by
  induction bs with
  | nil => intro m a k h; simp at h
  | cons b bs ih =>
    intro m a k h
    cases k with
    | zero => simp [Memory.writeFrom, Memory.read_writeFrom_below bs _ (a + 1) a (by omega)]
    | succ k =>
      rw [Memory.writeFrom, show a + (k + 1) = (a + 1) + k by omega, ih _ _ _ (by simpa using h)]
      simp

/-- The head of a canonical memory lies below all the rest of it. -/
theorem Memory.wf_cons (x : Host.Cell) (m : Memory) :
    Memory.wf (x :: m) = true ↔ Memory.wf m = true ∧ ∀ y ∈ m, x.1 < y.1 := by
  induction m generalizing x with
  | nil => simp [Memory.wf]
  | cons y rest ih =>
    simp only [Memory.wf, Bool.and_eq_true, decide_eq_true_eq, List.forall_mem_cons]
    rw [ih]
    constructor
    · rintro ⟨h, hr, hy⟩
      exact ⟨⟨hr, hy⟩, h, fun z hz => h.trans (hy z hz)⟩
    · rintro ⟨⟨hr, hy⟩, h, _⟩
      exact ⟨h, hr, hy⟩

/-- The cells of a memory after a write are the cell written and old cells. -/
theorem Memory.mem_write {m : Memory} {a : Nat} {b : Byte} {y : Host.Cell} (h : y ∈ Memory.write m a b) :
    y = (a, b) ∨ y ∈ m := by
  induction m with
  | nil => simpa [Memory.write] using h
  | cons x rest ih =>
    unfold Memory.write at h
    split at h
    · simpa using h
    · split at h
      · simp only [List.mem_cons] at h ⊢
        tauto
      · simp only [List.mem_cons] at h ⊢
        rcases h with h | h
        · exact .inr (.inl h)
        · rcases ih h with h | h
          · exact .inl h
          · exact .inr (.inr h)

/-- A write keeps the canonical form. -/
theorem Memory.wf_write {m : Memory} (a : Nat) (b : Byte) (h : Memory.wf m = true) :
    Memory.wf (Memory.write m a b) = true := by
  induction m with
  | nil => rfl
  | cons x rest ih =>
    obtain ⟨hr, hx⟩ := (Memory.wf_cons x rest).1 h
    unfold Memory.write
    split
    · rename_i hlt
      refine (Memory.wf_cons _ _).2 ⟨h, ?_⟩
      simp only [List.forall_mem_cons]
      exact ⟨hlt, fun y hy => hlt.trans (hx y hy)⟩
    · split
      · rename_i heq
        exact (Memory.wf_cons _ _).2 ⟨hr, fun y hy => by simpa [heq] using hx y hy⟩
      · refine (Memory.wf_cons _ _).2 ⟨ih hr, fun y hy => ?_⟩
        rcases Memory.mem_write hy with rfl | hy
        · simp only; omega
        · exact hx y hy

/-- Writing bytes from 0 on within the size keeps a window well formed. -/
theorem Memory.writeFrom_keeps (bs : List Byte) (size : Nat) :
    ∀ (m : Memory) (a : Nat), a + bs.length ≤ size → Memory.wf m = true → (∀ y ∈ m, y.1 < size) →
      Memory.wf (Memory.writeFrom m a bs) = true ∧ ∀ y ∈ Memory.writeFrom m a bs, y.1 < size := by
  induction bs with
  | nil => intro m a _ h hs; exact ⟨h, hs⟩
  | cons b bs ih =>
    intro m a ha h hs
    simp only [List.length_cons] at ha
    refine ih _ _ (by omega) (Memory.wf_write a b h) fun y hy => ?_
    rcases Memory.mem_write hy with rfl | hy
    · simp only; omega
    · exact hs y hy

/-- `WinWrite` keeps a window well formed. -/
theorem Window.wf_fill {w : Window} {bs : List Byte} (h : w.wf = true) (hn : bs.length ≤ w.size) :
    (w.fill bs).wf = true := by
  simp only [Window.wf, Bool.and_eq_true, List.all_eq_true, decide_eq_true_eq] at h ⊢
  exact Memory.writeFrom_keeps bs w.size w.cells 0 (by omega) h.1 h.2

@[simp] theorem Window.fill_size (w : Window) (bs : List Byte) : (w.fill bs).size = w.size := rfl

/-- The bytes written to a window, at their offsets. -/
theorem Window.read_fill_inside (w : Window) {bs : List Byte} {k : Nat} (h : k < bs.length) :
    Memory.read (w.fill bs).cells k = bs[k]? := by
  simpa [Window.fill] using Memory.read_writeFrom_inside bs w.cells 0 k h

/-- The rest of a window is untouched. -/
theorem Window.read_fill_outside (w : Window) {bs : List Byte} {k : Nat} (h : bs.length ≤ k) :
    Memory.read (w.fill bs).cells k = Memory.read w.cells k :=
  Memory.read_writeFrom_above bs w.cells 0 k (by omega)

end Sys2Proof.Machine
end

