-- ==== Sys2Proof/Laws/Operands.lean ====
section
/-! SUPPORT. The operand forms and the controller's bytes as numbers, said once. -/

namespace Sys2Proof.Machine

/-- The command byte of a read is the address (30_encoding.md R63). -/
theorem readCommand_eq (a : RegAddr) : readCommand a = BitVec.ofNat 8 a.toNat := by
  apply BitVec.eq_of_toNat_eq; simp [readCommand]

/-- The command byte of a write is 128 more than the address (30_encoding.md R63). -/
theorem writeCommand_eq (a : RegAddr) : writeCommand a = BitVec.ofNat 8 (128 + a.toNat) := by
  revert a; decide

/-- A sample is 256 times its high byte plus its low byte (30_encoding.md R62). -/
theorem assembleSample_eq (b0 b1 : Byte) :
    assembleSample b0 b1 = BitVec.ofNat 16 (256 * b0.toNat + b1.toNat) := by
  apply BitVec.eq_of_toNat_eq
  have h0 := b0.isLt
  have h1 := b1.isLt
  unfold assembleSample
  simp only [BitVec.toNat_or, BitVec.toNat_shiftLeft, BitVec.truncate_eq_setWidth, BitVec.toNat_setWidth,
    BitVec.toNat_ofNat]
  have hi : (b0.toNat % 2 ^ 16) <<< 8 % 2 ^ 16 = b0.toNat <<< 8 := by simp only [Nat.shiftLeft_eq]; omega
  rw [hi, Nat.mod_eq_of_lt (h1.trans (by decide)), ← Nat.shiftLeft_add_eq_or_of_lt h1, Nat.shiftLeft_eq]
  omega

/-- The length is the number of the three bytes without bit 23 (30_encoding.md R65). -/
theorem assembleLength_eq (lo mid hi : Byte) : assembleLength lo mid hi =
    BitVec.ofNat 24 ((65536 * hi.toNat + 256 * mid.toNat + lo.toNat) % 8388608) := by
  have h1 := lo.isLt
  have h2 := mid.isLt
  have h3 := hi.isLt
  have whole : (hi.zeroExtend 24 <<< 16 ||| mid.zeroExtend 24 <<< 8 ||| lo.zeroExtend 24 : BitVec 24).toNat
      = 65536 * hi.toNat + 256 * mid.toNat + lo.toNat := by
    simp only [BitVec.toNat_or, BitVec.toNat_shiftLeft, BitVec.truncate_eq_setWidth, BitVec.toNat_setWidth]
    have a1 : (mid.toNat % 2 ^ 24) <<< 8 % 2 ^ 24 = mid.toNat <<< 8 := by simp only [Nat.shiftLeft_eq]; omega
    have a2 : (hi.toNat % 2 ^ 24) <<< 16 % 2 ^ 24 = hi.toNat <<< 16 := by simp only [Nat.shiftLeft_eq]; omega
    rw [Nat.or_assoc, a1, a2, Nat.mod_eq_of_lt (h1.trans (by decide)), ← Nat.shiftLeft_add_eq_or_of_lt h1,
      ← Nat.shiftLeft_add_eq_or_of_lt]
    · simp only [Nat.shiftLeft_eq]; omega
    · simp only [Nat.shiftLeft_eq]; omega
  apply BitVec.eq_of_toNat_eq
  unfold assembleLength
  rw [BitVec.toNat_and]
  show _ &&& 8388607 = _
  rw [show (8388607 : Nat) = 2 ^ 23 - 1 from rfl, Nat.and_two_pow_sub_one_eq_mod, whole, BitVec.toNat_ofNat]
  omega

/-- Sample `k` of a list of raw bytes comes from its bytes `2k` and `2k + 1` (42_burst_stream.md R103). -/
theorem pairSamples_getElem (k : Nat) : ∀ raw : List Byte, 2 * k + 1 < raw.length →
    ∃ b0 b1, raw[2 * k]? = some b0 ∧ raw[2 * k + 1]? = some b1 ∧
      (pairSamples raw)[k]? = some (assembleSample b0 b1) := by
  induction k with
  | zero =>
    intro raw h
    match raw, h with
    | b0 :: b1 :: _, _ => exact ⟨b0, b1, rfl, rfl, rfl⟩
  | succ k ih =>
    intro raw h
    match raw, h with
    | _ :: _ :: rest, h =>
      simp only [List.length_cons] at h
      obtain ⟨c0, c1, e0, e1, e2⟩ := ih rest (by omega)
      exact ⟨c0, c1, e0, e1, e2⟩

/-- Luma byte `k` of a list of raw bytes (42_burst_stream.md R103, 40_codec.md R88). -/
theorem lumaBytes_getElem {raw : List Byte} {k : Nat} (h : 2 * k + 1 < raw.length) :
    ∃ b0 b1, raw[2 * k]? = some b0 ∧ raw[2 * k + 1]? = some b1 ∧
      (lumaBytes raw)[k]? = some (luma (BitVec.ofNat 16 (256 * b0.toNat + b1.toNat))) := by
  obtain ⟨b0, b1, e0, e1, e2⟩ := pairSamples_getElem k raw h
  exact ⟨b0, b1, e0, e1, by rw [lumaBytes, List.getElem?_map, e2, assembleSample_eq]; rfl⟩

/-- A controller that does nothing stays as it is. -/
@[simp] theorem Controller.move_nothing (c : Controller) : c.move .nothing = c := by
  simp [Controller.move]

/-- The controller never clears its done flag of its own accord (20_memory.md R52). -/
theorem Controller.move_done {c : Controller} (m : ControllerMove) (h : c.done = .known true) :
    (c.move m).done = .known true := by
  unfold Controller.move
  split <;> simp [h]

/-- What the controller does of its own accord does not make the done bit a known one
(93_implementation_defined.md U13). -/
@[simp] theorem Controller.move_cleared (c : Controller) (m : ControllerMove) : (c.move m).cleared = c.cleared := by
  unfold Controller.move
  split <;> rfl

/-- A register write does not make the done bit a known one (93_implementation_defined.md U13). -/
@[simp] theorem Controller.windowWrite_cleared (c : Controller) (p : Params) (a : RegAddr) (v : Byte) :
    (c.windowWrite p a v).cleared = c.cleared := by
  unfold Controller.windowWrite Controller.writeRegister
  repeat' split
  all_goals rfl

/-- A read does not make the done bit a known one (93_implementation_defined.md U13). -/
@[simp] theorem Controller.windowNext_cleared (c : Controller) (p : Params) (a : RegAddr) (e : EnvChoice) :
    (c.windowNext p a e).cleared = c.cleared := by
  unfold Controller.windowNext Controller.fifoNext
  repeat' split
  all_goals rfl

@[simp] theorem Controller.fifoNext_cleared (c : Controller) : c.fifoNext.cleared = c.cleared := by
  unfold Controller.fifoNext
  split <;> rfl

@[simp] theorem Controller.report_cleared (c : Controller) (len : Option (BitVec 23)) :
    (c.report len).cleared = c.cleared := by
  unfold Controller.report
  split <;> rfl

/-- Until the first accepted `TRIG` the status byte is the draw (93_implementation_defined.md U13). -/
theorem Controller.statusByte_of_not_cleared {c : Controller} (p : Params) (draw : Byte) (h : c.cleared = false) :
    c.statusByte p draw = draw := by
  simp [Controller.statusByte, Controller.doneSeen, h]

/-- The tested bit of the status byte is the done flag, where that is known (20_memory.md R51). -/
theorem Controller.statusByte_doneBit {c : Controller} {b : Bool} (p : Params) (draw : Byte)
    (h : c.doneSeen = .known b) : doneBitOf p (c.statusByte p draw) = b := by
  have := p.doneBit.isLt
  cases b <;> simp [doneBitOf, Controller.statusByte, h]

/-- Draw `j` of a list of draws is environment choice `k + j`. -/
theorem State.draws_getElem (s : State) (n : Nat) : ∀ k j, j < n →
    (s.draws k n)[j]? = some (s.choiceAt (k + j)).draw := by
  induction n with
  | zero => intro k j h; omega
  | succ n ih =>
    intro k j h
    cases j with
    | zero => rfl
    | succ j =>
      rw [State.draws, List.getElem?_cons_succ, ih _ _ (by omega), Nat.add_assoc, Nat.add_comm 1 j]

end Sys2Proof.Machine
end

