-- ==== Sys2Proof/Laws/State.lean ====
section
/-! SUPPORT. One lemma per field per update of the state, true by definition, so that no later proof unfolds a record update. -/

namespace Sys2Proof.Machine

/-! ### State.emit -/

@[simp] theorem State.emit_st (e : BusEvent) (s : State) : (s.emit e).st = s.st := rfl
@[simp] theorem State.emit_params (e : BusEvent) (s : State) : (s.emit e).params = s.params := rfl
@[simp] theorem State.emit_ctl (e : BusEvent) (s : State) : (s.emit e).ctl = s.ctl := rfl
@[simp] theorem State.emit_env (e : BusEvent) (s : State) : (s.emit e).env = s.env := rfl
@[simp] theorem State.emit_drawn (e : BusEvent) (s : State) : (s.emit e).drawn = s.drawn := rfl
@[simp] theorem State.emit_inbox (e : BusEvent) (s : State) : (s.emit e).inbox = s.inbox := rfl
@[simp] theorem State.emit_hostLoop (e : BusEvent) (s : State) : (s.emit e).hostLoop = s.hostLoop := rfl
@[simp] theorem State.emit_window (e : BusEvent) (s : State) : (s.emit e).window = s.window := rfl
@[simp] theorem State.emit_trace (e : BusEvent) (s : State) : (s.emit e).trace = s.trace ++ [e] := rfl
@[simp] theorem State.emit_answers (e : BusEvent) (s : State) : (s.emit e).answers = s.answers := rfl

/-! ### State.transfer -/

@[simp] theorem State.transfer_st (s : State) : s.transfer.st = s.st := rfl
@[simp] theorem State.transfer_params (s : State) : s.transfer.params = s.params := rfl
@[simp] theorem State.transfer_ctl (s : State) : s.transfer.ctl = s.ctl.move s.choice.move := rfl
@[simp] theorem State.transfer_env (s : State) : s.transfer.env = s.env := rfl
@[simp] theorem State.transfer_drawn (s : State) : s.transfer.drawn = s.drawn + 1 := rfl
@[simp] theorem State.transfer_inbox (s : State) : s.transfer.inbox = s.inbox := rfl
@[simp] theorem State.transfer_hostLoop (s : State) : s.transfer.hostLoop = s.hostLoop := rfl
@[simp] theorem State.transfer_window (s : State) : s.transfer.window = s.window := rfl
@[simp] theorem State.transfer_trace (s : State) : s.transfer.trace = s.trace := rfl
@[simp] theorem State.transfer_answers (s : State) : s.transfer.answers = s.answers := rfl

/-! ### State.controllerWrite -/

@[simp] theorem State.controllerWrite_st (a : RegAddr) (v : Byte) (s : State) : (s.controllerWrite a v).st = s.st := rfl
@[simp] theorem State.controllerWrite_params (a : RegAddr) (v : Byte) (s : State) : (s.controllerWrite a v).params = s.params := rfl
@[simp] theorem State.controllerWrite_ctl (a : RegAddr) (v : Byte) (s : State) : (s.controllerWrite a v).ctl = s.ctl.windowWrite s.params a v := rfl
@[simp] theorem State.controllerWrite_env (a : RegAddr) (v : Byte) (s : State) : (s.controllerWrite a v).env = s.env := rfl
@[simp] theorem State.controllerWrite_drawn (a : RegAddr) (v : Byte) (s : State) : (s.controllerWrite a v).drawn = s.drawn := rfl
@[simp] theorem State.controllerWrite_inbox (a : RegAddr) (v : Byte) (s : State) : (s.controllerWrite a v).inbox = s.inbox := rfl
@[simp] theorem State.controllerWrite_hostLoop (a : RegAddr) (v : Byte) (s : State) : (s.controllerWrite a v).hostLoop = s.hostLoop := rfl
@[simp] theorem State.controllerWrite_window (a : RegAddr) (v : Byte) (s : State) : (s.controllerWrite a v).window = s.window := rfl
@[simp] theorem State.controllerWrite_trace (a : RegAddr) (v : Byte) (s : State) : (s.controllerWrite a v).trace = s.trace := rfl
@[simp] theorem State.controllerWrite_answers (a : RegAddr) (v : Byte) (s : State) : (s.controllerWrite a v).answers = s.answers := rfl

/-! ### State.respond -/

@[simp] theorem State.respond_st (r : Response) (ws : List (Nat × Byte)) (s : State) : (s.respond r ws).st = s.st := rfl
@[simp] theorem State.respond_params (r : Response) (ws : List (Nat × Byte)) (s : State) : (s.respond r ws).params = s.params := rfl
@[simp] theorem State.respond_ctl (r : Response) (ws : List (Nat × Byte)) (s : State) : (s.respond r ws).ctl = s.ctl := rfl
@[simp] theorem State.respond_env (r : Response) (ws : List (Nat × Byte)) (s : State) : (s.respond r ws).env = s.env := rfl
@[simp] theorem State.respond_drawn (r : Response) (ws : List (Nat × Byte)) (s : State) : (s.respond r ws).drawn = s.drawn := rfl
@[simp] theorem State.respond_inbox (r : Response) (ws : List (Nat × Byte)) (s : State) : (s.respond r ws).inbox = s.inbox := rfl
@[simp] theorem State.respond_hostLoop (r : Response) (ws : List (Nat × Byte)) (s : State) : (s.respond r ws).hostLoop = s.hostLoop := rfl
@[simp] theorem State.respond_window (r : Response) (ws : List (Nat × Byte)) (s : State) : (s.respond r ws).window = s.window := rfl
@[simp] theorem State.respond_trace (r : Response) (ws : List (Nat × Byte)) (s : State) : (s.respond r ws).trace = s.trace := rfl
@[simp] theorem State.respond_answers (r : Response) (ws : List (Nat × Byte)) (s : State) : (s.respond r ws).answers = s.answers ++ [{ response := r, writes := ws }] := rfl

/-! ### State.fillWindow -/

@[simp] theorem State.fillWindow_st (bs : List Byte) (s : State) : (s.fillWindow bs).st = s.st := rfl
@[simp] theorem State.fillWindow_params (bs : List Byte) (s : State) : (s.fillWindow bs).params = s.params := rfl
@[simp] theorem State.fillWindow_ctl (bs : List Byte) (s : State) : (s.fillWindow bs).ctl = s.ctl := rfl
@[simp] theorem State.fillWindow_env (bs : List Byte) (s : State) : (s.fillWindow bs).env = s.env := rfl
@[simp] theorem State.fillWindow_drawn (bs : List Byte) (s : State) : (s.fillWindow bs).drawn = s.drawn := rfl
@[simp] theorem State.fillWindow_inbox (bs : List Byte) (s : State) : (s.fillWindow bs).inbox = s.inbox := rfl
@[simp] theorem State.fillWindow_hostLoop (bs : List Byte) (s : State) : (s.fillWindow bs).hostLoop = s.hostLoop := rfl
@[simp] theorem State.fillWindow_window (bs : List Byte) (s : State) : (s.fillWindow bs).window = s.window.fill bs := rfl
@[simp] theorem State.fillWindow_trace (bs : List Byte) (s : State) : (s.fillWindow bs).trace = s.trace := rfl
@[simp] theorem State.fillWindow_answers (bs : List Byte) (s : State) : (s.fillWindow bs).answers = s.answers := rfl

/-! ### State.consumed -/

@[simp] theorem State.consumed_st (n : Nat) (s : State) : (s.consumed n).st = { s.st with srcOffset := s.st.srcOffset + BitVec.ofNat 32 n } := rfl
@[simp] theorem State.consumed_params (n : Nat) (s : State) : (s.consumed n).params = s.params := rfl
@[simp] theorem State.consumed_ctl (n : Nat) (s : State) : (s.consumed n).ctl = s.ctl := rfl
@[simp] theorem State.consumed_env (n : Nat) (s : State) : (s.consumed n).env = s.env := rfl
@[simp] theorem State.consumed_drawn (n : Nat) (s : State) : (s.consumed n).drawn = s.drawn := rfl
@[simp] theorem State.consumed_inbox (n : Nat) (s : State) : (s.consumed n).inbox = s.inbox := rfl
@[simp] theorem State.consumed_hostLoop (n : Nat) (s : State) : (s.consumed n).hostLoop = s.hostLoop := rfl
@[simp] theorem State.consumed_window (n : Nat) (s : State) : (s.consumed n).window = s.window := rfl
@[simp] theorem State.consumed_trace (n : Nat) (s : State) : (s.consumed n).trace = s.trace := rfl
@[simp] theorem State.consumed_answers (n : Nat) (s : State) : (s.consumed n).answers = s.answers := rfl

/-! ### State.delivered -/

@[simp] theorem State.delivered_st (n : Nat) (s : State) : (s.delivered n).st = { s.st with bytesDelivered := s.st.bytesDelivered + BitVec.ofNat 32 n } := rfl
@[simp] theorem State.delivered_params (n : Nat) (s : State) : (s.delivered n).params = s.params := rfl
@[simp] theorem State.delivered_ctl (n : Nat) (s : State) : (s.delivered n).ctl = s.ctl := rfl
@[simp] theorem State.delivered_env (n : Nat) (s : State) : (s.delivered n).env = s.env := rfl
@[simp] theorem State.delivered_drawn (n : Nat) (s : State) : (s.delivered n).drawn = s.drawn := rfl
@[simp] theorem State.delivered_inbox (n : Nat) (s : State) : (s.delivered n).inbox = s.inbox := rfl
@[simp] theorem State.delivered_hostLoop (n : Nat) (s : State) : (s.delivered n).hostLoop = s.hostLoop := rfl
@[simp] theorem State.delivered_window (n : Nat) (s : State) : (s.delivered n).window = s.window := rfl
@[simp] theorem State.delivered_trace (n : Nat) (s : State) : (s.delivered n).trace = s.trace := rfl
@[simp] theorem State.delivered_answers (n : Nat) (s : State) : (s.delivered n).answers = s.answers := rfl

/-! ### State.reported -/

@[simp] theorem State.reported_st (s : State) : s.reported.st = s.st := rfl
@[simp] theorem State.reported_params (s : State) : s.reported.params = s.params := rfl
@[simp] theorem State.reported_ctl (s : State) : s.reported.ctl = s.ctl.report s.choice.report := rfl
@[simp] theorem State.reported_env (s : State) : s.reported.env = s.env := rfl
@[simp] theorem State.reported_drawn (s : State) : s.reported.drawn = s.drawn := rfl
@[simp] theorem State.reported_inbox (s : State) : s.reported.inbox = s.inbox := rfl
@[simp] theorem State.reported_hostLoop (s : State) : s.reported.hostLoop = s.hostLoop := rfl
@[simp] theorem State.reported_window (s : State) : s.reported.window = s.window := rfl
@[simp] theorem State.reported_trace (s : State) : s.reported.trace = s.trace := rfl
@[simp] theorem State.reported_answers (s : State) : s.reported.answers = s.answers := rfl

/-! ### State.clearPerformed -/

@[simp] theorem State.clearPerformed_st (s : State) : s.clearPerformed.st = s.st := rfl
@[simp] theorem State.clearPerformed_params (s : State) : s.clearPerformed.params = s.params := rfl
@[simp] theorem State.clearPerformed_ctl (s : State) : s.clearPerformed.ctl = { s.ctl with cleared := true } := rfl
@[simp] theorem State.clearPerformed_env (s : State) : s.clearPerformed.env = s.env := rfl
@[simp] theorem State.clearPerformed_drawn (s : State) : s.clearPerformed.drawn = s.drawn := rfl
@[simp] theorem State.clearPerformed_inbox (s : State) : s.clearPerformed.inbox = s.inbox := rfl
@[simp] theorem State.clearPerformed_hostLoop (s : State) : s.clearPerformed.hostLoop = s.hostLoop := rfl
@[simp] theorem State.clearPerformed_window (s : State) : s.clearPerformed.window = s.window := rfl
@[simp] theorem State.clearPerformed_trace (s : State) : s.clearPerformed.trace = s.trace := rfl
@[simp] theorem State.clearPerformed_answers (s : State) : s.clearPerformed.answers = s.answers := rfl

/-! ### openSession -/

@[simp] theorem openSession_st (s : State) : (openSession s).st = { s.st with triggered := true, bytesDelivered := 0, srcOffset := 0 } := rfl
@[simp] theorem openSession_params (s : State) : (openSession s).params = s.params := rfl
@[simp] theorem openSession_ctl (s : State) : (openSession s).ctl = s.ctl := rfl
@[simp] theorem openSession_env (s : State) : (openSession s).env = s.env := rfl
@[simp] theorem openSession_drawn (s : State) : (openSession s).drawn = s.drawn := rfl
@[simp] theorem openSession_inbox (s : State) : (openSession s).inbox = s.inbox := rfl
@[simp] theorem openSession_hostLoop (s : State) : (openSession s).hostLoop = s.hostLoop := rfl
@[simp] theorem openSession_window (s : State) : (openSession s).window = s.window := rfl
@[simp] theorem openSession_trace (s : State) : (openSession s).trace = s.trace := rfl
@[simp] theorem openSession_answers (s : State) : (openSession s).answers = s.answers := rfl

/-! ### closeSession -/

@[simp] theorem closeSession_st (s : State) : (closeSession s).st = { s.st with triggered := false, bytesDelivered := 0 } := rfl
@[simp] theorem closeSession_params (s : State) : (closeSession s).params = s.params := rfl
@[simp] theorem closeSession_ctl (s : State) : (closeSession s).ctl = s.ctl := rfl
@[simp] theorem closeSession_env (s : State) : (closeSession s).env = s.env := rfl
@[simp] theorem closeSession_drawn (s : State) : (closeSession s).drawn = s.drawn := rfl
@[simp] theorem closeSession_inbox (s : State) : (closeSession s).inbox = s.inbox := rfl
@[simp] theorem closeSession_hostLoop (s : State) : (closeSession s).hostLoop = s.hostLoop := rfl
@[simp] theorem closeSession_window (s : State) : (closeSession s).window = s.window := rfl
@[simp] theorem closeSession_trace (s : State) : (closeSession s).trace = s.trace := rfl
@[simp] theorem closeSession_answers (s : State) : (closeSession s).answers = s.answers := rfl

/-! ### acceptCommand -/

@[simp] theorem acceptCommand_st (r : Request) (rest : List Input) (s : State) : (acceptCommand r rest s).st = s.st := rfl
@[simp] theorem acceptCommand_params (r : Request) (rest : List Input) (s : State) : (acceptCommand r rest s).params = s.params := rfl
@[simp] theorem acceptCommand_ctl (r : Request) (rest : List Input) (s : State) : (acceptCommand r rest s).ctl = s.ctl := rfl
@[simp] theorem acceptCommand_env (r : Request) (rest : List Input) (s : State) : (acceptCommand r rest s).env = s.env := rfl
@[simp] theorem acceptCommand_drawn (r : Request) (rest : List Input) (s : State) : (acceptCommand r rest s).drawn = s.drawn := rfl
@[simp] theorem acceptCommand_inbox (r : Request) (rest : List Input) (s : State) : (acceptCommand r rest s).inbox = rest := rfl
@[simp] theorem acceptCommand_hostLoop (r : Request) (rest : List Input) (s : State) : (acceptCommand r rest s).hostLoop = s.hostLoop := rfl
@[simp] theorem acceptCommand_window (r : Request) (rest : List Input) (s : State) : (acceptCommand r rest s).window = r.window := rfl
@[simp] theorem acceptCommand_trace (r : Request) (rest : List Input) (s : State) : (acceptCommand r rest s).trace = s.trace := rfl
@[simp] theorem acceptCommand_answers (r : Request) (rest : List Input) (s : State) : (acceptCommand r rest s).answers = s.answers := rfl

/-! ### takeInput -/

@[simp] theorem takeInput_st (rest : List Input) (s : State) : (takeInput rest s).st = s.st := rfl
@[simp] theorem takeInput_params (rest : List Input) (s : State) : (takeInput rest s).params = s.params := rfl
@[simp] theorem takeInput_ctl (rest : List Input) (s : State) : (takeInput rest s).ctl = s.ctl := rfl
@[simp] theorem takeInput_env (rest : List Input) (s : State) : (takeInput rest s).env = s.env := rfl
@[simp] theorem takeInput_drawn (rest : List Input) (s : State) : (takeInput rest s).drawn = s.drawn := rfl
@[simp] theorem takeInput_inbox (rest : List Input) (s : State) : (takeInput rest s).inbox = rest := rfl
@[simp] theorem takeInput_hostLoop (rest : List Input) (s : State) : (takeInput rest s).hostLoop = s.hostLoop := rfl
@[simp] theorem takeInput_window (rest : List Input) (s : State) : (takeInput rest s).window = s.window := rfl
@[simp] theorem takeInput_trace (rest : List Input) (s : State) : (takeInput rest s).trace = s.trace := rfl
@[simp] theorem takeInput_answers (rest : List Input) (s : State) : (takeInput rest s).answers = s.answers := rfl

/-! ### hostAgain -/

@[simp] theorem hostAgain_st (s : State) : (hostAgain s).st = s.st := rfl
@[simp] theorem hostAgain_params (s : State) : (hostAgain s).params = s.params := rfl
@[simp] theorem hostAgain_ctl (s : State) : (hostAgain s).ctl = s.ctl := rfl
@[simp] theorem hostAgain_env (s : State) : (hostAgain s).env = s.env := rfl
@[simp] theorem hostAgain_drawn (s : State) : (hostAgain s).drawn = s.drawn := rfl
@[simp] theorem hostAgain_inbox (s : State) : (hostAgain s).inbox = s.hostLoop := rfl
@[simp] theorem hostAgain_hostLoop (s : State) : (hostAgain s).hostLoop = s.hostLoop := rfl
@[simp] theorem hostAgain_window (s : State) : (hostAgain s).window = s.window := rfl
@[simp] theorem hostAgain_trace (s : State) : (hostAgain s).trace = s.trace := rfl
@[simp] theorem hostAgain_answers (s : State) : (hostAgain s).answers = s.answers := rfl

/-- With no loop the idle step leaves the state as it is (60_exceptions.md R132). -/
theorem hostAgain_of_no_loop {s : State} (h : s.inbox = []) (h' : s.hostLoop = []) : hostAgain s = s := by
  cases s
  simp_all [hostAgain]

/-! ### State.offer -/

@[simp] theorem State.offer_st (r : Request) (s : State) : (s.offer r).st = s.st := rfl
@[simp] theorem State.offer_params (r : Request) (s : State) : (s.offer r).params = s.params := rfl
@[simp] theorem State.offer_ctl (r : Request) (s : State) : (s.offer r).ctl = s.ctl := rfl
@[simp] theorem State.offer_env (r : Request) (s : State) : (s.offer r).env = s.env := rfl
@[simp] theorem State.offer_drawn (r : Request) (s : State) : (s.offer r).drawn = s.drawn := rfl
@[simp] theorem State.offer_inbox (r : Request) (s : State) : (s.offer r).inbox = .command r :: s.inbox := rfl
@[simp] theorem State.offer_hostLoop (r : Request) (s : State) : (s.offer r).hostLoop = s.hostLoop := rfl
@[simp] theorem State.offer_window (r : Request) (s : State) : (s.offer r).window = s.window := rfl
@[simp] theorem State.offer_trace (r : Request) (s : State) : (s.offer r).trace = s.trace := rfl
@[simp] theorem State.offer_answers (r : Request) (s : State) : (s.offer r).answers = s.answers := rfl

/-! ### State.doneUnsettled -/

@[simp] theorem State.doneUnsettled_st (s : State) : s.doneUnsettled.st = s.st := rfl
@[simp] theorem State.doneUnsettled_params (s : State) : s.doneUnsettled.params = s.params := rfl
@[simp] theorem State.doneUnsettled_ctl (s : State) : s.doneUnsettled.ctl = { s.ctl with cleared := false } := rfl
@[simp] theorem State.doneUnsettled_env (s : State) : s.doneUnsettled.env = s.env := rfl
@[simp] theorem State.doneUnsettled_drawn (s : State) : s.doneUnsettled.drawn = s.drawn := rfl
@[simp] theorem State.doneUnsettled_inbox (s : State) : s.doneUnsettled.inbox = s.inbox := rfl
@[simp] theorem State.doneUnsettled_hostLoop (s : State) : s.doneUnsettled.hostLoop = s.hostLoop := rfl
@[simp] theorem State.doneUnsettled_window (s : State) : s.doneUnsettled.window = s.window := rfl
@[simp] theorem State.doneUnsettled_trace (s : State) : s.doneUnsettled.trace = s.trace := rfl
@[simp] theorem State.doneUnsettled_answers (s : State) : s.doneUnsettled.answers = s.answers := rfl

/-! ### resetEvent -/

@[simp] theorem resetEvent_st (s : State) : (resetEvent s).st = Block.reset := rfl
@[simp] theorem resetEvent_params (s : State) : (resetEvent s).params = s.params := rfl
@[simp] theorem resetEvent_ctl (s : State) : (resetEvent s).ctl = { s.ctl with cleared := false } := rfl
@[simp] theorem resetEvent_env (s : State) : (resetEvent s).env = s.env := rfl
@[simp] theorem resetEvent_drawn (s : State) : (resetEvent s).drawn = s.drawn := rfl
@[simp] theorem resetEvent_inbox (s : State) : (resetEvent s).inbox = s.inbox := rfl
@[simp] theorem resetEvent_hostLoop (s : State) : (resetEvent s).hostLoop = s.hostLoop := rfl
@[simp] theorem resetEvent_window (s : State) : (resetEvent s).window = s.window := rfl
@[simp] theorem resetEvent_trace (s : State) : (resetEvent s).trace = [] := rfl
@[simp] theorem resetEvent_answers (s : State) : (resetEvent s).answers = [] := rfl

/-! ### The environment's choices under the updates -/

/-- The environment's choices depend on the script alone. -/
theorem State.choiceAt_congr {s t : State} (h : t.env = s.env) (k : Nat) : t.choiceAt k = s.choiceAt k := by
  simp only [State.choiceAt, h]

@[simp] theorem State.emit_choiceAt (e : BusEvent) (s : State) (k : Nat) : (s.emit e).choiceAt k = s.choiceAt k := rfl
@[simp] theorem State.transfer_choiceAt (s : State) (k : Nat) : s.transfer.choiceAt k = s.choiceAt k := rfl

/-! ### Select and deselect -/

theorem State.select_of_idle {s : State} (h : s.st.sel = false) :
    s.select = { s.emit .sel with st.sel := true } := by
  simp [State.select, h]

theorem State.deselect_of_selected {s : State} (h : s.st.sel = true) :
    s.deselect = { s.emit .desel with st.sel := false } := by
  simp [State.deselect, h]

/-- Deselecting leaves the bus deselected, whatever it was. -/
theorem State.deselect_sel (s : State) : s.deselect.st.sel = false := by
  unfold State.deselect
  split
  · rfl
  · simpa using ‹¬s.st.sel = true›

end Sys2Proof.Machine
end

