-- ==== Sys2Proof/Laws/Bus.lean ====
section
/-! SUPPORT. What the bus operations can do, said once: what they leave alone, that they keep the select discipline, and that they end in a failed transfer exactly where a choice of the environment is a failure. -/

namespace Sys2Proof.Machine

/-! ### The select discipline of a trace -/

theorem selectAfter_append (es fs : List BusEvent) :
    ∀ b, selectAfter b (es ++ fs) = (selectAfter b es).bind fun c => selectAfter c fs := by
  induction es with
  | nil => intro b; cases b <;> simp [selectAfter]
  | cons e es ih => intro b; cases b <;> cases e <;> simp [selectAfter, ih]

/-- Received bytes of a trace in two parts. -/
theorem receivedBytes_append (es fs : List BusEvent) :
    receivedBytes (es ++ fs) = receivedBytes es ++ receivedBytes fs := by
  induction es with
  | nil => rfl
  | cons e es ih => cases e <;> simp [receivedBytes, ih]

/-- A run of received bytes. -/
theorem receivedBytes_map_rx (bs : List Byte) : receivedBytes (bs.map .rx) = bs := by
  induction bs with
  | nil => rfl
  | cons b bs ih => simp [receivedBytes, ih]

/-! ### What a bus operation leaves alone -/

/-- From `s` to `t` only the bus and the controller moved: the select line, the bus trace (by events that
keep the discipline), the controller, and the count of environment choices. -/
structure BusMoves (s t : State) : Prop where
  params : t.params = s.params
  env : t.env = s.env
  inbox : t.inbox = s.inbox
  hostLoop : t.hostLoop = s.hostLoop
  window : t.window = s.window
  answers : t.answers = s.answers
  st : t.st = { s.st with sel := t.st.sel }
  drawn : s.drawn ≤ t.drawn
  cleared : s.ctl.cleared = true → t.ctl.cleared = true
  trace : ∃ es, t.trace = s.trace ++ es ∧ selectAfter s.st.sel es = some t.st.sel

theorem BusMoves.refl (s : State) : BusMoves s s :=
  ⟨rfl, rfl, rfl, rfl, rfl, rfl, rfl, le_rfl, id, [], by simp, by cases s.st.sel <;> rfl⟩

theorem BusMoves.trans {s t u : State} (h : BusMoves s t) (k : BusMoves t u) : BusMoves s u := by
  obtain ⟨es, hes, hsel⟩ := h.trace
  obtain ⟨fs, hfs, hsel'⟩ := k.trace
  refine ⟨k.params.trans h.params, k.env.trans h.env, k.inbox.trans h.inbox, k.hostLoop.trans h.hostLoop, k.window.trans h.window,
    k.answers.trans h.answers, ?_, h.drawn.trans k.drawn, fun c => k.cleared (h.cleared c), es ++ fs, by rw [hfs, hes, List.append_assoc], ?_⟩
  · rw [k.st, h.st]
  · rw [selectAfter_append, hsel]
    exact hsel'

/-- A move of the bus leaves the environment's choices as they are. -/
theorem BusMoves.choiceAt {s t : State} (h : BusMoves s t) (k : Nat) : t.choiceAt k = s.choiceAt k :=
  State.choiceAt_congr h.env k

/-- What a bus operation of at most `n` transfers does from `s`: it moves the bus only; when done every
choice it used is an acknowledgement; when not, the last choice it used, and only that, is not. `P` holds of
the result, and the select line is then `selected`. -/
def BusSpec {α : Type} (s : State) (n : Nat) (selected : Bool) (P : α → State → Prop) : Bus α → Prop
  | .done a t => BusMoves s t ∧ t.st.sel = selected ∧ P a t ∧ t.drawn ≤ s.drawn + n ∧
      ∀ k, s.drawn ≤ k → k < t.drawn → (s.choiceAt k).ack = true
  | .nack t => BusMoves s t ∧ t.st.sel = true ∧ s.drawn < t.drawn ∧ t.drawn ≤ s.drawn + n ∧
      (s.choiceAt (t.drawn - 1)).ack = false ∧
      ∀ k, s.drawn ≤ k → k < t.drawn - 1 → (s.choiceAt k).ack = true

theorem BusSpec.mono {α : Type} {s : State} {n : Nat} {b : Bool} {P Q : α → State → Prop} {r : Bus α}
    (h : BusSpec s n b P r) (hpq : ∀ a t, BusMoves s t → P a t → Q a t) : BusSpec s n b Q r := by
  cases r with
  | done a t => exact ⟨h.1, h.2.1, hpq a t h.1 h.2.2.1, h.2.2.2⟩
  | nack t => exact h

/-- A larger bound on the transfers. -/
theorem BusSpec.weaken {α : Type} {s : State} {n m : Nat} {b : Bool} {P : α → State → Prop} {r : Bus α}
    (h : BusSpec s n b P r) (hnm : n ≤ m) : BusSpec s m b P r := by
  cases r with
  | done a t => exact ⟨h.1, h.2.1, h.2.2.1, by have := h.2.2.2.1; omega, h.2.2.2.2⟩
  | nack t => exact ⟨h.1, h.2.1, h.2.2.1, by have := h.2.2.2.1; omega, h.2.2.2.2⟩

theorem BusSpec.bind {α β : Type} {s : State} {n m : Nat} {b c : Bool} {P : α → State → Prop}
    {Q : β → State → Prop} {r : Bus α} {k : α → State → Bus β} (h : BusSpec s n b P r)
    (hk : ∀ a t, BusMoves s t → t.st.sel = b → P a t → BusSpec t m c Q (k a t)) :
    BusSpec s (n + m) c Q (r.bind k) := by
  cases r with
  | nack t => exact BusSpec.weaken (r := .nack t) h (by omega)
  | done a t =>
    obtain ⟨hm, hsel, hp, hn, hack⟩ := h
    have hk := hk a t hm hsel hp
    simp only [Bus.bind]
    revert hk
    cases k a t with
    | done a' u =>
      rintro ⟨hm', hsel', hq, hn', hack'⟩
      refine ⟨hm.trans hm', hsel', hq, by omega, fun j hj hj' => ?_⟩
      by_cases hjt : j < t.drawn
      · exact hack j hj hjt
      · rw [← hm.choiceAt]; exact hack' j (by omega) hj'
    | nack u =>
      rintro ⟨hm', hsel', hlt, hn', hlast, hack'⟩
      have := hm.drawn
      refine ⟨hm.trans hm', hsel', by omega, by omega, by rw [← hm.choiceAt]; exact hlast, fun j hj hj' => ?_⟩
      by_cases hjt : j < t.drawn
      · exact hack j hj hjt
      · rw [← hm.choiceAt]; exact hack' j (by omega) hj'

/-- Where the transfers an operation may use are all acknowledged, it is done. -/
theorem BusSpec.done_of_acked {α : Type} {s : State} {n : Nat} {b : Bool} {P : α → State → Prop} {r : Bus α}
    (h : BusSpec s n b P r) (hack : s.acked n) :
    ∃ a t, r = .done a t ∧ BusMoves s t ∧ t.st.sel = b ∧ P a t := by
  cases r with
  | done a t => exact ⟨a, t, rfl, h.1, h.2.1, h.2.2.1⟩
  | nack t =>
    obtain ⟨-, -, hlt, hn, hlast, -⟩ := h
    have := hack (t.drawn - 1 - s.drawn) (by omega)
    rw [show s.drawn + (t.drawn - 1 - s.drawn) = t.drawn - 1 by omega, hlast] at this
    cases this

/-- The environment's side of a transfer moves the bus only. -/
theorem transfer_moves (s : State) : BusMoves s s.transfer :=
  ⟨rfl, rfl, rfl, rfl, rfl, rfl, rfl, Nat.le_succ _, fun c => by simpa using c, [], by simp, by cases h : s.st.sel <;> simp [h, selectAfter]⟩

/-- A transfer event within a select window moves the bus only. -/
theorem emit_moves {s : State} {e : BusEvent} (h : selectAfter s.st.sel [e] = some s.st.sel) :
    BusMoves s (s.emit e) :=
  ⟨rfl, rfl, rfl, rfl, rfl, rfl, rfl, le_rfl, id, [e], rfl, h⟩

/-- The controller may change under a bus operation. -/
theorem BusMoves.withCtl {s t : State} (h : BusMoves s t) {c : Controller}
    (hc : t.ctl.cleared = true → c.cleared = true) : BusMoves s { t with ctl := c } :=
  ⟨h.params, h.env, h.inbox, h.hostLoop, h.window, h.answers, h.st, h.drawn, fun k => hc (h.cleared k), h.trace⟩

theorem select_moves {s : State} (h : s.st.sel = false) : BusMoves s s.select ∧ s.select.st.sel = true := by
  rw [State.select_of_idle h]
  refine ⟨⟨rfl, rfl, rfl, rfl, rfl, rfl, ?_, le_rfl, id, [.sel], rfl, ?_⟩, rfl⟩
  · simp
  · simp [h, selectAfter]

theorem deselect_moves {s : State} (h : s.st.sel = true) : BusMoves s s.deselect ∧ s.deselect.st.sel = false := by
  rw [State.deselect_of_selected h]
  refine ⟨⟨rfl, rfl, rfl, rfl, rfl, rfl, ?_, le_rfl, id, [.desel], rfl, ?_⟩, rfl⟩
  · simp
  · simp [h, selectAfter]

/-! ### The transfers -/

theorem range_one {k d : Nat} (h : d ≤ k) (h' : k < d + 1) : k = d := by omega

theorem txByte_spec (b : Byte) {s : State} (h : s.st.sel = true) :
    BusSpec s 1 true (fun _ t => t = s.transfer.emit (.tx b)) (txByte b s) := by
  unfold txByte
  split
  · rename_i hack
    refine ⟨(transfer_moves s).trans (emit_moves (by simp [h, selectAfter])), h, rfl, le_rfl, fun k hk hk' => ?_⟩
    rw [range_one hk (by simpa using hk')]; exact hack
  · rename_i hack
    refine ⟨transfer_moves s, h, Nat.lt_succ_self _, le_rfl, eq_false_of_ne_true hack, fun k hk hk' => ?_⟩
    simp only [State.transfer_drawn] at hk'; omega

theorem rxRegister_spec (a : RegAddr) {s : State} (h : s.st.sel = true) :
    BusSpec s 1 true (fun v t => v = s.transfer.ctl.windowByte s.params a s.choice ∧
      t = { s.transfer.emit (.rx v) with ctl := s.transfer.ctl.windowNext s.params a s.choice }) (rxRegister a s) := by
  unfold rxRegister
  split
  · rename_i hack
    refine ⟨((transfer_moves s).trans (emit_moves (by simp [h, selectAfter]))).withCtl (by simp), h, ⟨rfl, rfl⟩, le_rfl, fun k hk hk' => ?_⟩
    rw [range_one hk (by simpa using hk')]; exact hack
  · rename_i hack
    refine ⟨transfer_moves s, h, Nat.lt_succ_self _, le_rfl, eq_false_of_ne_true hack, fun k hk hk' => ?_⟩
    simp only [State.transfer_drawn] at hk'; omega

theorem rxFifo_spec {s : State} (h : s.st.sel = true) :
    BusSpec s 1 true (fun b t => b = s.transfer.ctl.fifoByte s.choice.draw ∧
      t = { s.transfer.emit (.rx b) with ctl := s.transfer.ctl.fifoNext }) (rxFifo s) := by
  unfold rxFifo
  split
  · rename_i hack
    refine ⟨((transfer_moves s).trans (emit_moves (by simp [h, selectAfter]))).withCtl (by simp), h, ⟨rfl, rfl⟩, le_rfl,
      fun k hk hk' => ?_⟩
    rw [range_one hk (by simpa using hk')]; exact hack
  · rename_i hack
    refine ⟨transfer_moves s, h, Nat.lt_succ_self _, le_rfl, eq_false_of_ne_true hack, fun k hk hk' => ?_⟩
    simp only [State.transfer_drawn] at hk'; omega

theorem txData_spec (a : RegAddr) (v : Byte) {s : State} (h : s.st.sel = true) :
    BusSpec s 1 true (fun _ t => t = (s.transfer.emit (.tx v)).controllerWrite a v) (txData a v s) := by
  unfold txData
  split
  · rename_i hack
    refine ⟨((transfer_moves s).trans (emit_moves (by simp [h, selectAfter]))).withCtl (by simp), h, rfl, le_rfl, fun k hk hk' => ?_⟩
    rw [range_one hk (by simpa using hk')]; exact hack
  · rename_i hack
    split
    · refine ⟨(transfer_moves s).withCtl (by simp), h, Nat.lt_succ_self _, le_rfl, eq_false_of_ne_true hack, fun k hk hk' => ?_⟩
      simp only [State.controllerWrite_drawn, State.transfer_drawn] at hk'; omega
    · refine ⟨transfer_moves s, h, Nat.lt_succ_self _, le_rfl, eq_false_of_ne_true hack, fun k hk hk' => ?_⟩
      simp only [State.transfer_drawn] at hk'; omega

theorem closeWindow_spec {α : Type} (a : α) {s : State} (h : s.st.sel = true) :
    BusSpec s 0 false (fun a' t => a' = a ∧ t = s.deselect) (closeWindow a s) :=
  ⟨(deselect_moves h).1, (deselect_moves h).2, ⟨rfl, rfl⟩, by rw [State.deselect_of_selected h]; simp, fun k hk hk' => by
    rw [State.deselect_of_selected h] at hk'; simp at hk'; omega⟩

/-- An operation after a move that makes no transfer. -/
theorem BusSpec.afterMove {α : Type} {s u : State} {n : Nat} {b : Bool} {P : α → State → Prop} {r : Bus α}
    (hm : BusMoves s u) (hd : u.drawn = s.drawn) (hr : BusSpec u n b P r) : BusSpec s n b P r := by
  cases r with
  | done a t =>
    obtain ⟨hm', hsel, hp, hn, hack⟩ := hr
    exact ⟨hm.trans hm', hsel, hp, by omega, fun k hk hk' => by rw [← hm.choiceAt]; exact hack k (by omega) hk'⟩
  | nack t =>
    obtain ⟨hm', hsel, hlt, hn, hlast, hack⟩ := hr
    exact ⟨hm.trans hm', hsel, by omega, by omega, by rw [← hm.choiceAt]; exact hlast,
      fun k hk hk' => by rw [← hm.choiceAt]; exact hack k (by omega) hk'⟩

/-- Opening the select window before an operation. -/
theorem BusSpec.afterSelect {α : Type} {s : State} {n : Nat} {b : Bool} {P : α → State → Prop} {r : Bus α}
    (h : s.st.sel = false) (hr : BusSpec s.select n b P r) : BusSpec s n b P r :=
  hr.afterMove (select_moves h).1 (by rw [State.select_of_idle h]; rfl)

/-! ### The primitives -/

/-- All that `RdReg` can do (20_memory.md R44). -/
theorem rdReg_spec (a : RegAddr) {s : State} (h : s.st.sel = false) :
    BusSpec s 2 false (fun v t => v = s.byteRead a ∧ t = s.afterRead a) (rdReg a s) := by
  have two : BusSpec s.select 2 true (fun v t => v = s.byteRead a ∧
      t = { (s.select.transfer.emit (.tx (readCommand a))).transfer.emit (.rx v) with
        ctl := (s.ctlAfter 2).windowNext s.params a (s.choiceAt (s.drawn + 1)) })
      ((txByte (readCommand a) s.select).bind fun _ => rxRegister a) := by
    refine (txByte_spec _ (select_moves h).2).bind fun _ t _ ht hp => (rxRegister_spec a ht).mono ?_
    rintro v u _ ⟨rfl, rfl⟩
    subst hp
    rw [State.select_of_idle h]
    exact ⟨rfl, rfl⟩
  refine BusSpec.afterSelect h (two.bind fun v t _ ht hp => (closeWindow_spec v ht).mono ?_)
  rintro v' u _ ⟨rfl, rfl⟩
  obtain ⟨rfl, rfl⟩ := hp
  refine ⟨rfl, ?_⟩
  rw [State.deselect_of_selected ht, State.select_of_idle h]
  obtain ⟨⟨tr, bd, so, ha, se⟩, _, _, _, _, _, _, _, _, _⟩ := s
  obtain rfl : se = false := h
  simp [State.afterRead, State.emit, State.transfer, readCommand_eq]

/-- The state after an acknowledged `WrReg` (20_memory.md R45, R52). -/
def writeDone (a : RegAddr) (v : Byte) (s : State) : State :=
  { s with
    ctl := (s.ctlAfter 2).windowWrite s.params a v
    drawn := s.drawn + 2
    trace := s.trace ++ [.sel, .tx (writeCommand a), .tx v, .desel] }

/-- All that `WrReg` can do (20_memory.md R45). -/
theorem wrReg_spec (a : RegAddr) (v : Byte) {s : State} (h : s.st.sel = false) :
    BusSpec s 2 false (fun _ t => t = writeDone a v s) (wrReg a v s) := by
  have two : BusSpec s.select 2 true (fun _ t =>
      t = ((s.select.transfer.emit (.tx (writeCommand a))).transfer.emit (.tx v)).controllerWrite a v)
      ((txByte (writeCommand a) s.select).bind fun _ => txData a v) := by
    refine (txByte_spec _ (select_moves h).2).bind fun _ t _ ht hp => (txData_spec a v ht).mono ?_
    rintro _ u _ rfl
    subst hp
    rw [State.select_of_idle h]
  refine BusSpec.afterSelect h (two.bind fun _ t _ ht hp => (closeWindow_spec () ht).mono ?_)
  rintro _ u _ ⟨-, rfl⟩
  subst hp
  rw [State.deselect_of_selected ht, State.select_of_idle h]
  obtain ⟨⟨tr, bd, so, ha, se⟩, _, _, _, _, _, _, _, _, _⟩ := s
  obtain rfl : se = false := h
  simp [writeDone, State.emit, State.transfer, State.choice, State.choiceAt, State.controllerWrite,
    State.ctlAfter]

/-- A completed capture stays as it is under a transfer that does not consume it (20_memory.md R52,
41_capture_control.md R95). -/
theorem Controller.move_of_complete {c : Controller} {frame : List Byte} {pos : Nat} {len : BitVec 23}
    (h : c.fifo = .complete frame pos len) (m : ControllerMove) : c.move m = c := by
  cases m <;> simp [Controller.move, h]

/-- The bytes a completed capture serves from a position on, to transfers that draw `ds`: those of the frame,
and the draws past its end (20_memory.md R50, 93_implementation_defined.md U3). -/
def servedBytes (frame : List Byte) : Nat → List Byte → List Byte
  | _, [] => []
  | pos, d :: ds => frame[pos]?.getD d :: servedBytes frame (pos + 1) ds

theorem servedBytes_append (frame ds es : List Byte) : ∀ pos,
    servedBytes frame pos (ds ++ es) = servedBytes frame pos ds ++ servedBytes frame (pos + ds.length) es := by
  induction ds with
  | nil => intro pos; rfl
  | cons d ds ih =>
    intro pos
    simp only [List.cons_append, servedBytes, ih, List.length_cons]
    rw [Nat.add_right_comm, Nat.add_assoc]

theorem servedBytes_getElem (frame ds : List Byte) : ∀ pos i,
    (servedBytes frame pos ds)[i]? = ds[i]?.map fun d => frame[pos + i]?.getD d := by
  induction ds with
  | nil => intro pos i; rfl
  | cons d ds ih =>
    intro pos i
    cases i with
    | zero => rfl
    | succ i => simp only [servedBytes, List.getElem?_cons_succ, ih, Nat.add_assoc, Nat.add_comm 1 i]

/-- From `s` to `t` the bytes `bs` came from the FIFO, in transfers that draw `ds`: those of a completed
capture, the read position advanced past them (20_memory.md R50), and the draws where there is none and none
completes meanwhile (20_memory.md R53, 93_implementation_defined.md U4). -/
structure FifoServes (s t : State) (bs ds : List Byte) : Prop where
  length : bs.length = ds.length
  complete : ∀ {frame pos len}, s.ctl.fifo = .complete frame pos len →
    t.ctl = { s.ctl with fifo := .complete frame (pos + bs.length) len } ∧ bs = servedBytes frame pos ds
  quiet : (∀ frame pos len, s.ctl.fifo ≠ .complete frame pos len) →
    (∀ k, s.drawn ≤ k → k < t.drawn → (s.choiceAt k).move = .nothing) → t.ctl = s.ctl ∧ bs = ds

/-- An operation that receives nothing from the FIFO. -/
theorem FifoServes.none {s t : State}
    (h : ∀ frame pos len, s.ctl.fifo = .complete frame pos len → t.ctl = s.ctl)
    (h' : (∀ k, s.drawn ≤ k → k < t.drawn → (s.choiceAt k).move = .nothing) → t.ctl = s.ctl) :
    FifoServes s t [] [] := by
  refine ⟨rfl, fun {frame pos len} hc => ⟨?_, rfl⟩, fun _ hq => ⟨h' hq, rfl⟩⟩
  rw [h frame pos len hc, List.length_nil, Nat.add_zero, ← hc]

/-- A transfer that receives nothing from the FIFO. -/
theorem FifoServes.ofMove {s t : State} (h : t.ctl = s.ctl.move (s.choiceAt s.drawn).move)
    (hd : s.drawn < t.drawn) : FifoServes s t [] [] :=
  FifoServes.none (fun _ _ _ hc => h.trans (Controller.move_of_complete hc _))
    fun hq => by rw [h, hq s.drawn le_rfl hd, Controller.move_nothing]

theorem FifoServes.trans {s t u : State} {bs cs ds es : List Byte} (h : FifoServes s t bs ds)
    (k : FifoServes t u cs es) (hm : BusMoves s t) (hd : t.drawn ≤ u.drawn) :
    FifoServes s u (bs ++ cs) (ds ++ es) := by
  refine ⟨by rw [List.length_append, List.length_append, h.length, k.length], fun {frame pos len} hc => ?_,
    fun hn hq => ?_⟩
  · obtain ⟨ht, hb⟩ := h.complete hc
    obtain ⟨hu, hb'⟩ := k.complete (frame := frame) (pos := pos + bs.length) (len := len) (by rw [ht])
    refine ⟨by rw [hu, ht, List.length_append, Nat.add_assoc], ?_⟩
    rw [servedBytes_append, ← h.length, ← hb, ← hb']
  · have := hm.drawn
    obtain ⟨ht, hb⟩ := h.quiet hn fun j hj hj' => hq j hj (by omega)
    obtain ⟨hu, hb'⟩ := k.quiet (by rw [ht]; exact hn) fun j hj hj' => by
      rw [hm.choiceAt]; exact hq j (by omega) hj'
    exact ⟨hu.trans ht, by rw [hb, hb']⟩

/-- Where the FIFO has all the bytes, exactly its next ones come. -/
theorem FifoServes.exact {s t : State} {bs ds : List Byte} (h : FifoServes s t bs ds) {frame : List Byte}
    {pos : Nat} {len : BitVec 23} (hc : s.ctl.fifo = .complete frame pos len)
    (hn : pos + bs.length ≤ frame.length) : bs = (frame.drop pos).take bs.length := by
  have hb := (h.complete hc).2
  apply List.ext_getElem?
  intro i
  rw [List.getElem?_take, List.getElem?_drop]
  split
  · rename_i hi
    rw [hb, servedBytes_getElem, List.getElem?_eq_getElem (show i < ds.length by rw [← h.length]; exact hi),
      List.getElem?_eq_getElem (show pos + i < frame.length by omega)]
    rfl
  · exact List.getElem?_eq_none (by omega)

theorem rxFifo_serves {s t : State} {b : Byte} (hb : b = s.transfer.ctl.fifoByte s.choice.draw)
    (ht : t = { s.transfer.emit (.rx b) with ctl := s.transfer.ctl.fifoNext }) :
    FifoServes s t [b] [s.choice.draw] := by
  have hd : t.drawn = s.drawn + 1 := by rw [ht]; rfl
  refine ⟨rfl, fun {frame pos len} hc => ?_, fun hn hq => ?_⟩
  · have hx : s.transfer.ctl = s.ctl := Controller.move_of_complete hc _
    rw [hx] at ht hb
    refine ⟨by rw [ht]; simp [Controller.fifoNext, hc], ?_⟩
    cases hf : frame[pos]? <;> simp [hb, Controller.fifoByte, hc, servedBytes, hf]
  · have hx : s.transfer.ctl = s.ctl := by
      rw [State.transfer_ctl, State.choice, hq s.drawn le_rfl (by omega), Controller.move_nothing]
    rw [hx] at ht hb
    cases hf : s.ctl.fifo with
    | complete frame pos len => exact absurd hf (hn frame pos len)
    | unknown => simp [ht, hb, Controller.fifoNext, Controller.fifoByte, hf]
    | capturing => simp [ht, hb, Controller.fifoNext, Controller.fifoByte, hf]

/-- The draws are the environment's. -/
theorem State.draws_congr {s t : State} (h : t.env = s.env) (n : Nat) : ∀ k, t.draws k n = s.draws k n := by
  induction n with
  | zero => intro k; rfl
  | succ n ih => intro k; rw [State.draws, State.draws, ih, State.choiceAt_congr h]

theorem State.draws_length (s : State) (n : Nat) : ∀ k, (s.draws k n).length = n := by
  induction n with
  | zero => intro k; rfl
  | succ n ih => intro k; simp [State.draws, ih]

/-- All that the receiving part of a burst can do: `n` bytes come, in order. -/
theorem rxFifoBytes_spec (n : Nat) : ∀ {s : State}, s.st.sel = true →
    BusSpec s n true (fun bs t => bs.length = n ∧ t.trace = s.trace ++ bs.map .rx ∧ t.drawn = s.drawn + n ∧
      FifoServes s t bs (s.draws s.drawn n)) (rxFifoBytes n s) := by
  induction n with
  | zero =>
    intro s h
    exact ⟨BusMoves.refl s, h, ⟨rfl, by simp, rfl, FifoServes.none (fun _ _ _ _ => rfl) fun _ => rfl⟩,
      Nat.le_add_right _ _, fun k hk hk' => absurd hk' (by omega)⟩
  | succ n ih =>
    intro s h
    refine BusSpec.weaken ((rxFifo_spec h).bind fun b t hm ht hp => (ih ht).bind (b := true) (m := 0)
      fun bs u hm' hu hq => ?_) (by omega)
    have hone := rxFifo_serves hp.1 hp.2
    obtain ⟨hl, htr, hd, hf⟩ := hq
    have hdt : t.drawn = s.drawn + 1 := by rw [hp.2]; rfl
    refine ⟨BusMoves.refl u, hu, ⟨by simp [hl], ?_, by omega, ?_⟩, le_rfl, fun k hk hk' => absurd hk' (by omega)⟩
    · rw [htr, hp.2]; simp
    · rw [State.draws_congr hm.env, hdt] at hf
      exact hone.trans hf hm hm'.drawn

/-- All that `Burst(n)` can do (20_memory.md R46): one select window, one command byte, `n` bytes. -/
theorem burstRead_spec (n : Nat) {s : State} (h : s.st.sel = false) :
    BusSpec s (n + 1) false (fun bs t => bs.length = n ∧
      t.trace = s.trace ++ ([.sel, .tx s.params.burstCmd] ++ bs.map .rx ++ [.desel]) ∧
      t.drawn = s.drawn + (n + 1) ∧ FifoServes s t bs (s.draws (s.drawn + 1) n)) (burstRead n s) := by
  refine BusSpec.afterSelect h (BusSpec.weaken (((txByte_spec _ (select_moves h).2).bind (c := true)
    (Q := fun bs t => bs.length = n ∧ t.trace = s.trace ++ ([.sel, .tx s.params.burstCmd] ++ bs.map .rx) ∧
      t.drawn = s.drawn + (n + 1) ∧ FifoServes s t bs (s.draws (s.drawn + 1) n))
      fun _ t hm ht hp => (rxFifoBytes_spec n ht).mono ?_).bind
    fun bs t _ ht hp => (closeWindow_spec bs ht).mono ?_) (by omega))
  · rintro bs u hm' ⟨hl, htr, hd, hf⟩
    have hdt : t.drawn = s.drawn + 1 := by rw [hp, State.select_of_idle h]; rfl
    refine ⟨hl, ?_, by omega, ?_⟩
    · rw [htr, hp, State.select_of_idle h]; simp
    · rw [State.draws_congr (hm.env.trans (select_moves h).1.env), hdt] at hf
      refine FifoServes.trans (FifoServes.ofMove ?_ (by omega)) hf ((select_moves h).1.trans hm) (by omega)
      rw [hp, State.select_of_idle h]
      rfl
  · rintro bs' u _ ⟨rfl, rfl⟩
    obtain ⟨hl, htr, hd, hf⟩ := hp
    rw [State.deselect_of_selected ht]
    exact ⟨hl, by simp [htr], by simp [hd], hf.length, hf.complete, hf.quiet⟩

/-- The chunk of one round is part of what is wanted, and at least one byte. -/
theorem chunkOf_le (c : BurstChunk) (m : Nat) : chunkOf c m ≤ m := by
  cases c with
  | unlimited => exact le_rfl
  | atMost c _ => exact min_le_left m c

theorem chunkOf_pos (c : BurstChunk) {m : Nat} (h : m ≠ 0) : 0 < chunkOf c m := by
  cases c with
  | unlimited => exact Nat.pos_of_ne_zero h
  | atMost c hc => exact lt_min (Nat.pos_of_ne_zero h) hc

/-- The bytes of the bursts of `RawRead(m)`, window by window: each window holds as many as the chunk rule
gives for what is still wanted (42_burst_stream.md R102). -/
def Chunked (c : BurstChunk) : Nat → List (List Byte) → Prop
  | m, [] => m = 0
  | m, bs :: rest => m ≠ 0 ∧ bs.length = chunkOf c m ∧ Chunked c (m - chunkOf c m) rest

/-- The sizes of the bursts, one round at a time: the chunk of the round, then those of what is still wanted. -/
theorem specChunks_cons (c : BurstChunk) {m : Nat} (h : m ≠ 0) :
    specChunks c m = chunkOf c m :: specChunks c (m - chunkOf c m) := by
  cases c with
  | unlimited => simp [specChunks, chunkOf, h]
  | atMost c hc =>
    rcases Nat.lt_or_ge m c with hlt | hge
    · simp [specChunks, chunkOf, h, hlt.le, Nat.div_eq_of_lt hlt, Nat.mod_eq_of_lt hlt]
    · simp only [specChunks, chunkOf, Nat.min_eq_right hge, Nat.div_eq_sub_div hc hge, Nat.mod_eq_sub_mod hge,
        List.replicate_succ, List.cons_append]

theorem specChunks_zero (c : BurstChunk) : specChunks c 0 = [] := by cases c <;> simp [specChunks]

/-- The chunk rule round by round is the list of the bursts' sizes. -/
theorem Chunked.lengths {c : BurstChunk} {chunks : List (List Byte)} :
    ∀ {m : Nat}, Chunked c m chunks → chunks.map List.length = specChunks c m := by
  induction chunks with
  | nil => intro m h; rw [show m = 0 from h, specChunks_zero]; rfl
  | cons bs rest ih =>
    rintro m ⟨h0, hl, hr⟩
    rw [specChunks_cons c h0, List.map_cons, hl, ih hr]

theorem receivedBytes_burstEvents (cmd : Byte) (chunks : List (List Byte)) :
    receivedBytes (burstEvents cmd chunks) = chunks.flatten := by
  induction chunks with
  | nil => rfl
  | cons bs rest ih => simp [burstEvents, receivedBytes_append, receivedBytes_map_rx, receivedBytes, ih]

/-- `ds` are the draws of the transfers that receive the bytes of a `RawRead`. -/
def RawDraws (s : State) (ds : List Byte) : Prop :=
  ∀ i, i < ds.length → ds[i]? = some (s.choiceAt (s.drawn + rawTransfer s.params.burstChunk i)).draw

/-- What an acknowledged `RawRead(m)` leaves: `m` bytes, received window by window, from the FIFO. -/
def RawServes (m : Nat) (s : State) (bs : List Byte) (t : State) : Prop :=
  bs.length = m ∧
    (∃ chunks, t.trace = s.trace ++ burstEvents s.params.burstCmd chunks ∧ chunks.flatten = bs ∧
      Chunked s.params.burstChunk m chunks ∧ t.drawn = s.drawn + m + chunks.length) ∧
    ∃ ds, RawDraws s ds ∧ FifoServes s t bs ds

/-- A window that is not the last one of a `RawRead` has the chunk's size, and the draws of the later windows
are numbered after it. -/
theorem RawDraws.append {s t : State} {m : Nat} {ds : List Byte} (hm : BusMoves s t)
    (hd : t.drawn = s.drawn + (chunkOf s.params.burstChunk m + 1)) (hds : RawDraws t ds)
    (hl : ds.length ≤ m - chunkOf s.params.burstChunk m) :
    RawDraws s (s.draws (s.drawn + 1) (chunkOf s.params.burstChunk m) ++ ds) := by
  intro i hi
  rw [List.length_append, State.draws_length] at hi
  by_cases hlt : i < chunkOf s.params.burstChunk m
  · rw [List.getElem?_append_left (by rwa [State.draws_length]), State.draws_getElem _ _ _ _ hlt]
    congr 3
    cases hc : s.params.burstChunk with
    | unlimited => simp only [rawTransfer]; omega
    | atMost c _ =>
      rw [hc] at hlt
      have : i < c := lt_of_lt_of_le hlt (min_le_right m c)
      simp only [rawTransfer, Nat.div_eq_of_lt this]; omega
  · rw [List.getElem?_append_right (by rw [State.draws_length]; omega), State.draws_length, hds _ (by omega),
      hm.choiceAt, hm.params, hd]
    congr 3
    cases hc : s.params.burstChunk with
    | unlimited => rw [hc] at hl hlt hi; simp only [chunkOf] at *; omega
    | atMost c hpos =>
      rw [hc] at hl hlt hi
      have hcm : min m c = c := by simp only [chunkOf] at *; omega
      simp only [chunkOf, rawTransfer, hcm] at *
      rw [Nat.div_eq_sub_div hpos (by omega : c ≤ i)]
      omega

/-- All that the loop of `RawRead` can do: the wanted bytes come, in order, in windows of the chunk size, with one
transfer for each byte and one for each window (42_burst_stream.md R102). -/
theorem rawReadLoop_spec (rounds : Nat) : ∀ (m : Nat) {s : State}, m ≤ rounds → s.st.sel = false →
    BusSpec s (m + (specChunks s.params.burstChunk m).length) false (RawServes m s) (rawReadLoop rounds m s) := by
  have nothing : ∀ {s : State}, s.st.sel = false → BusSpec s 0 false (RawServes 0 s) (.done [] s) := fun {s} h =>
    ⟨BusMoves.refl s, h, ⟨rfl, ⟨[], by simp [burstEvents], rfl, rfl, rfl⟩, [], fun i hi => absurd hi (by simp),
      FifoServes.none (fun _ _ _ _ => rfl) fun _ => rfl⟩, Nat.le_add_right _ _, fun k hk hk' => absurd hk' (by omega)⟩
  induction rounds with
  | zero =>
    intro m s hm h
    obtain rfl : m = 0 := by omega
    exact (nothing h).weaken (Nat.zero_le _)
  | succ rounds ih =>
    intro m s hm h
    unfold rawReadLoop
    split
    · rename_i h0
      subst h0
      exact (nothing h).weaken (Nat.zero_le _)
    · rename_i h0
      have hle := chunkOf_le s.params.burstChunk m
      have hpos := chunkOf_pos s.params.burstChunk h0
      rw [specChunks_cons s.params.burstChunk h0]
      refine BusSpec.weaken ((burstRead_spec _ h).bind fun bs t hm' ht hp => hm'.params ▸ (ih _ (by omega) ht).bind
        (b := false) (m := 0) fun rest u hm'' hu hq => ?_) (by rw [List.length_cons]; omega)
      obtain ⟨hl, htr, hd, hf⟩ := hp
      obtain ⟨hl', ⟨chunks, htr', hflat, hch, hd'⟩, ds, hds, hf'⟩ := hq
      rw [hm'.params] at htr' hch
      refine ⟨BusMoves.refl u, hu, ⟨by simp [hl, hl']; omega,
        ⟨bs :: chunks, ?_, by simp [hflat], ⟨h0, hl, hch⟩, by simp [hd', hd]; omega⟩, _,
        hds.append hm' hd (by rw [← hf'.length]; omega), hf.trans hf' hm' hm''.drawn⟩, le_rfl,
        fun k hk hk' => absurd hk' (by omega)⟩
      rw [htr', htr, List.append_assoc]
      rfl

/-- All that `RawRead(m)` can do (42_burst_stream.md R102). -/
theorem rawRead_spec (m : Nat) {s : State} (h : s.st.sel = false) :
    BusSpec s (m + (specChunks s.params.burstChunk m).length) false (RawServes m s) (rawRead m s) :=
  rawReadLoop_spec m m le_rfl h

/-! ### The operations of TRIG and FLEN -/

/-- All that the two writes of `TRIG` can do (41_capture_control.md R93). -/
theorem triggerWrites_spec {s : State} (h : s.st.sel = false) :
    BusSpec s 4 false (fun _ t => t = writeDone s.params.regStart s.params.valStart
      (writeDone s.params.regClr s.params.valClr s).clearPerformed) (triggerWrites s) := by
  refine (wrReg_spec _ _ h).bind fun _ u _ hu hp => (BusSpec.afterMove (u := u.clearPerformed)
    ((BusMoves.refl u).withCtl fun _ => rfl) rfl (wrReg_spec _ _ hu)).mono ?_
  rintro _ x _ rfl
  rw [hp]
  rfl

/-- What an acknowledged `FLEN` reads (41_capture_control.md R95). -/
def lengthRead (s : State) : BitVec 24 :=
  assembleLength (s.byteRead s.params.regLenLo) ((s.afterRead s.params.regLenLo).byteRead s.params.regLenMid)
    (((s.afterRead s.params.regLenLo).afterRead s.params.regLenMid).byteRead s.params.regLenHi)

/-- All that the three reads of `FLEN` can do (41_capture_control.md R95). -/
theorem readLength_spec {s : State} (h : s.st.sel = false) :
    BusSpec s 6 false (fun len t => len = lengthRead s.reported ∧
      t = ((s.reported.afterRead s.params.regLenLo).afterRead s.params.regLenMid).afterRead s.params.regLenHi)
      (readLength s) := by
  have hr : BusSpec s.reported 6 false (fun len t => len = lengthRead s.reported ∧
      t = ((s.reported.afterRead s.params.regLenLo).afterRead s.params.regLenMid).afterRead s.params.regLenHi)
      (readLength s) := by
    refine (rdReg_spec (s := s.reported) _ h).bind (m := 4) fun lo u hmu hu hp => (rdReg_spec _ hu).bind (m := 2)
      fun mid x hmx hx hq => (rdReg_spec _ hx).bind (m := 0) (c := false) fun hi y _ hy hr => ?_
    obtain ⟨rfl, rfl⟩ := hp
    obtain ⟨rfl, rfl⟩ := hq
    obtain ⟨rfl, rfl⟩ := hr
    exact ⟨BusMoves.refl _, hy, ⟨rfl, rfl⟩, le_rfl, fun k hk hk' => absurd hk' (by omega)⟩
  exact BusSpec.afterMove (u := s.reported) ((BusMoves.refl s).withCtl (by simp)) rfl hr

/-! ### The done bit and the clear write of `TRIG`

No bus primitive changes whether the done bit read is the controller's flag: that is left to `TRIG` and to `Reset`
(93_implementation_defined.md U13). -/

/-- The state at the end of a bus operation, done or not. -/
def Bus.final {α : Type} : Bus α → State
  | .done _ t => t
  | .nack t => t

/-- At the end of the operation the done bit is settled, or not, as `c` says. -/
def Bus.Settled {α : Type} (c : Bool) (r : Bus α) : Prop := r.final.ctl.cleared = c

theorem Bus.Settled.bind {α β : Type} {c : Bool} {r : Bus α} {k : α → State → Bus β} (h : r.Settled c)
    (hk : ∀ a t, t.ctl.cleared = c → (k a t).Settled c) : (r.bind k).Settled c := by
  cases r with
  | done a t => exact hk a t h
  | nack t => exact h

/-- A command that settles such an operation, and does not touch the controller afterwards. -/
theorem Bus.Settled.settle {α : Type} {c : Bool} {r : Bus α} {onNack : State → State} {k : α → State → State}
    (h : r.Settled c) (hn : ∀ t, (onNack t).ctl = t.ctl) (hk : ∀ a t, (k a t).ctl = t.ctl) :
    (r.settle onNack k).ctl.cleared = c := by
  cases r with
  | done a t => exact (congrArg Controller.cleared (hk a t)).trans h
  | nack t => exact (congrArg Controller.cleared (hn t)).trans h

@[simp] theorem State.select_ctl (s : State) : s.select.ctl = s.ctl := by
  unfold State.select
  split <;> rfl

@[simp] theorem State.deselect_ctl (s : State) : s.deselect.ctl = s.ctl := by
  unfold State.deselect
  split <;> rfl

theorem closeWindow_settled {α : Type} {c : Bool} (a : α) (t : State) (h : t.ctl.cleared = c) :
    (closeWindow a t).Settled c := by
  simpa [closeWindow, Bus.Settled, Bus.final] using h

theorem txByte_settled {c : Bool} (b : Byte) {s : State} (h : s.ctl.cleared = c) : (txByte b s).Settled c := by
  unfold txByte
  split <;> simpa [Bus.Settled, Bus.final] using h

theorem rxRegister_settled {c : Bool} (a : RegAddr) {s : State} (h : s.ctl.cleared = c) :
    (rxRegister a s).Settled c := by
  unfold rxRegister
  split <;> simpa [Bus.Settled, Bus.final] using h

theorem rxFifo_settled {c : Bool} {s : State} (h : s.ctl.cleared = c) : (rxFifo s).Settled c := by
  unfold rxFifo
  split <;> simpa [Bus.Settled, Bus.final] using h

theorem txData_settled {c : Bool} (a : RegAddr) (v : Byte) {s : State} (h : s.ctl.cleared = c) :
    (txData a v s).Settled c := by
  unfold txData
  repeat' split
  all_goals simpa [Bus.Settled, Bus.final] using h

theorem rdReg_settled {c : Bool} (a : RegAddr) {s : State} (h : s.ctl.cleared = c) : (rdReg a s).Settled c :=
  ((txByte_settled _ (by simpa using h)).bind fun _ _ => rxRegister_settled a).bind closeWindow_settled

theorem wrReg_settled {c : Bool} (a : RegAddr) (v : Byte) {s : State} (h : s.ctl.cleared = c) :
    (wrReg a v s).Settled c :=
  ((txByte_settled _ (by simpa using h)).bind fun _ _ => txData_settled a v).bind closeWindow_settled

theorem rxFifoBytes_settled {c : Bool} (n : Nat) : ∀ {s : State}, s.ctl.cleared = c → (rxFifoBytes n s).Settled c := by
  induction n with
  | zero => exact id
  | succ n ih => exact fun h => (rxFifo_settled h).bind fun _ _ ht => (ih ht).bind fun _ _ hu => hu

theorem burstRead_settled {c : Bool} (n : Nat) {s : State} (h : s.ctl.cleared = c) : (burstRead n s).Settled c :=
  ((txByte_settled _ (by simpa using h)).bind fun _ _ => rxFifoBytes_settled n).bind closeWindow_settled

theorem rawReadLoop_settled {c : Bool} (rounds : Nat) :
    ∀ (m : Nat) {s : State}, s.ctl.cleared = c → (rawReadLoop rounds m s).Settled c := by
  induction rounds with
  | zero => exact fun _ _ h => h
  | succ rounds ih =>
    intro m s h
    unfold rawReadLoop
    split
    · exact h
    · exact (burstRead_settled _ h).bind fun _ _ ht => (ih _ ht).bind fun _ _ hu => hu

theorem readLength_settled {c : Bool} {s : State} (h : s.ctl.cleared = c) : (readLength s).Settled c :=
  (rdReg_settled _ (by simpa using h)).bind fun _ _ ht => (rdReg_settled _ ht).bind fun _ _ hu =>
    (rdReg_settled _ hu).bind fun _ _ hx => hx

/-! ### The bus fault -/

@[simp] theorem takeBusFault_ctl (ws : List (Nat × Byte)) (s : State) : (takeBusFault ws s).ctl = s.ctl := by
  simp [takeBusFault]

@[simp] theorem busFault_ctl (s : State) : (busFault s).ctl = s.ctl := takeBusFault_ctl [] s

@[simp] theorem busFaultWindow_ctl (n : Nat) (s : State) : (busFaultWindow n s).ctl = s.ctl := by
  simp [busFaultWindow]

/-- Taking the bus fault after a failed transfer (60_exceptions.md R124). -/
theorem takeBusFault_of_selected {s : State} (ws : List (Nat × Byte)) (h : s.st.sel = true) :
    takeBusFault ws s = { s with
      st := { s.st with halted := true, sel := false }
      trace := s.trace ++ [.desel]
      answers := s.answers ++ [{ response := plainResponse .busFault, writes := ws }] } := by
  simp [takeBusFault, State.deselect_of_selected h, State.respond, State.emit]

theorem offsetsFrom_length (bs : List Byte) : ∀ off, (offsetsFrom off bs).length = bs.length := by
  induction bs with
  | nil => intro off; rfl
  | cons b bs ih => intro off; simp [offsetsFrom, ih]

/-- The bytes of the window writes of a command. -/
theorem offsetsFrom_snd (bs : List Byte) : ∀ off, (offsetsFrom off bs).map Prod.snd = bs := by
  induction bs with
  | nil => intro off; rfl
  | cons b bs ih => intro off; simp [offsetsFrom, ih]

end Sys2Proof.Machine
end

