-- ==== Sys2Proof/Laws/Exec.lean ====
section
/-! SUPPORT. What a command can do, said once: it answers without using the bus, or it uses the bus and completes, or a transfer fails and the bus fault is taken. -/

namespace Sys2Proof.Machine

/-- How many window bytes a command is to write: `n` of `BURST` and of `FILL` (42_burst_stream.md R101, R105). -/
def windowCount (s : State) : Instr → Nat
  | .conv _ => 0
  | .rdreg _ => 0
  | .wrreg _ _ => 0
  | .trig => 0
  | .poll => 0
  | .flen => 0
  | .burst n => n.toNat
  | .fill w => fillCount w s.st.bytesDelivered

/-- The record of the block after a command that completed on the bus, from its record before. -/
def completedBlock (i : Instr) (n : Nat) (b : Block) : Block :=
  match i with
  | .conv _ => b
  | .rdreg _ => b
  | .wrreg _ _ => b
  | .trig => { b with triggered := true, bytesDelivered := 0, srcOffset := 0 }
  | .poll => b
  | .flen => b
  | .burst _ => { b with srcOffset := b.srcOffset + BitVec.ofNat 32 n }
  | .fill _ =>
    if b.bytesDelivered + BitVec.ofNat 32 n = 76800#32 then
      { b with triggered := false, bytesDelivered := 0, srcOffset := b.srcOffset + BitVec.ofNat 32 (2 * n) }
    else
      { b with
        bytesDelivered := b.bytesDelivered + BitVec.ofNat 32 n
        srcOffset := b.srcOffset + BitVec.ofNat 32 (2 * n) }

/-- The response of a command that completed on the bus has status `OK`, `LAST` exactly for a `FILL` at the
end of the frame, and `DONE` only for a `POLL`. -/
def CompletedResponse (i : Instr) (n : Nat) (b : Block) (r : Response) : Prop :=
  r.status = .ok ∧ (r.done = true → i = .poll) ∧
    (r.last = true ↔ (∃ w, i = .fill w) ∧ b.bytesDelivered + BitVec.ofNat 32 n = 76800#32)

/-- A command completed on the bus: `u` is the state after its last transfer, `bs` the bytes it wrote. -/
structure CompletedBy (i : Instr) (s t : State) (u : State) (bs : List Byte) (r : Response) : Prop where
  moves : BusMoves s u
  idle : u.st.sel = false
  acks : ∀ k, s.drawn ≤ k → k < u.drawn → (s.choiceAt k).ack = true
  count : bs.length = windowCount s i
  response : CompletedResponse i bs.length s.st r
  refusals : (i = .trig → s.st.triggered = false) ∧ ((∃ w, i = .fill w) → s.st.triggered = true)
  result : t = { u with
    st := completedBlock i bs.length u.st
    window := s.window.fill bs
    answers := s.answers ++ [{ response := r, writes := offsetsFrom 0 bs }] }

/-- A transfer of a command failed: `u` is the state at the failed transfer, `bs` the drawn bytes. -/
structure FaultedBy (i : Instr) (s t : State) (u : State) (bs : List Byte) : Prop where
  moves : BusMoves s u
  selected : u.st.sel = true
  used : s.drawn < u.drawn
  failed : (s.choiceAt (u.drawn - 1)).ack = false
  acks : ∀ k, s.drawn ≤ k → k < u.drawn - 1 → (s.choiceAt k).ack = true
  drawn : bs = u.draws u.drawn (windowCount s i)
  result : t = { u with
    st := { u.st with halted := true, sel := false }
    drawn := u.drawn + windowCount s i
    window := s.window.fill bs
    trace := u.trace ++ [.desel]
    answers := s.answers ++ [{ response := plainResponse .busFault, writes := offsetsFrom 0 bs }] }

/-- The response of a command that did not use the bus. -/
def QuietResponse (i : Instr) (s : State) (r : Response) : Prop :=
  (r.status ≠ .ok → r = plainResponse r.status) ∧ r.done = false ∧
    (r.last = true → (∃ w, i = .fill w) ∧ s.st.bytesDelivered.toNat = 76800) ∧ r.status ≠ .busFault ∧
      r.status ≠ .halted

/-- All that a command can do from a state with the bus deselected and the block not halted. `quiet`: no
bus event, no window byte; only a `FILL` at the frame's end, which the session invariant rules out, changes
the block. -/
inductive Ended (i : Instr) (s t : State) : Prop where
  | quiet (r : Response) (response : QuietResponse i s r)
      (result : t = (if r.last then closeSession s else s).respond r [])
  | completed (u : State) (bs : List Byte) (r : Response) (by_ : CompletedBy i s t u bs r)
  | faulted (u : State) (bs : List Byte) (by_ : FaultedBy i s t u bs)

@[simp] theorem Window.fill_nil (w : Window) : w.fill [] = w := rfl

theorem pairSamples_length (n : Nat) : ∀ raw : List Byte, raw.length = 2 * n → (pairSamples raw).length = n := by
  induction n with
  | zero => intro raw h; obtain rfl := List.eq_nil_of_length_eq_zero (by simpa using h); rfl
  | succ n ih =>
    intro raw h
    match raw, h with
    | [], h => simp at h
    | [_], h => simp at h; omega
    | _ :: _ :: rest, h => simp [pairSamples, ih rest (by simp at h; omega)]

theorem lumaBytes_length {n : Nat} {raw : List Byte} (h : raw.length = 2 * n) : (lumaBytes raw).length = n := by
  simp [lumaBytes, pairSamples_length n raw h]

/-- A command that writes no window byte and settles a bus operation. -/
theorem ended_of_settle {α : Type} {i : Instr} {s t : State} {n : Nat} {P : α → State → Prop} {op : Bus α}
    {k : α → State → State} (h : BusSpec s n false P op) (hc : windowCount s i = 0)
    (href : (i = .trig → s.st.triggered = false) ∧ ((∃ w, i = .fill w) → s.st.triggered = true))
    (hk : ∀ a u, BusMoves s u → P a u → ∃ r, CompletedResponse i 0 s.st r ∧
      k a u = { u with
        st := completedBlock i 0 u.st
        answers := s.answers ++ [{ response := r, writes := [] }] })
    (ht : op.settle busFault k = t) : Ended i s t := by
  cases op with
  | done a u =>
    obtain ⟨hm, hsel, hp, -, hack⟩ := h
    obtain ⟨r, hr, hres⟩ := hk a u hm hp
    refine .completed u [] r ⟨hm, hsel, hack, by simp [hc], by simpa using hr, href, ?_⟩
    rw [← ht]
    simp [Bus.settle, hres, offsetsFrom, hm.window]
  | nack u =>
    obtain ⟨hm, hsel, hlt, -, hf, hack⟩ := h
    refine .faulted u [] ⟨hm, hsel, hlt, hf, hack, by rw [hc]; rfl, ?_⟩
    rw [← ht]
    simp [Bus.settle, busFault, takeBusFault_of_selected _ hsel, hc, offsetsFrom, hm.window, hm.answers]

/-- A command that settles a bus operation with window bytes. -/
theorem ended_of_settle_window {α : Type} {i : Instr} {s t : State} {n m : Nat} {P : α → State → Prop}
    {op : Bus α} {k : α → State → State} (h : BusSpec s m false P op) (hc : windowCount s i = n)
    (href : (i = .trig → s.st.triggered = false) ∧ ((∃ w, i = .fill w) → s.st.triggered = true))
    (hk : ∀ a u, BusMoves s u → P a u → ∃ bs r, bs.length = n ∧ CompletedResponse i n s.st r ∧
      k a u = { u with
        st := completedBlock i n u.st
        window := s.window.fill bs
        answers := s.answers ++ [{ response := r, writes := offsetsFrom 0 bs }] })
    (ht : op.settle (busFaultWindow n) k = t) : Ended i s t := by
  cases op with
  | done a u =>
    obtain ⟨hm, hsel, hp, -, hack⟩ := h
    obtain ⟨bs, r, hbs, hr, hres⟩ := hk a u hm hp
    refine .completed u bs r ⟨hm, hsel, hack, by rw [hbs, hc], by rw [hbs]; exact hr, href, ?_⟩
    rw [← ht, hbs]
    simp [Bus.settle, hres]
  | nack u =>
    obtain ⟨hm, hsel, hlt, -, hf, hack⟩ := h
    refine .faulted u (u.draws u.drawn n) ⟨hm, hsel, hlt, hf, hack, by rw [hc], ?_⟩
    rw [← ht, hc]
    simp only [Bus.settle, busFaultWindow]
    rw [takeBusFault_of_selected _ (by simpa using hsel)]
    simp [State.fillWindow, hm.window, hm.answers]

/-- The common entry of a command that is not halted. -/
theorem unlessHalted_of_running {s : State} (k : State → State) (h : s.st.halted = false) :
    unlessHalted k s = k s := by
  simp [unlessHalted, h]

theorem fillCount_le (w : Count) (d : BitVec 32) : fillCount w d ≤ w.toNat := min_le_left _ _

/-- A plain `OK` completes any command but a `FILL`. -/
theorem okResponse_completed {i : Instr} {b : Block} (hi : ∀ w, i ≠ .fill w) (n : Nat) (payload : BitVec 24) :
    CompletedResponse i n b (okResponse payload) :=
  ⟨rfl, fun h => absurd h (by simp [okResponse]), fun h => absurd h (by simp [okResponse]),
    fun h => absurd h.1.choose_spec (hi _)⟩

/-- A plain `OK` without the bus. -/
theorem okResponse_quiet (i : Instr) (s : State) (payload : BitVec 24) : QuietResponse i s (okResponse payload) :=
  ⟨fun h => absurd rfl h, rfl, fun h => absurd h (by simp [okResponse]), by simp [okResponse], by simp [okResponse]⟩

/-- A refusal. -/
theorem plainResponse_quiet (i : Instr) (s : State) {status : Status} (h : status ≠ .busFault)
    (h' : status ≠ .halted) : QuietResponse i s (plainResponse status) :=
  ⟨fun _ => rfl, rfl, fun h => absurd h (by simp [plainResponse]), h, h'⟩

/-- The end of a `FILL` that received its bytes, as one update (42_burst_stream.md R104, R106). -/
theorem endFill_eq (w : Count) {s u : State} (n : Nat) (ys : List Byte) (hm : BusMoves s u) :
    ∃ r, CompletedResponse (.fill w) n s.st r ∧
      endFill n ys (((u.fillWindow ys).consumed (2 * n)).delivered n) = { u with
        st := completedBlock (.fill w) n u.st
        window := s.window.fill ys
        answers := s.answers ++ [{ response := r, writes := offsetsFrom 0 ys }] } := by
  have hb : u.st.bytesDelivered = s.st.bytesDelivered := by rw [hm.st]
  have hend : atFrameEnd (((u.fillWindow ys).consumed (2 * n)).delivered n) = true ↔
      s.st.bytesDelivered + BitVec.ofNat 32 n = 76800#32 := by
    simp only [atFrameEnd, decide_eq_true_eq, ← hb, ← BitVec.toNat_inj]
    rfl
  unfold endFill
  split
  · rename_i h
    have he := hend.1 h
    exact ⟨fillResponse true n, ⟨rfl, by simp [fillResponse], by simp [fillResponse, he]⟩, by
      simp [State.consumed, State.fillWindow, State.delivered, closeSession, State.respond, completedBlock,
        hm.answers, hm.window, hb, he]⟩
  · rename_i h
    have he : ¬s.st.bytesDelivered + BitVec.ofNat 32 n = 76800#32 := fun e => h (hend.2 e)
    exact ⟨fillResponse false n, ⟨rfl, by simp [fillResponse], by simp [fillResponse, he]⟩, by
      simp [State.consumed, State.fillWindow, State.delivered, State.respond, completedBlock, hm.answers,
        hm.window, hb, he]⟩

/-- All that a `FILL` can do in an open session with a window large enough. -/
theorem fillInto_ended (w : Count) {s : State} (hsel : s.st.sel = false) (htr : s.st.triggered = true) :
    Ended (.fill w) s (fillInto (fillCount w s.st.bytesDelivered) s) := by
  unfold fillInto
  split
  · unfold endFill
    split
    · rename_i _ hend
      exact .quiet (fillResponse true 0) ⟨fun h => absurd rfl h, rfl,
        fun _ => ⟨⟨w, rfl⟩, by simpa [atFrameEnd] using hend⟩,
        by simp [fillResponse], by simp [fillResponse]⟩ rfl
    · exact .quiet (fillResponse false 0) ⟨fun h => absurd rfl h, rfl,
        fun h => absurd h (by simp [fillResponse]), by simp [fillResponse], by simp [fillResponse]⟩ rfl
  · refine ended_of_settle_window (rawRead_spec _ hsel) rfl (by simpa using htr) (fun raw u hm hp => ?_) rfl
    obtain ⟨r, hr, he⟩ := endFill_eq w (fillCount w s.st.bytesDelivered) (lumaBytes raw) hm
    exact ⟨lumaBytes raw, r, lumaBytes_length hp.1, hr, he⟩

/-- All that a `BURST` can do with a window large enough. -/
theorem burstInto_ended (n : Count) {s : State} (hsel : s.st.sel = false) :
    Ended (.burst n) s (burstInto n.toNat s) := by
  unfold burstInto
  split
  · exact .quiet _ (okResponse_quiet _ _ _) rfl
  · refine ended_of_settle_window (burstRead_spec n.toNat hsel) rfl (by simp) (fun bs u hm hp => ?_) rfl
    refine ⟨bs, okResponse (BitVec.ofNat 24 n.toNat), hp.1, okResponse_completed (by simp) _ _, ?_⟩
    rw [← hm.answers, ← hm.window]
    rfl

/-- All that a command can do (see `Ended`). -/
theorem exec_ended {i : Instr} {s t : State} (hsel : s.st.sel = false) (hrun : s.st.halted = false)
    (h : exec i s = .next t) : Ended i s t := by
  cases i with
  | conv v =>
    simp only [exec, execConv, unlessHalted_of_running _ hrun, Host.Outcome.next.injEq] at h
    exact .quiet _ (okResponse_quiet _ _ _) h.symm
  | rdreg a =>
    simp only [exec, execRdreg, unlessHalted_of_running _ hrun, Host.Outcome.next.injEq] at h
    exact ended_of_settle (rdReg_spec a hsel) rfl (by simp) (fun v u hm _ =>
      ⟨okResponse _, okResponse_completed (by simp) _ _, by rw [← hm.answers]; rfl⟩) h
  | wrreg a v =>
    simp only [exec, execWrreg, unlessHalted_of_running _ hrun, Host.Outcome.next.injEq] at h
    exact ended_of_settle (wrReg_spec a v hsel) rfl (by simp) (fun _ u hm _ =>
      ⟨okResponse _, okResponse_completed (by simp) _ _, by rw [← hm.answers]; rfl⟩) h
  | trig =>
    simp only [exec, execTrig, unlessHalted_of_running _ hrun, Host.Outcome.next.injEq] at h
    split at h
    · exact .quiet _ (plainResponse_quiet _ _ (by simp) (by simp)) h.symm
    · rename_i htr
      exact ended_of_settle (triggerWrites_spec hsel) rfl (by simpa using htr) (fun _ u hm _ =>
        ⟨okResponse _, okResponse_completed (by simp) _ _, by rw [← hm.answers]; rfl⟩) h
  | poll =>
    simp only [exec, execPoll, unlessHalted_of_running _ hrun, Host.Outcome.next.injEq] at h
    exact ended_of_settle (rdReg_spec _ hsel) rfl (by simp) (fun v u hm _ =>
      ⟨pollResponse u.params v, ⟨rfl, fun _ => rfl, by simp [pollResponse]⟩, by rw [← hm.answers]; rfl⟩) h
  | flen =>
    simp only [exec, execFlen, unlessHalted_of_running _ hrun, Host.Outcome.next.injEq] at h
    exact ended_of_settle (readLength_spec hsel) rfl (by simp) (fun len u hm _ =>
      ⟨okResponse _, okResponse_completed (by simp) _ _, by rw [← hm.answers]; rfl⟩) h
  | burst n =>
    simp only [exec, execBurst, hrun, Bool.false_eq_true, if_false] at h
    split at h
    · rw [← Host.Outcome.next.inj h]
      exact burstInto_ended n hsel
    · cases h
  | fill w =>
    simp only [exec, execFill, hrun, Bool.false_eq_true, if_false] at h
    split at h
    · exact .quiet _ (plainResponse_quiet _ _ (by simp) (by simp)) (Host.Outcome.next.inj h).symm
    · rename_i htr
      split at h
      · rw [← Host.Outcome.next.inj h]
        exact fillInto_ended w hsel (by simpa using htr)
      · cases h

/-- A halted block: every command is answered `HALTED` (60_exceptions.md R125). -/
theorem exec_of_halted (i : Instr) {s : State} (h : s.st.halted = true) :
    exec i s = .next (s.respond (plainResponse .halted) []) := by
  cases i <;> simp [exec, execConv, execRdreg, execWrreg, execTrig, execPoll, execFlen, execBurst, execFill,
    unlessHalted, h]

@[simp] theorem endFill_ctl (n : Nat) (ys : List Byte) (s : State) : (endFill n ys s).ctl = s.ctl := by
  unfold endFill
  split <;> rfl

/-- No command but `TRIG` changes whether the done bit read is the controller's flag
(93_implementation_defined.md U13). -/
theorem exec_cleared {i : Instr} {s t : State} (hi : i ≠ .trig) (h : exec i s = .next t) :
    t.ctl.cleared = s.ctl.cleared := by
  rcases hh : s.st.halted with _ | _
  swap
  · rw [exec_of_halted i hh] at h
    rw [← Host.Outcome.next.inj h, State.respond_ctl]
  cases i with
  | trig => exact absurd rfl hi
  | conv v =>
    simp only [exec, execConv, unlessHalted_of_running _ hh, Host.Outcome.next.injEq] at h
    rw [← h, State.respond_ctl]
  | rdreg a =>
    simp only [exec, execRdreg, unlessHalted_of_running _ hh, Host.Outcome.next.injEq] at h
    exact h ▸ (rdReg_settled a rfl).settle busFault_ctl fun _ _ => rfl
  | wrreg a v =>
    simp only [exec, execWrreg, unlessHalted_of_running _ hh, Host.Outcome.next.injEq] at h
    exact h ▸ (wrReg_settled a v rfl).settle busFault_ctl fun _ _ => rfl
  | poll =>
    simp only [exec, execPoll, unlessHalted_of_running _ hh, Host.Outcome.next.injEq] at h
    exact h ▸ (rdReg_settled _ rfl).settle busFault_ctl fun _ _ => rfl
  | flen =>
    simp only [exec, execFlen, unlessHalted_of_running _ hh, Host.Outcome.next.injEq] at h
    exact h ▸ (readLength_settled rfl).settle busFault_ctl fun _ _ => rfl
  | burst n =>
    simp only [exec, execBurst, hh, Bool.false_eq_true, if_false] at h
    split at h
    · rw [← Host.Outcome.next.inj h]
      unfold burstInto
      split
      · rfl
      · exact (burstRead_settled _ rfl).settle (busFaultWindow_ctl _) fun _ _ => rfl
    · cases h
  | fill w =>
    simp only [exec, execFill, hh, Bool.false_eq_true, if_false] at h
    split at h
    · rw [← Host.Outcome.next.inj h, State.respond_ctl]
    · split at h
      · rw [← Host.Outcome.next.inj h]
        unfold fillInto
        split
        · rw [endFill_ctl]
        · exact (rawReadLoop_settled _ _ rfl).settle (busFaultWindow_ctl _) fun _ _ => endFill_ctl _ _ _
      · cases h

/-- An illegal command word is answered, and nothing else happens (60_exceptions.md R126, R128). -/
theorem illegalCommand_eq (s : State) : ∃ r, r.status ≠ .ok ∧ r = plainResponse r.status ∧
    illegalCommand s = s.respond r [] := by
  unfold illegalCommand unlessHalted
  split
  · exact ⟨plainResponse .halted, by simp [plainResponse], rfl, rfl⟩
  · exact ⟨plainResponse .illegal, by simp [plainResponse], rfl, rfl⟩

/-- All that a step can do: the idle step, a reset, a command, or an illegal word. -/
theorem step_cases {s t : State} (h : step s = .next t) :
    (s.inbox = [] ∧ t = hostAgain s) ∨
    (∃ rest, s.inbox = .reset :: rest ∧ t = resetEvent (takeInput rest s)) ∨
    (∃ r rest, s.inbox = .command r :: rest ∧
      ((∃ i, decode r.word = .ok i ∧ exec i (acceptCommand r rest s) = .next t) ∨
        t = illegalCommand (acceptCommand r rest s))) := by
  unfold step at h
  split at h
  · rename_i hi
    exact .inl ⟨hi, (Host.Outcome.next.inj h).symm⟩
  · rename_i rest hi
    exact .inr (.inl ⟨rest, hi, (Host.Outcome.next.inj h).symm⟩)
  · rename_i r rest hi
    split at h
    · rename_i i hd
      exact .inr (.inr ⟨r, rest, hi, .inl ⟨i, hd, h⟩⟩)
    · exact .inr (.inr ⟨r, rest, hi, .inr (Host.Outcome.next.inj h).symm⟩)

/-- All that a command can do to the window: bytes from offset 0 on, no more than its count. -/
theorem exec_window {i : Instr} {s t : State} (hsel : s.st.sel = false) (h : exec i s = .next t) :
    ∃ bs : List Byte, bs.length ≤ windowCount s i ∧ t.window = s.window.fill bs := by
  rcases hh : s.st.halted with _ | _
  · rcases exec_ended hsel hh h with ⟨r, _, ht⟩ | ⟨u, bs, r, c⟩ | ⟨u, bs, c⟩
    · refine ⟨[], by simp, ?_⟩
      rw [ht]
      split <;> rfl
    · exact ⟨bs, c.count.le, by rw [c.result]⟩
    · exact ⟨bs, by rw [c.drawn, State.draws_length], by rw [c.result]⟩
  · rw [exec_of_halted _ hh] at h
    obtain rfl := Host.Outcome.next.inj h
    exact ⟨[], by simp, rfl⟩

end Sys2Proof.Machine
end

