-- ==== Sys2Proof/Laws/Fault.lean ====
section
/-! SUPPORT. What the bus operations have done when a transfer fails: the events, the FIFO bytes and the controller effects of the transfers before it, which a bus fault does not undo (60_exceptions.md R124). -/

namespace Sys2Proof.Machine

/-! ### Operations that may fail at one of several transfers -/

/-- Where the operation ends in a failed transfer, `Q` holds of the state at it. -/
def Bus.Stops {α : Type} (Q : State → Prop) : Bus α → Prop
  | .done _ _ => True
  | .nack u => Q u

theorem Bus.Stops.mono {α : Type} {P Q : State → Prop} {r : Bus α} (h : r.Stops P) (hpq : ∀ u, P u → Q u) :
    r.Stops Q := by
  cases r with
  | done a t => trivial
  | nack u => exact hpq u h

theorem Bus.Stops.bind {α β : Type} {Q : State → Prop} {r : Bus α} {k : α → State → Bus β} (h : r.Stops Q)
    (hk : ∀ a t, r = .done a t → (k a t).Stops Q) : (r.bind k).Stops Q := by
  cases r with
  | done a t => exact hk a t rfl
  | nack u => exact h

/-- What is known of an operation that was done. -/
theorem BusSpec.of_done {α : Type} {s : State} {n : Nat} {b : Bool} {P : α → State → Prop} {r : Bus α} {a : α}
    {t : State} (h : BusSpec s n b P r) (hr : r = .done a t) : BusMoves s t ∧ t.st.sel = b ∧ P a t := by
  subst hr
  exact ⟨h.1, h.2.1, h.2.2.1⟩

/-- Where a transfer fails and those before it are acknowledged, an operation that would go on beyond it stops
there. -/
theorem BusSpec.nack_at {α : Type} {s : State} {n : Nat} {b : Bool} {P : α → State → Prop} {r : Bus α}
    (h : BusSpec s n b P r) {j : Nat} (hack : s.acked j) (hf : (s.choiceAt (s.drawn + j)).ack = false)
    (hd : ∀ a t, P a t → s.drawn + j < t.drawn) :
    ∃ u, r = .nack u ∧ BusMoves s u ∧ u.st.sel = true ∧ u.drawn = s.drawn + j + 1 := by
  cases r with
  | done a t =>
    have := h.2.2.2.2 (s.drawn + j) (by omega) (hd a t h.2.2.1)
    rw [hf] at this
    cases this
  | nack u =>
    obtain ⟨hm, hsel, hlt, -, hlast, hacks⟩ := h
    refine ⟨u, rfl, hm, hsel, ?_⟩
    rcases Nat.lt_trichotomy (u.drawn - 1) (s.drawn + j) with hl | he | hg
    · have := hack (u.drawn - 1 - s.drawn) (by omega)
      rw [show s.drawn + (u.drawn - 1 - s.drawn) = u.drawn - 1 by omega, hlast] at this
      cases this
    · omega
    · have := hacks (s.drawn + j) (by omega) hg
      rw [hf] at this
      cases this

/-! ### One register access -/

/-- The state at a transfer that failed, with `n` choices used, `es` emitted and the controller `c`. -/
def State.stopped (s : State) (n : Nat) (es : List BusEvent) (c : Controller) : State :=
  { s with
    st := { s.st with sel := true }
    ctl := c
    drawn := s.drawn + n
    trace := s.trace ++ es }

theorem txByte_of_ack (b : Byte) {s : State} (h : s.choice.ack = true) :
    txByte b s = .done () (s.transfer.emit (.tx b)) := by
  simp [txByte, h]

theorem txByte_of_nack (b : Byte) {s : State} (h : s.choice.ack = false) : txByte b s = .nack s.transfer := by
  simp [txByte, h]

/-- The choice for the command byte of a register access. -/
theorem State.select_choice {s : State} (h : s.st.sel = false) : s.select.choice = s.choiceAt s.drawn := by
  rw [State.select_of_idle h]
  rfl

/-- The choice for the data byte of a register access. -/
theorem State.command_choice (b : Byte) {s : State} (h : s.st.sel = false) :
    (s.select.transfer.emit (.tx b)).choice = s.choiceAt (s.drawn + 1) := by
  rw [State.select_of_idle h]
  rfl

/-- The state at a failed command byte. -/
theorem State.select_stopped {s : State} (h : s.st.sel = false) :
    s.select.transfer = s.stopped 1 [.sel] (s.ctlAfter 1) := by
  rw [State.select_of_idle h]
  rfl

/-- The state at a failed data byte. -/
theorem State.command_stopped (b : Byte) {s : State} (h : s.st.sel = false) :
    (s.select.transfer.emit (.tx b)).transfer = s.stopped 2 [.sel, .tx b] (s.ctlAfter 2) := by
  rw [State.select_of_idle h]
  simp [State.stopped, State.transfer, State.emit, State.choice, State.choiceAt, State.ctlAfter]

/-- `RdReg` whose command byte is not acknowledged (20_memory.md R44, R54). -/
theorem rdReg_nack_command (a : RegAddr) {s : State} (h : s.st.sel = false)
    (hf : (s.choiceAt s.drawn).ack = false) : rdReg a s = .nack (s.stopped 1 [.sel] (s.ctlAfter 1)) := by
  rw [rdReg, txByte_of_nack _ (by rw [State.select_choice h, hf]), State.select_stopped h]
  rfl

/-- `RdReg` whose data byte is not acknowledged (20_memory.md R44, R54). -/
theorem rdReg_nack_data (a : RegAddr) {s : State} (h : s.st.sel = false) (hack : (s.choiceAt s.drawn).ack = true)
    (hf : (s.choiceAt (s.drawn + 1)).ack = false) :
    rdReg a s = .nack (s.stopped 2 [.sel, .tx (BitVec.ofNat 8 a.toNat)] (s.ctlAfter 2)) := by
  rw [rdReg, txByte_of_ack _ (by rw [State.select_choice h, hack])]
  simp [Bus.bind, rxRegister, State.command_choice _ h, hf, State.command_stopped _ h, readCommand_eq]

/-- `WrReg` whose command byte is not acknowledged (20_memory.md R45, R54). -/
theorem wrReg_nack_command (a : RegAddr) (v : Byte) {s : State} (h : s.st.sel = false)
    (hf : (s.choiceAt s.drawn).ack = false) : wrReg a v s = .nack (s.stopped 1 [.sel] (s.ctlAfter 1)) := by
  rw [wrReg, txByte_of_nack _ (by rw [State.select_choice h, hf]), State.select_stopped h]
  rfl

/-- `WrReg` whose data byte is not acknowledged: the controller may have acted on it all the same
(20_memory.md R45, R54, log entry 10). -/
theorem wrReg_nack_data (a : RegAddr) (v : Byte) {s : State} (h : s.st.sel = false)
    (hack : (s.choiceAt s.drawn).ack = true) (hf : (s.choiceAt (s.drawn + 1)).ack = false) :
    wrReg a v s = .nack (s.stopped 2 [.sel, .tx (BitVec.ofNat 8 (128 + a.toNat))]
      (if (s.choiceAt (s.drawn + 1)).landed = true then
        (s.ctlAfter 2).windowWrite s.params a v else s.ctlAfter 2)) := by
  rw [wrReg, txByte_of_ack _ (by rw [State.select_choice h, hack])]
  simp only [Bus.bind, txData, State.command_choice _ h, hf, Bool.false_eq_true, if_false,
    State.command_stopped _ h, writeCommand_eq]
  cases (s.choiceAt (s.drawn + 1)).landed <;> rfl

/-! ### Bursts -/

/-- The receiving part of a burst has received and consumed the bytes before the failed transfer, which
consumes none (20_memory.md R50, R54, log entry 27). -/
theorem rxFifoBytes_stops (n : Nat) : ∀ {s : State}, s.st.sel = true →
    (rxFifoBytes n s).Stops fun u => ∃ raw : List Byte, raw.length < n ∧ u.trace = s.trace ++ raw.map .rx ∧
      u.drawn = s.drawn + raw.length + 1 ∧ FifoServes s u raw (s.draws s.drawn raw.length) := by
  induction n with
  | zero => intro s h; trivial
  | succ n ih =>
    intro s h
    refine Bus.Stops.bind ?_ fun b t hb => Bus.Stops.bind ((ih ((rxFifo_spec h).of_done hb).2.1).mono ?_)
      fun _ _ _ => trivial
    · unfold rxFifo
      split
      · trivial
      · exact ⟨[], Nat.succ_pos n, by simp, rfl, FifoServes.ofMove rfl (Nat.lt_succ_self _)⟩
    · obtain ⟨hm, -, hp⟩ := (rxFifo_spec h).of_done hb
      have hdt : t.drawn = s.drawn + 1 := by rw [hp.2]; rfl
      rintro u ⟨raw, hl, htr, hd, hf⟩
      refine ⟨b :: raw, by simpa using hl, by rw [htr, hp.2]; simp, by simp [hd, hdt]; omega, ?_⟩
      rw [State.draws_congr hm.env, hdt] at hf
      exact (rxFifo_serves hp.1 hp.2).trans hf hm (by omega)

/-- The events of a burst's window before a failed transfer: none where the command byte failed, else that byte
and the bytes received, fewer than the burst was to receive. -/
def Opened (cmd : Byte) (n : Nat) (raw : List Byte) (es : List BusEvent) : Prop :=
  (es = [] ∧ raw = []) ∨ (es = .tx cmd :: raw.map .rx ∧ raw.length < n)

/-- What a burst has done at a failed transfer (20_memory.md R46, R54). -/
theorem burstRead_stops (n : Nat) {s : State} (h : s.st.sel = false) :
    (burstRead n s).Stops fun u => ∃ raw es, Opened s.params.burstCmd n raw es ∧
      u.trace = s.trace ++ .sel :: es ∧ u.drawn = s.drawn + es.length + 1 ∧
      FifoServes s u raw (s.draws (s.drawn + 1) raw.length) := by
  have hsel := select_moves h
  refine Bus.Stops.bind (Bus.Stops.bind ?_ fun _ t ht => (rxFifoBytes_stops n ((txByte_spec _ hsel.2).of_done ht).2.1).mono ?_)
    fun _ _ _ => trivial
  · unfold txByte
    split
    · trivial
    · refine ⟨[], [], .inl ⟨rfl, rfl⟩, ?_, ?_, FifoServes.ofMove ?_ ?_⟩ <;> rw [State.select_of_idle h] <;>
        first | rfl | exact Nat.lt_succ_self _
  · obtain ⟨hm, -, hp⟩ := (txByte_spec _ hsel.2).of_done ht
    have hdt : t.drawn = s.drawn + 1 := by rw [hp, State.select_of_idle h]; rfl
    rintro u ⟨raw, hl, htr, hd, hf⟩
    refine ⟨raw, .tx s.params.burstCmd :: raw.map .rx, .inr ⟨rfl, hl⟩, ?_, by simp [hd, hdt]; omega, ?_⟩
    · rw [htr, hp, State.select_of_idle h]; simp
    · rw [State.draws_congr (hm.env.trans hsel.1.env), hdt] at hf
      refine FifoServes.trans (FifoServes.ofMove ?_ (by omega)) hf (hsel.1.trans hm) (by omega)
      rw [hp, State.select_of_idle h]
      rfl

/-- The windows of a `RawRead` before the one in which a transfer fails are full ones. -/
def FullChunks : BurstChunk → List (List Byte) → Prop
  | .unlimited, chunks => chunks = []
  | .atMost c _, chunks => ∀ bs ∈ chunks, bs.length = c

/-- What a `RawRead` has done at a failed transfer: `chunks` windows closed, and one open (42_burst_stream.md
R102, 60_exceptions.md R124). -/
def RawStopped (m : Nat) (s u : State) : Prop :=
  ∃ chunks raw es, FullChunks s.params.burstChunk chunks ∧ chunks.flatten.length + raw.length < m ∧
    Opened s.params.burstCmd (chunkOf s.params.burstChunk m) raw es ∧
    u.trace = s.trace ++ burstEvents s.params.burstCmd chunks ++ .sel :: es ∧
    u.drawn = s.drawn + chunks.length + chunks.flatten.length + es.length + 1 ∧
    ∃ ds, RawDraws s ds ∧ FifoServes s u (chunks.flatten ++ raw) ds

/-- A window that is opened for a part of what is wanted. -/
theorem Opened.mono {cmd : Byte} {n m : Nat} {raw : List Byte} {es : List BusEvent} (h : Opened cmd n raw es)
    (hnm : n ≤ m) : Opened cmd m raw es :=
  h.imp id fun k => ⟨k.1, lt_of_lt_of_le k.2 hnm⟩

theorem Opened.length_le {cmd : Byte} {n : Nat} {raw : List Byte} {es : List BusEvent} (h : Opened cmd n raw es)
    (hn : 0 < n) : raw.length < n := by
  rcases h with ⟨-, rfl⟩ | ⟨-, h⟩
  · exact hn
  · exact h

/-- The first window's draws are those of a `RawRead`. -/
theorem RawDraws.first (s : State) {m n : Nat} (hn : n ≤ chunkOf s.params.burstChunk m) :
    RawDraws s (s.draws (s.drawn + 1) n) := by
  intro i hi
  rw [State.draws_length] at hi
  rw [State.draws_getElem _ _ _ _ hi]
  congr 3
  cases hc : s.params.burstChunk with
  | unlimited => simp only [rawTransfer]; omega
  | atMost c _ =>
    rw [hc] at hn
    have : i < c := lt_of_lt_of_le hi (hn.trans (min_le_right m c))
    simp only [rawTransfer, Nat.div_eq_of_lt this]
    omega

/-- All that the loop of `RawRead` has done at a failed transfer. -/
theorem rawReadLoop_stops (rounds : Nat) : ∀ (m : Nat) {s : State}, s.st.sel = false →
    (rawReadLoop rounds m s).Stops (RawStopped m s) := by
  induction rounds with
  | zero => intro m s h; trivial
  | succ rounds ih =>
    intro m s h
    unfold rawReadLoop
    split
    · trivial
    · rename_i h0
      have hle := chunkOf_le s.params.burstChunk m
      have hpos := chunkOf_pos s.params.burstChunk h0
      refine Bus.Stops.bind ((burstRead_stops _ h).mono ?_) fun bs t hb => Bus.Stops.bind
        ((ih _ ((burstRead_spec _ h).of_done hb).2.1).mono ?_) fun _ _ _ => trivial
      · rintro u ⟨raw, es, ho, htr, hd, hf⟩
        have hlt := ho.length_le hpos
        refine ⟨[], raw, es, ?_, by simp; omega, ho, by simp [htr, burstEvents], by simp [hd], _,
          RawDraws.first s hlt.le, hf⟩
        cases s.params.burstChunk with
        | unlimited => rfl
        | atMost c _ => intro bs hbs; cases hbs
      · obtain ⟨hm, -, hl, htr, hd, hf⟩ := (burstRead_spec _ h).of_done hb
        rintro u ⟨chunks, raw, es, hfull, hlt, ho, htr', hd', ds, hds, hf'⟩
        rw [hm.params] at hfull ho htr'
        have hlen : (chunks.flatten ++ raw).length = chunks.flatten.length + raw.length := List.length_append
        refine ⟨bs :: chunks, raw, es, ?_, by rw [List.flatten_cons, List.length_append, hl]; omega, ?_, ?_,
          by rw [List.flatten_cons, List.length_append, List.length_cons, hl, hd', hd]; omega, _,
          hds.append hm hd (by rw [← hf'.length, hlen]; omega), ?_⟩
        · cases hc : s.params.burstChunk with
          | unlimited => rw [hc] at hlt; simp only [chunkOf] at hlt; omega
          | atMost c _ =>
            rw [hc] at hfull hlt hl
            simp only [chunkOf] at hlt hl
            intro x hx
            rcases List.mem_cons.1 hx with rfl | hx
            · omega
            · exact hfull x hx
        · refine ho.mono ?_
          cases s.params.burstChunk with
          | unlimited => simp [chunkOf]
          | atMost c _ => simp only [chunkOf]; omega
        · rw [htr', htr]; simp [burstEvents]
        · rw [List.flatten_cons, List.append_assoc]
          exact hf.trans hf' hm (by omega)

end Sys2Proof.Machine
end

