-- ==== Sys2Proof/Laws/PerInstr.lean ====
section
/-! SUPPORT. For every instruction: its command word as a number, operation and operand fields at the places 30_encoding.md R66 to R68 give them. -/

namespace Sys2Proof.Laws.CommandWord

/-- The command word of 30_encoding.md R66 to R68 as a number: `op` times 2^28, plus the operand fields. -/
def layout : Instr → Nat
  | .conv v => 0x10000000 + v.toNat
  | .rdreg a => 0x20000000 + a.toNat
  | .wrreg a v => 0x30000000 + 256 * a.toNat + v.toNat
  | .trig => 0x40000000
  | .poll => 0x50000000
  | .flen => 0x60000000
  | .burst n => 0x70000000 + n.toNat
  | .fill w => 0x80000000 + w.toNat

/-- The encoder lays out the command word of `i` as the spec's bit numbers say. -/
def Statement (i : Instr) : Prop := (encode i).toNat = layout i

/-- The number of two bit strings, one above the other. -/
theorem toNat_append_eq {n k : Nat} (x : BitVec n) (y : BitVec k) :
    (x ++ y).toNat = x.toNat * 2 ^ k + y.toNat := by
  rw [BitVec.toNat_append, ← Nat.shiftLeft_add_eq_or_of_lt y.isLt, Nat.shiftLeft_eq]

theorem conv (v : Sample) : Statement (.conv v) :=
  (toNat_append_eq (0x1#4 ++ 0#12) v).trans (by rw [toNat_append_eq]; simp [layout])

theorem rdreg (a : RegAddr) : Statement (.rdreg a) :=
  (toNat_append_eq (0x2#4 ++ 0#21) a).trans (by rw [toNat_append_eq]; simp [layout])

theorem wrreg (a : RegAddr) (v : Byte) : Statement (.wrreg a v) :=
  (toNat_append_eq (0x3#4 ++ 0#13 ++ a) v).trans
    (by rw [toNat_append_eq, toNat_append_eq]; simp [layout]; omega)

theorem trig : Statement .trig := rfl

theorem poll : Statement .poll := rfl

theorem flen : Statement .flen := rfl

theorem burst (n : Count) : Statement (.burst n) :=
  (toNat_append_eq (0x7#4 ++ 0#4) n).trans (by rw [toNat_append_eq]; simp [layout])

theorem fill (w : Count) : Statement (.fill w) :=
  (toNat_append_eq (0x8#4 ++ 0#4) w).trans (by rw [toNat_append_eq]; simp [layout])

end Sys2Proof.Laws.CommandWord
end

