-- ==== Sys2Proof/Tests/Slice0.lean ====
section
/-! SUPPORT. Tests from 95_test_vectors.md (its parameter set EX), the smoke tests of well-formedness, and a witness for the hypotheses of every obligation. -/

namespace Sys2Proof.Tests

open Sys2Proof Sys2Proof.Machine

/-! ### The bench -/

/-- Parameter set EX of 95_test_vectors.md, with a chunk size. -/
def exParams (chunk : BurstChunk) : Params :=
  { regClr := 0x10, valClr := 0x01, regStart := 0x11, valStart := 0x02, regStatus := 0x20, doneBit := 3,
    regLenLo := 0x30, regLenMid := 0x31, regLenHi := 0x32, burstCmd := 0x40, burstChunk := chunk,
    pollDelayMs := 10 }

/-- An acknowledged transfer at which the environment supplies `b` for every open bit. -/
def acked (b : Byte) : EnvChoice :=
  { move := .nothing, report := none, ack := true, draw := b, landed := false, asBurst := false }

/-- A transfer that is not acknowledged. -/
def nacked : EnvChoice := { acked 0 with ack := false }

/-- The script of one burst: the command byte, then the bytes received. -/
def burstOf (bs : List Byte) : List EnvChoice := acked 0 :: bs.map acked

/-- `st` as 95_test_vectors.md writes it. -/
def block (triggered : Bool) (delivered offset : BitVec 32) (halted : Bool) : Block :=
  { triggered := triggered, bytesDelivered := delivered, srcOffset := offset, halted := halted, sel := false }

/-- A window of five bytes EE. -/
def window5 : Window := { size := 5, cells := [(0, 0xEE), (1, 0xEE), (2, 0xEE), (3, 0xEE), (4, 0xEE)] }

/-- The machine on the bench. -/
def bench (b : Block) (chunk : BurstChunk) (env : List EnvChoice) : State :=
  { State.reset with st := b, params := exParams chunk, env := { first := env, again := [] }, window := window5 }

/-- The bench with a controller that holds a complete capture, of an accepted TRIG. -/
def withFrame (frame : List Byte) (pos : Nat) (s : State) : State :=
  { s with ctl := { cleared := true, done := .known true, fifo := .complete frame pos 153600 } }

/-- The response word, the bus trace and `st` after a command. -/
def seen (o : Host.Outcome State Fault Refusal) : Option (Word32 × List BusEvent × Block) :=
  match o with
  | .next t => t.answers.getLast?.map fun a => (responseWord a.response, t.trace, t.st)
  | .fault _ => none
  | .refused _ => none

/-- The first five window bytes after a command. -/
def windowSeen (o : Host.Outcome State Fault Refusal) : List (Option Byte) :=
  match o with
  | .next t => (List.range 5).map (Memory.read t.window.cells)
  | .fault _ => []
  | .refused _ => []

/-- Four bytes a chunk, three, two, one. -/
def atMost3 : BurstChunk := .atMost 3 (by decide)
def atMost2 : BurstChunk := .atMost 2 (by decide)

/-! ### Well-formedness (30_encoding.md R66): what the checks refuse -/

theorem test_burst_needs_its_window : Instr.wellFormed (.burst 5) 4 = false := by decide
theorem test_fill_needs_its_window : Instr.wellFormed (.fill 1) 0 = false := by decide
theorem test_burst_exact_window : Instr.wellFormed (.burst 5) 5 = true := by decide
theorem test_memory_order_refused : Memory.wf [(1, 0x00), (0, 0x00)] = false := by decide
theorem test_window_overrun_refused : Window.wf { size := 1, cells := [(1, 0x00)] } = false := by decide

/-! ### The decoder: vectors E1 to E27 of 95_test_vectors.md -/

theorem test_decode_conv : decode 0x1000F800 = .ok (.conv 0xF800) := by decide
theorem test_decode_rdreg : decode 0x2000007F = .ok (.rdreg 0x7F) ∧ decode 0x20000020 = .ok (.rdreg 0x20) := by decide
theorem test_decode_wrreg : decode 0x30001234 = .ok (.wrreg 0x12 0x34) ∧ decode 0x30007FFF = .ok (.wrreg 0x7F 0xFF) := by decide
theorem test_decode_trig : decode 0x40000000 = .ok .trig := by decide
theorem test_decode_poll : decode 0x50000000 = .ok .poll := by decide
theorem test_decode_flen : decode 0x60000000 = .ok .flen := by decide
theorem test_decode_burst : decode 0x70000004 = .ok (.burst 4) ∧ decode 0x70FFFFFF = .ok (.burst 16777215) := by decide
theorem test_decode_fill : decode 0x80000000 = .ok (.fill 0) ∧ decode 0x80012C00 = .ok (.fill 76800) ∧
    decode 0x80FFFFFF = .ok (.fill 16777215) := by decide

/-- E15 to E18. -/
theorem test_decode_unknown_op : decode 0x00000000 = .error .unknownOp ∧ decode 0x90000000 = .error .unknownOp ∧
    decode 0xF0000000 = .error .unknownOp ∧ (∀ i, decode 0xFFFFFFFF ≠ .ok i) := by
  refine ⟨by decide, by decide, by decide, fun i h => ?_⟩
  rw [show decode 0xFFFFFFFF = .error .reservedBits by decide] at h
  cases h

/-- E19, E26, E27. -/
theorem test_decode_reserved : decode 0x1100F800 = .error .reservedBits ∧
    decode 0x71000004 = .error .reservedBits ∧ decode 0x88000001 = .error .reservedBits := by decide

/-- E20 to E25. -/
theorem test_decode_operand_bits : decode 0x1001F800 = .error .operandBits ∧
    decode 0x20000080 = .error .operandBits ∧ decode 0x30008000 = .error .operandBits ∧
    decode 0x40000001 = .error .operandBits ∧ decode 0x50000100 = .error .operandBits ∧
    decode 0x60800000 = .error .operandBits := by decide

/-- The opcode table's numbering (spec/opcode_table.json, WRREG's row). -/
theorem test_table_word : decodeTableWord 32 0x30001234 = some (.wrreg 0x12 0x34) := by decide

/-- A command placed with `withFetchWord` runs as the first thing after reset. -/
theorem test_first_command : seen (step (State.reset.withFetchWord 32 0x1000F800)) =
    some (0x0000004C, [], Block.reset) := by decide

/-- Q3, Q5 of 95_test_vectors.md. -/
theorem test_response_words : responseWord ⟨.ok, false, true, 0⟩ = 0x01000000 ∧
    responseWord ⟨.ok, true, false, 76800⟩ = 0x02012C00 ∧ responseWord (plainResponse .halted) = 0x50000000 := by
  decide

/-- The notation of 30_encoding.md R72. -/
theorem test_asm : Instr.asm (.wrreg 18 52) = "WRREG 18, 52" := by decide

/-! ### One step of each instruction -/

/-- V4, V6, V11, V12: layout, byte order, truncation. -/
theorem test_conv_luma : luma 0xF800 = 76 ∧ luma 0x001F = 28 ∧ luma 0x1234 = 63 ∧ luma 0x3412 = 107 := by decide

/-- X6. -/
theorem test_conv_halted : seen (exec (.conv 0xFFFF) (bench (block false 0 0 true) .unlimited [])) =
    some (0x50000000, [], block false 0 0 true) := by decide

/-- A1. -/
theorem test_rdreg : seen (exec (.rdreg 0x12) (bench (block false 0 0 false) .unlimited [acked 0, acked 0x5A])) =
    some (0x0000005A, [.sel, .tx 0x12, .rx 0x5A, .desel], block false 0 0 false) := by decide

/-- X2: the data byte is not acknowledged. -/
theorem test_rdreg_fault : seen (exec (.rdreg 0x12) (bench (block false 0 0 false) .unlimited [acked 0, nacked])) =
    some (0x40000000, [.sel, .tx 0x12, .desel], block false 0 0 true) := by decide

/-- A3. -/
theorem test_wrreg : seen (exec (.wrreg 0x12 0x34) (bench (block false 0 0 false) .unlimited [acked 0, acked 0])) =
    some (0x00000000, [.sel, .tx 0x92, .tx 0x34, .desel], block false 0 0 false) := by decide

/-- A5: the start write by hand leaves `triggered` at 0. -/
theorem test_wrreg_start : seen (exec (.wrreg 0x11 0x02) (bench (block false 0 0 false) .unlimited [acked 0, acked 0])) =
    some (0x00000000, [.sel, .tx 0x91, .tx 0x02, .desel], block false 0 0 false) := by decide

/-- A8: the offset is zeroed. -/
theorem test_trig : seen (exec .trig (bench (block false 0 1000 false) .unlimited [acked 0, acked 0, acked 0, acked 0])) =
    some (0x00000000, [.sel, .tx 0x90, .tx 0x01, .desel, .sel, .tx 0x91, .tx 0x02, .desel],
      block true 0 0 false) := by decide

/-- X3: the second byte of the start write is not acknowledged. -/
theorem test_trig_fault : seen (exec .trig (bench (block false 0 0 false) .unlimited [acked 0, acked 0, acked 0, nacked])) =
    some (0x40000000, [.sel, .tx 0x90, .tx 0x01, .desel, .sel, .tx 0x91, .desel], block false 0 0 true) := by decide

/-- A9. -/
theorem test_poll_done : seen (exec .poll (bench (block true 500 1000 false) .unlimited [acked 0, acked 0x08])) =
    some (0x01000000, [.sel, .tx 0x20, .rx 0x08, .desel], block true 500 1000 false) := by decide

/-- A10: seven other bits do not matter. -/
theorem test_poll_not_done : seen (exec .poll (bench (block true 500 1000 false) .unlimited [acked 0, acked 0xF7])) =
    some (0x00000000, [.sel, .tx 0x20, .rx 0xF7, .desel], block true 500 1000 false) := by decide

/-- A12 with the bytes of LV2: bit 23 is dropped. -/
theorem test_flen : seen (exec .flen (bench (block true 0 0 false) .unlimited
      [acked 0, acked 0x00, acked 0, acked 0x58, acked 0, acked 0x82])) =
    some (0x00025800, [.sel, .tx 0x30, .rx 0x00, .desel, .sel, .tx 0x31, .rx 0x58, .desel,
      .sel, .tx 0x32, .rx 0x82, .desel], block true 0 0 false) := by decide

/-- P4: of one capture the controller reports 153,600 bytes and 100,000 at another reading. -/
theorem test_flen_later_report : seen (exec .flen (withFrame [] 0 (bench (block true 0 0 false) .unlimited
      [{ acked 0 with report := some 100000 }, acked 0, acked 0, acked 0, acked 0, acked 0]))) =
    some (0x000186A0, [.sel, .tx 0x30, .rx 0xA0, .desel, .sel, .tx 0x31, .rx 0x86, .desel,
      .sel, .tx 0x32, .rx 0x01, .desel], block true 0 0 false) := by decide

/-- B4: the offset wraps. -/
theorem test_burst_wraps : seen (exec (.burst 4) (bench (block false 0 0xFFFFFFFE false) .unlimited (burstOf [1, 2, 3, 4]))) =
    some (0x00000004, [.sel, .tx 0x40, .rx 1, .rx 2, .rx 3, .rx 4, .desel], block false 0 2 false) := by decide

/-- B5: the chunk size does not apply; the fifth window byte is untouched. -/
theorem test_burst_window : windowSeen (exec (.burst 4)
      (bench (block true 0 0 false) atMost2 (burstOf [0xF8, 0x00, 0x07, 0xE0]))) =
    [some 0xF8, some 0x00, some 0x07, some 0xE0, some 0xEE] := by decide

/-- F10: a sample straddles two select windows. -/
theorem test_fill_straddles : seen (exec (.fill 3) (bench (block true 0 0 false) atMost3
      (burstOf [0xF8, 0x00, 0x07] ++ burstOf [0xE0, 0x00, 0x1F]))) =
    some (0x00000003, [.sel, .tx 0x40, .rx 0xF8, .rx 0x00, .rx 0x07, .desel,
      .sel, .tx 0x40, .rx 0xE0, .rx 0x00, .rx 0x1F, .desel], block true 3 6 false) := by decide

/-- The start of F6, by a block two bytes short of the frame's end. -/
def lastTwo : State := bench (block true 76798 153596 false) .unlimited (burstOf [0x84, 0x10, 0x7B, 0xEF])

/-- F6: the frame ends, and the window beyond it is untouched. -/
theorem test_fill_last : seen (exec (.fill 5) lastTwo) =
      some (0x02000002, [.sel, .tx 0x40, .rx 0x84, .rx 0x10, .rx 0x7B, .rx 0xEF, .desel], block false 0 153600 false) ∧
    windowSeen (exec (.fill 5) lastTwo) = [some 129, some 124, some 0xEE, some 0xEE, some 0xEE] := by decide

/-- 60_exceptions.md R133: after a BUSFAULT of TRIG the host issues no POLL. -/
theorem test_frame_stops_at_fault : (match oneFrame 3 [window5] (bench (block false 0 0 false) .unlimited [nacked]) with
    | .next d => d.state.answers.map fun a => a.response
    | .fault _ => []
    | .refused _ => []) = [plainResponse .busFault] := by decide

/-! ### Witnesses: a state and operands that meet the hypotheses of each obligation -/

/-- A block that is idle, and one with a session open after ten bytes. -/
def idle : Block := block false 0 0 false
def open10 : Block := block true 10 20 false

/-- A bench whose next action is a command word. -/
def asked (w : Word32) (s : State) : State := s.offer { word := w, window := window5 }

/-- `n` acknowledged transfers that supply 0. -/
def quietEnv (n : Nat) : List EnvChoice := List.replicate n (acked 0)

/-- EncodeOfDecode, LegalWordsAreTableRows. -/
theorem witness_decode : decode 0x1000F800 = .ok (.conv 0xF800) ∧
    (0x3000FFFF#32 &&& 0xFFFF8000#32 ≠ 0x30000000#32) ∧ (0x30007FFF#32 &&& 0xFFFF8000#32 = 0x30000000#32) := by decide

/-- StepRunsDecodedInstruction: a command, and the idle step with and without a host's loop. -/
theorem witness_step : (asked 0x40000000 (bench idle .unlimited [])).inbox =
      .command { word := 0x40000000, window := window5 } :: [] ∧ decode 0x40000000 = .ok .trig ∧
    (bench idle .unlimited []).inbox = [] ∧ (bench idle .unlimited []).hostLoop = [] ∧
    { bench idle .unlimited [] with hostLoop := [.reset] }.inbox = [] := by decide

/-- IllegalWordAnswered. -/
theorem witness_illegal : (asked 0 (bench idle .unlimited [])).inbox = .command { word := 0, window := window5 } :: [] ∧
    (∀ i, decode 0 ≠ .ok i) ∧ (asked 0 (bench idle .unlimited [])).st.halted = false := by
  refine ⟨by decide, fun i h => ?_, by decide⟩
  rw [show decode 0 = .error .unknownOp by decide] at h
  cases h

/-- HaltedAnswersEveryWord, for a legal and for an illegal word. -/
theorem witness_halted_word : (asked 0x40000000 (bench (block false 0 0 true) .unlimited [])).st.halted = true ∧
    (asked 0x40000000 (bench (block false 0 0 true) .unlimited [])).inbox =
      .command { word := 0x40000000, window := window5 } :: [] ∧
    (asked 0 (bench (block false 0 0 true) .unlimited [])).inbox =
      .command { word := 0, window := window5 } :: [] := by decide

/-- ResetEventEffect, HaltedLeftOnlyByReset, and the first case of SessionClosesOnlyAtFrameEnd and of
ObservationsOnlyGrow. -/
theorem witness_reset : ∃ t, step { bench (block true 10 20 true) .unlimited [] with inbox := [.reset] } = .next t ∧
    t.st.halted = false ∧ t.st.triggered = false ∧ t.trace = [] := ⟨_, rfl, rfl, rfl, rfl⟩

/-- A Reset over a complete capture: the controller's FIFO and flag stay, and a POLL then answers the draw of its
transfer, here 0 (93_implementation_defined.md U13, U14). -/
theorem test_reset_done_bit :
    (resetEvent (withFrame [1, 2] 1 (bench idle .unlimited (quietEnv 2)))).ctl =
      { cleared := false, done := .known true, fifo := .complete [1, 2] 1 153600 } ∧
    seen (exec .poll (resetEvent (withFrame [1, 2] 1 (bench idle .unlimited (quietEnv 2))))) =
      some (0x00000000, [.sel, .tx 0x20, .rx 0x00, .desel], idle) := by decide

/-- CommandsNeverStop and ShortWindowStops, on both sides of the window's size. -/
theorem witness_window_size : (Instr.burst 5).wellFormed (bench idle .unlimited []).window.size = true ∧
    (Instr.burst 6).wellFormed (bench idle .unlimited []).window.size = false ∧
    (∃ t, exec (.burst 5) (bench idle .unlimited (burstOf [1, 2, 3, 4, 5])) = .next t) ∧
    exec (.burst 6) (bench idle .unlimited []) = .fault .windowOverrun ∧
    exec (.fill 6) (bench open10 .unlimited []) = .fault .windowOverrun ∧
    (∃ t, exec (.fill 6) (bench (block true 76795 153590 false) .unlimited []) = .next t) :=
  ⟨by decide, by decide, ⟨_, rfl⟩, rfl, rfl, ⟨_, rfl⟩⟩

/-- OneResponsePerCommand, FieldsWrittenOnlyByTheirCommands, HostViewTracksBlock, ProtocolHostRefusedOnlyByBusy. -/
theorem witness_command_ends : (bench idle .unlimited []).st.sel = false ∧
    HostView.start.session = (bench idle .unlimited []).st.triggered ∧
    HostView.start.stopped = (bench idle .unlimited []).st.halted ∧ hostMay HostView.start (.conv 0xFFFF) = true ∧
    ∃ t, exec (.conv 0xFFFF) (bench idle .unlimited []) = .next t := ⟨rfl, rfl, rfl, rfl, _, rfl⟩

/-- ProtocolHostRefusedOnlyByBusy for a TRIG in an open session: the answer is BUSY. -/
theorem witness_protocol_busy : hostMay ⟨true, false, false, false⟩ .trig = true ∧
    (bench open10 .unlimited []).st.triggered = true ∧ (bench open10 .unlimited []).st.halted = false ∧
    seen (exec .trig (bench open10 .unlimited [])) = some (0x10000000, [], open10) := by decide

/-- ProtocolHostRefusedOnlyByBusy for a FILL: the host has opened a session, seen DONE and a length that passes. -/
theorem witness_protocol_fill : hostMay ⟨true, true, true, false⟩ (.fill 1) = true ∧
    (bench open10 .unlimited (quietEnv 3)).st.triggered = true ∧
    ∃ t, exec (.fill 1) (bench open10 .unlimited (quietEnv 3)) = .next t := ⟨rfl, rfl, _, rfl⟩

/-- ConvAnswersLuma, both clauses. -/
theorem witness_conv : (bench idle .unlimited []).st.halted = false ∧
    (bench (block false 0 0 true) .unlimited []).st.halted = true := by decide

/-- LumaMonotone: two samples, one field raised. -/
theorem witness_monotone : (0x1234#16).toNat / 2048 ≤ (0x1254#16).toNat / 2048 ∧
    (0x1234#16).toNat / 32 % 64 ≤ (0x1254#16).toNat / 32 % 64 ∧ (0x1234#16).toNat % 32 ≤ (0x1254#16).toNat % 32 := by
  decide

/-- RdregReadsRegister, WrregWritesRegister, PollTestsDoneBit (whatever `v` and `c` the premise gives). -/
theorem witness_two_transfers : (bench open10 .unlimited (quietEnv 2)).st.halted = false ∧
    (bench open10 .unlimited (quietEnv 2)).st.sel = false ∧ (bench open10 .unlimited (quietEnv 2)).acked 2 := by
  refine ⟨rfl, rfl, ?_⟩
  unfold State.acked
  decide

/-- The command bytes of RdregReadsRegister, PollTestsDoneBit, WrregWritesRegister and TrigOpensSession on both
sides of BURST_CMD: EX's parameters, and a BURST_CMD of 0x20, 0x91. -/
theorem witness_burst_cmd :
    BitVec.ofNat 8 (0x40#7).toNat = (exParams .unlimited).burstCmd ∧
    BitVec.ofNat 8 (0x12#7).toNat ≠ (exParams .unlimited).burstCmd ∧
    BitVec.ofNat 8 (exParams .unlimited).regStatus.toNat ≠ (exParams .unlimited).burstCmd ∧
    BitVec.ofNat 8 (exParams .unlimited).regStatus.toNat = { exParams .unlimited with burstCmd := 0x20 }.burstCmd ∧
    BitVec.ofNat 8 (128 + (0x11#7).toNat) ≠ (exParams .unlimited).burstCmd ∧
    BitVec.ofNat 8 (128 + (exParams .unlimited).regStart.toNat) = { exParams .unlimited with burstCmd := 0x91 }.burstCmd := by
  decide

/-- RdregReadsRegister at address 0x40, which is EX's BURST_CMD: the controller takes it for a burst, or for a
register read. -/
theorem witness_rdreg_fifo :
    (∃ t, exec (.rdreg 0x40) (withFrame [1, 2, 3] 1 (bench idle .unlimited [acked 0, { acked 0x5A with asBurst := true }])) =
      .next t ∧ t.trace = [.sel, .tx 0x40, .rx 2, .desel] ∧ t.ctl.fifo = .complete [1, 2, 3] 2 153600) ∧
    ∃ t, exec (.rdreg 0x40) (withFrame [1, 2, 3] 1 (bench idle .unlimited [acked 0, acked 0x5A])) =
      .next t ∧ t.trace = [.sel, .tx 0x40, .rx 0x5A, .desel] ∧ t.ctl.fifo = .complete [1, 2, 3] 1 153600 :=
  ⟨⟨_, rfl, rfl, rfl⟩, _, rfl, rfl, rfl⟩

/-- RdregReadsRegister: an address that is no register of a role, the status byte with the flag known, and the
length registers while a capture is complete and while none is. -/
theorem witness_register_bytes :
    0x12#7 ∉ [(exParams .unlimited).regStatus, (exParams .unlimited).regLenLo, (exParams .unlimited).regLenMid,
      (exParams .unlimited).regLenHi] ∧
    (withFrame [] 0 (bench idle .unlimited [])).ctl.cleared = true ∧
    (withFrame [] 0 (bench idle .unlimited [])).ctl.done = .known true ∧
    (bench idle .unlimited []).ctl.cleared = false ∧
    (∀ frame pos len, (bench idle .unlimited []).ctl.fifo ≠ .complete frame pos len) ∧
    (exParams .unlimited).regLenHi ≠ (exParams .unlimited).regStatus ∧
    (exParams .unlimited).regLenHi ≠ (exParams .unlimited).regLenLo ∧
    (exParams .unlimited).regLenHi ≠ (exParams .unlimited).regLenMid :=
  ⟨by decide, rfl, rfl, rfl, (fun _ _ _ h => by cases h), by decide, by decide, by decide⟩

/-- RdregBusFault, both clauses. -/
theorem witness_rdreg_fault : ((bench idle .unlimited [nacked]).choiceAt 0).ack = false ∧
    ((bench idle .unlimited [acked 0, nacked]).choiceAt 0).ack = true ∧
    ((bench idle .unlimited [acked 0, nacked]).choiceAt 1).ack = false := by decide

/-- RegisterWriteEffects: the clear and start writes told apart by register, or by value only; one write that is
both; and any other write. -/
theorem witness_register_writes : ((exParams .unlimited).regClr ≠ (exParams .unlimited).regStart) ∧
    ({ exParams .unlimited with regStart := 0x10 }.valClr ≠ { exParams .unlimited with regStart := 0x10 }.valStart) ∧
    ({ exParams .unlimited with regStart := 0x10, valStart := 0x01 }.regClr = 0x10 ∧
      { exParams .unlimited with regStart := 0x10, valStart := 0x01 }.valClr = 0x01) ∧
    ((0x11#8 ≠ (exParams .unlimited).valClr) ∧ ((0x10#7 ≠ (exParams .unlimited).regStart))) := by decide

/-- CaptureCompletes: a controller in each of its three phases. -/
theorem witness_completes : (bench idle .unlimited []).ctl.fifo = .unknown ∧
    ({ cleared := true, done := .known false, fifo := .capturing } : Controller).fifo = .capturing ∧
    (withFrame [1, 2] 1 (bench idle .unlimited [])).ctl.fifo = .complete [1, 2] 1 153600 := ⟨rfl, rfl, rfl⟩

/-- TrigOpensSession, with an old capture that ends between the two writes, whose flag the start write keeps, and
with none. -/
theorem witness_trig : (bench idle .unlimited (quietEnv 4)).st.halted = false ∧
    (bench idle .unlimited (quietEnv 4)).st.sel = false ∧ (bench idle .unlimited (quietEnv 4)).st.triggered = false ∧
    (bench idle .unlimited (quietEnv 4)).acked 4 ∧
    (∃ t, exec .trig (bench idle .unlimited (quietEnv 4)) = .next t ∧
      t.ctl = { cleared := true, done := .known false, fifo := .capturing }) ∧
    ∃ t, exec .trig (bench idle .unlimited (quietEnv 2 ++ [{ acked 0 with move := .complete ⟨[], 0⟩ }, acked 0])) = .next t ∧
      t.ctl = { cleared := true, done := .known true, fifo := .capturing } := by
  refine ⟨rfl, rfl, rfl, ?_, ⟨_, rfl, rfl⟩, _, rfl, rfl⟩
  unfold State.acked
  decide

/-- TrigRefusedBusy, FillRefusedWithoutSession, ZeroLengthDoesNothing (at the last byte of the frame). -/
theorem witness_refusals : (bench open10 .unlimited []).st.triggered = true ∧
    (bench idle .unlimited []).st.triggered = false ∧ (bench idle .unlimited []).st.halted = false ∧
    (bench (block true 76799 0 false) .unlimited []).st.bytesDelivered.toNat < 76800 := by decide

/-- A bench whose controller is capturing after an accepted TRIG. -/
def capturing (s : State) : State := { s with ctl := { cleared := true, done := .known false, fifo := .capturing } }

/-- PollReportsDoneFlag: the capture completes during the poll; and it was complete before. -/
theorem witness_poll_flag :
    (capturing (bench open10 .unlimited [{ acked 0 with move := .complete ⟨[], 0⟩ }, acked 0])).acked 2 ∧
    ((capturing (bench open10 .unlimited [{ acked 0 with move := .complete ⟨[], 0⟩ }, acked 0])).ctlAfter 2).done = .known true ∧
    (∃ t, exec .poll (capturing (bench open10 .unlimited [{ acked 0 with move := .complete ⟨[], 0⟩ }, acked 0])) = .next t) ∧
    (withFrame [] 0 (bench open10 .unlimited (quietEnv 2))).ctl.done = .known true ∧
    (withFrame [] 0 (bench open10 .unlimited (quietEnv 2))).ctl.cleared = true ∧
    BitVec.ofNat 8 (exParams .unlimited).regStatus.toNat ≠ (exParams .unlimited).burstCmd := by
  refine ⟨?_, rfl, ⟨_, rfl⟩, rfl, rfl, by decide⟩
  unfold State.acked
  decide

/-- PollDrawsBeforeTrigger: the two clear and start writes by hand leave the done bit a draw, here 1 while no
capture is complete. -/
theorem witness_poll_draws :
    (bench idle .unlimited (quietEnv 2)).ctl.cleared = false ∧
    (∃ t, exec (.wrreg 0x10 0x01) (bench idle .unlimited (quietEnv 2)) = .next t ∧
      t.ctl = { cleared := false, done := .known false, fifo := .unknown }) ∧
    seen (exec .poll { bench idle .unlimited [acked 0, acked 0x08] with
      ctl := { cleared := false, done := .known false, fifo := .capturing } }) =
        some (0x01000000, [.sel, .tx 0x20, .rx 0x08, .desel], idle) :=
  ⟨rfl, ⟨_, rfl, rfl⟩, by decide⟩

/-- TriggerClearLasts, at a Reset and at a POLL; and PollDrawsBeforeTrigger, its clause on the Reset. -/
theorem witness_clear_lasts : (capturing (bench idle .unlimited [])).selectOk ∧
    (capturing (bench idle .unlimited [])).ctl.cleared = true ∧
    (∃ t, step { capturing (bench idle .unlimited []) with inbox := [.reset] } = .next t ∧ t.ctl.cleared = false) ∧
    ∃ t, step (asked 0x50000000 (capturing (bench idle .unlimited (quietEnv 2)))) = .next t ∧ t.ctl.cleared = true :=
  ⟨⟨rfl, rfl⟩, rfl, ⟨_, rfl, rfl⟩, _, rfl, rfl⟩

/-- PollDrawsBeforeTrigger, its clause on the TRIG that ends the draws: one whose start write then fails. -/
theorem witness_draws_end : (asked 0x40000000 (bench idle .unlimited (quietEnv 2 ++ [nacked]))).selectOk ∧
    (asked 0x40000000 (bench idle .unlimited (quietEnv 2 ++ [nacked]))).ctl.cleared = false ∧
    ∃ t, step (asked 0x40000000 (bench idle .unlimited (quietEnv 2 ++ [nacked]))) = .next t ∧
      t.ctl.cleared = true ∧ t.st.halted = true :=
  ⟨⟨rfl, rfl⟩, rfl, _, rfl, rfl, rfl⟩

/-- FlenReadsLength and FlenReportsCaptureLength. -/
theorem witness_flen : (withFrame [] 0 (bench open10 .unlimited (quietEnv 6))).acked 6 ∧
    (withFrame [] 0 (bench open10 .unlimited (quietEnv 6))).ctl.fifo = .complete [] 0 153600 ∧
    (∀ a ∈ [0x30#7, 0x31#7, 0x32#7], BitVec.ofNat 8 a.toNat ≠ (exParams .unlimited).burstCmd) ∧
    [0x20#7, 0x30#7, 0x31#7, 0x32#7].Nodup ∧
    ((bench open10 .unlimited (quietEnv 6)).choiceAt 0).report = none ∧
    ((bench open10 .unlimited [{ acked 0 with report := some 100000 }]).choiceAt 0).report = some 100000 ∧
    ∃ t, exec .flen (withFrame [] 0 (bench open10 .unlimited (quietEnv 6))) = .next t := by
  refine ⟨?_, rfl, by decide, by decide, rfl, rfl, _, rfl⟩
  unfold State.acked
  decide

/-- BurstReadsRawBytes and BurstConsumesFifoInOrder: the largest burst the window and the FIFO allow. -/
theorem witness_burst : (5 : Count) ≠ 0 ∧ (5 : Count).toNat ≤ (bench open10 .unlimited []).window.size ∧
    (withFrame [1, 2, 3, 4, 5, 6] 1 (bench open10 .unlimited (quietEnv 6))).acked 6 ∧
    (1 + (5 : Count).toNat ≤ [1, 2, 3, 4, 5, 6].length) ∧
    ∃ t, exec (.burst 5) (withFrame [1, 2, 3, 4, 5, 6] 1 (bench open10 .unlimited (quietEnv 6))) = .next t := by
  refine ⟨by decide, by decide, ?_, by decide, _, rfl⟩
  unfold State.acked
  decide

/-- BurstReadsRawBytes past the end of the frame, and with no capture complete: the draws of the bytes' own
transfers. -/
theorem witness_burst_draws :
    windowSeen (exec (.burst 3) (withFrame [1, 2, 3] 2 (bench open10 .unlimited (burstOf [7, 8, 9])))) =
      [some 3, some 8, some 9, some 0xEE, some 0xEE] ∧
    windowSeen (exec (.burst 3) (bench open10 .unlimited (burstOf [7, 8, 9]))) =
      [some 7, some 8, some 9, some 0xEE, some 0xEE] ∧
    (∀ frame pos len, (bench open10 .unlimited (burstOf [7, 8, 9])).ctl.fifo ≠ .complete frame pos len) ∧
    (∀ k, k ≤ 3 → ((bench open10 .unlimited (burstOf [7, 8, 9])).choiceAt (0 + k)).move = .nothing) :=
  ⟨by decide, by decide, (fun _ _ _ h => by cases h), by decide⟩

/-- FillDeliversNextPixels, its second case: no capture is complete, and a sample of two draws straddles two
windows. -/
theorem witness_fill_draws :
    windowSeen (exec (.fill 1) (bench open10 (.atMost 1 (by decide)) (burstOf [0xF8] ++ burstOf [0x00]))) =
      [some 76, some 0xEE, some 0xEE, some 0xEE, some 0xEE] ∧
    rawTransfer (.atMost 1 (by decide)) 0 = 1 ∧ rawTransfer (.atMost 1 (by decide)) 1 = 3 ∧
    (∀ frame pos len, (bench open10 .unlimited []).ctl.fifo ≠ .complete frame pos len) :=
  ⟨by decide, by decide, by decide, fun _ _ _ h => by cases h⟩

/-- FillDeliversLuma, FillDeliversNextPixels, FillSelectWindows: in mid-frame, with the first transfer after the
FILL's own three not acknowledged, and at the frame's end, with one byte a select window. -/
theorem witness_fill :
    (bench open10 .unlimited (quietEnv 3 ++ [nacked])).acked (2 * 1 + (specChunks .unlimited (2 * 1)).length) ∧
    ((bench open10 .unlimited (quietEnv 3 ++ [nacked])).choiceAt 3).ack = false ∧
    (∃ t, exec (.fill 1) (bench open10 .unlimited (quietEnv 3 ++ [nacked])) = .next t ∧ t.st.halted = false) ∧
    1 = min (1 : Count).toNat (76800 - (bench open10 .unlimited []).st.bytesDelivered.toNat) ∧
    (bench open10 .unlimited []).st.bytesDelivered.toNat + 1 ≠ 76800 ∧
    (withFrame [1, 2, 3] 1 (bench (block true 76799 0 false) (.atMost 1 (by decide)) (quietEnv 4))).acked
      (2 * 1 + (specChunks (.atMost 1 (by decide)) (2 * 1)).length) ∧
    1 = min (5 : Count).toNat (76800 - (bench (block true 76799 0 false) .unlimited []).st.bytesDelivered.toNat) ∧
    1 + 2 * 1 ≤ [1, 2, 3].length ∧
    ∃ t, exec (.fill 5) (withFrame [1, 2, 3] 1 (bench (block true 76799 0 false) (.atMost 1 (by decide)) (quietEnv 4)))
      = .next t := by
  refine ⟨?_, rfl, ⟨_, rfl, rfl⟩, by decide, by decide, ?_, by decide, by decide, _, rfl⟩
  · unfold State.acked
    decide
  · unfold State.acked
    decide

/-- DrainStreamsFrame: three windows, one empty and the last too large, over the last two bytes of a frame, with the
transfer after its own six not acknowledged. -/
theorem witness_drain :
    (withFrame [1, 2, 3, 4] 0 (bench (block true 76798 0 false) .unlimited (quietEnv 6 ++ [nacked]))).acked
      (drainTransfers .unlimited 2 (([{ size := 1, cells := [] }, Window.empty, window5] : List Window).map
        fun w => min w.size 16777215)) ∧
    ((bench open10 .unlimited (quietEnv 6 ++ [nacked])).choiceAt 6).ack = false ∧
    2 = 76800 - (bench (block true 76798 0 false) .unlimited []).st.bytesDelivered.toNat ∧
    2 = min 2 (([{ size := 1, cells := [] }, Window.empty, window5] : List Window).map fun w => min w.size 16777215).sum ∧
    0 + 2 * 2 ≤ [1, 2, 3, 4].length := by
  refine ⟨?_, rfl, by decide, by decide, by decide⟩
  unfold State.acked
  decide

/-- WindowBeyondCountUntouched, its three clauses. -/
theorem witness_window_beyond : (∃ t, exec (.burst 4) (bench open10 .unlimited (quietEnv 5)) = .next t) ∧
    (4 : Count).toNat ≤ 4 ∧
    (∃ t, exec (.fill 1) (bench open10 .unlimited (quietEnv 3)) = .next t) ∧
    min (1 : Count).toNat (76800 - (bench open10 .unlimited []).st.bytesDelivered.toNat) ≤ 1 ∧
    (∃ t, exec .flen (bench open10 .unlimited (quietEnv 6)) = .next t) ∧ (∀ n, Instr.flen ≠ .burst n) ∧
    (∀ w, Instr.flen ≠ .fill w) :=
  ⟨⟨_, rfl⟩, by decide, ⟨_, rfl⟩, by decide, ⟨_, rfl⟩, fun _ => by simp, fun _ => by simp⟩

/-- BusFaultEffect, HaltsOnlyOnFailedTransfer, FaultingWindowDrawn, and the halting clause of
FieldsWrittenOnlyByTheirCommands: vector X5. -/
theorem witness_bus_fault : (bench open10 .unlimited []).st.halted = false ∧ (bench open10 .unlimited []).st.sel = false ∧
    3 = min (3 : Count).toNat (76800 - (bench open10 .unlimited []).st.bytesDelivered.toNat) ∧
    ∃ t, exec (.fill 3) (bench open10 .unlimited [acked 0, acked 0x12, acked 0x34, nacked]) = .next t ∧
      t.st.halted = true := ⟨rfl, rfl, by decide, _, rfl, rfl⟩

/-- FaultingWindowDrawn for a BURST. -/
theorem witness_burst_fault : (4 : Count).toNat = 4 ∧
    ∃ t, exec (.burst 4) (bench open10 .unlimited [acked 0, acked 0x12, nacked]) = .next t ∧
      t.st.halted = true := ⟨rfl, _, rfl, rfl⟩

/-- WriteBusFault at the start write's data byte (vector X3), at its command byte, and of a WRREG at both: the
clear write stays done. -/
theorem witness_write_fault :
    (bench idle .unlimited (quietEnv 3 ++ [nacked])).acked 3 ∧
    ((bench idle .unlimited (quietEnv 3 ++ [nacked])).choiceAt 3).ack = false ∧
    (∃ t, exec .trig (bench idle .unlimited (quietEnv 3 ++ [nacked])) = .next t ∧
      t.ctl = { cleared := true, done := .known false, fifo := .unknown } ∧ t.st = block false 0 0 true) ∧
    seen (exec .trig (bench idle .unlimited (quietEnv 2 ++ [nacked]))) =
      some (0x40000000, [.sel, .tx 0x90, .tx 0x01, .desel, .sel, .desel], block false 0 0 true) ∧
    seen (exec (.wrreg 0x12 0x34) (bench idle .unlimited [nacked])) =
      some (0x40000000, [.sel, .desel], block false 0 0 true) ∧
    seen (exec (.wrreg 0x12 0x34) (bench idle .unlimited [acked 0, nacked])) =
      some (0x40000000, [.sel, .tx 0x92, .desel], block false 0 0 true) := by
  refine ⟨?_, rfl, ⟨_, rfl, rfl, rfl⟩, by decide, by decide, by decide⟩
  unfold State.acked
  decide

/-- WriteBusFault of a TRIG in its clear write, at the command byte, and at a data byte that had its effect all the
same: the clear write does not count. -/
theorem witness_clear_fault :
    seen (exec .trig (bench idle .unlimited [nacked])) = some (0x40000000, [.sel, .desel], block false 0 0 true) ∧
    ∃ t, exec .trig (bench idle .unlimited [acked 0, { nacked with landed := true }]) = .next t ∧
      t.trace = [.sel, .tx 0x90, .desel] ∧ t.ctl = { cleared := false, done := .known false, fifo := .unknown } ∧
      t.st = block false 0 0 true :=
  ⟨by decide, _, rfl, rfl, rfl, rfl⟩

/-- ReadBusFault: vector X4, and a POLL. -/
theorem witness_read_fault :
    seen (exec .flen (bench (block true 0 0 false) .unlimited [acked 0, acked 0x5A, acked 0, nacked])) =
      some (0x40000000, [.sel, .tx 0x30, .rx 0x5A, .desel, .sel, .tx 0x31, .desel], block true 0 0 true) ∧
    seen (exec .poll (bench idle .unlimited [acked 0, nacked])) =
      some (0x40000000, [.sel, .tx 0x20, .desel], block false 0 0 true) := by decide

/-- BurstBusFault at the command byte and at the last receive. -/
theorem witness_burst_fault_at : (2 : Count) ≠ 0 ∧ (2 : Count).toNat ≤ window5.size ∧
    (∃ t, exec (.burst 2) (withFrame [1, 2] 0 (bench open10 .unlimited [nacked])) = .next t ∧
      t.trace = [.sel, .desel] ∧ t.ctl.fifo = .complete [1, 2] 0 153600) ∧
    ∃ t, exec (.burst 2) (withFrame [1, 2] 0 (bench open10 .unlimited [acked 0, acked 0, nacked])) = .next t ∧
      t.trace = [.sel, .tx 0x40, .rx 1, .desel] ∧ t.ctl.fifo = .complete [1, 2] 1 153600 :=
  ⟨by decide, by decide, ⟨_, rfl, rfl, rfl⟩, _, rfl, rfl, rfl⟩

/-- FillBusFault: vector X5, two FIFO bytes consumed all the same, and a fault in the second of two windows. -/
theorem witness_fill_fault_at : 3 < 2 * 3 + 1 ∧ 4 < 2 * 2 + 2 ∧
    (∃ t, exec (.fill 3) (withFrame [0x12, 0x34, 0x56] 0 (bench open10 .unlimited (quietEnv 3 ++ [nacked]))) = .next t ∧
      t.trace = [.sel, .tx 0x40, .rx 0x12, .rx 0x34, .desel] ∧ t.st = block true 10 20 true ∧
      t.ctl.fifo = .complete [0x12, 0x34, 0x56] 2 153600) ∧
    ∃ t, exec (.fill 2) (withFrame [1, 2, 3, 4] 0 (bench open10 atMost3 (quietEnv 4 ++ [nacked]))) = .next t ∧
      t.trace = [.sel, .tx 0x40, .rx 1, .rx 2, .rx 3, .desel, .sel, .desel] ∧
      t.ctl.fifo = .complete [1, 2, 3, 4] 3 153600 :=
  ⟨by decide, by decide, ⟨_, rfl, rfl, rfl, rfl⟩, _, rfl, rfl, rfl⟩

/-- FillBusFault with no capture complete: the byte received is the draw of its own transfer. -/
theorem witness_fill_fault_draws :
    (∀ frame pos len, (bench open10 .unlimited (burstOf [7] ++ [nacked])).ctl.fifo ≠ .complete frame pos len) ∧
    (∀ k, k ≤ 2 → ((bench open10 .unlimited (burstOf [7] ++ [nacked])).choiceAt (0 + k)).move = .nothing) ∧
    ∃ t, exec (.fill 1) (bench open10 .unlimited (burstOf [7] ++ [nacked])) = .next t ∧
      t.trace = [.sel, .tx 0x40, .rx 7, .desel] ∧ t.ctl.fifo = .unknown :=
  ⟨(fun _ _ _ h => by cases h), by decide, _, rfl, rfl, rfl⟩

/-- A bench whose transfers are acknowledged for ever and whose host does `loop` again and again. -/
def forEver (loop : List Input) (s : State) : State :=
  { s with env := { first := [], again := [acked 0] }, hostLoop := loop }

/-- The two states of 60_exceptions.md R136: a stalled capture that the host polls, and a capture one byte short
that the host asks the length of before it triggers again. -/
def stalled : State :=
  capturing (forEver [.command { word := 0x50000000, window := window5 }] (bench open10 .unlimited []))
def short : State :=
  { forEver [.command { word := 0x60000000, window := window5 }, .command { word := 0x40000000, window := window5 }]
      (bench open10 .unlimited []) with
    ctl := { cleared := true, done := .known true, fifo := .complete [] 0 153599 } }

theorem goes_round {s : State} (h : s.env = { first := [], again := [acked 0] }) (k : Nat) :
    (s.choiceAt k).ack = true ∧ (s.choiceAt k).move = .nothing ∧ (s.choiceAt k).report = none := by
  rw [show s.choiceAt k = acked 0 by simp [State.choiceAt, scriptChoice, h, Nat.mod_one]]
  exact ⟨rfl, rfl, rfl⟩

/-- LivenessFailuresNeverEnd, its first clause. -/
theorem witness_stalled :
    stalled.st.halted = false ∧ stalled.st.sel = false ∧
    (∀ k, (stalled.choiceAt k).ack = true ∧ (stalled.choiceAt k).move = .nothing ∧ (stalled.choiceAt k).report = none) ∧
    stalled.ctl = { cleared := true, done := .known false, fifo := .capturing } ∧
    BitVec.ofNat 8 stalled.params.regStatus.toNat ≠ stalled.params.burstCmd ∧ stalled.inbox = [] ∧
    stalled.hostLoop = [.command { word := 0x50000000, window := window5 }] ∧ decode 0x50000000 = .ok .poll :=
  ⟨rfl, rfl, goes_round rfl, rfl, by decide, rfl, rfl, by decide⟩

/-- LivenessFailuresNeverEnd, its second clause. -/
theorem witness_short :
    short.st.halted = false ∧ short.st.sel = false ∧ short.st.triggered = true ∧
    (∀ k, (short.choiceAt k).ack = true ∧ (short.choiceAt k).move = .nothing ∧ (short.choiceAt k).report = none) ∧
    short.ctl.fifo = .complete [] 0 153599 ∧ (153599#23).toNat < 153600 ∧
    [short.params.regStatus, short.params.regLenLo, short.params.regLenMid, short.params.regLenHi].Nodup ∧
    (∀ a ∈ [short.params.regLenLo, short.params.regLenMid, short.params.regLenHi],
      BitVec.ofNat 8 a.toNat ≠ short.params.burstCmd) ∧ short.inbox = [] ∧
    short.hostLoop = [.command { word := 0x60000000, window := window5 },
      .command { word := 0x40000000, window := window5 }] ∧
    decode 0x60000000 = .ok .flen ∧ decode 0x40000000 = .ok .trig :=
  ⟨rfl, rfl, rfl, goes_round rfl, rfl, by decide, by decide, by decide, rfl, rfl, by decide, by decide⟩

/-- SelectDisciplineKept, SessionInvariantKept, WindowsStayCanonical, at the last byte of a frame. -/
theorem witness_invariants :
    (asked 0x80000001 (bench (block true 76799 0 false) .unlimited (quietEnv 3))).selectOk ∧
    (asked 0x80000001 (bench (block true 76799 0 false) .unlimited (quietEnv 3))).sessionOk ∧
    (asked 0x80000001 (bench (block true 76799 0 false) .unlimited (quietEnv 3))).windowsOk ∧
    ∃ t, step (asked 0x80000001 (bench (block true 76799 0 false) .unlimited (quietEnv 3))) = .next t ∧
      t.st.triggered = false := by
  refine ⟨⟨rfl, rfl⟩, ⟨by decide, fun _ => rfl⟩, by unfold State.windowsOk; decide, _, rfl, rfl⟩

/-- SessionOpensOnlyByTrig, and the second case of ObservationsOnlyGrow. -/
theorem witness_session_opens : (asked 0x40000000 (bench idle .unlimited (quietEnv 4))).selectOk ∧
    (asked 0x40000000 (bench idle .unlimited (quietEnv 4))).st.triggered = false ∧
    ∃ t, step (asked 0x40000000 (bench idle .unlimited (quietEnv 4))) = .next t ∧ t.st.triggered = true :=
  ⟨⟨rfl, rfl⟩, rfl, _, rfl, rfl⟩

/-- FillKeepsOffsetTwiceDelivered. -/
theorem witness_offset : (bench open10 .unlimited []).st.bytesDelivered.toNat < 76800 ∧
    (bench open10 .unlimited []).st.srcOffset.toNat = 2 * (bench open10 .unlimited []).st.bytesDelivered.toNat ∧
    ∃ t, exec (.fill 1) (bench open10 .unlimited (quietEnv 3)) = .next t ∧ t.st.triggered = true :=
  ⟨by decide, by decide, _, rfl, rfl⟩

end Sys2Proof.Tests
end

section
/-! Every command ends with exactly one response, and which fields it may set (00_scope.md R15, 30_encoding.md R70). -/

namespace Sys2Proof.Machine

/-- What the format of 30_encoding.md R70 lets a response to `i` hold. -/
def AllowedResponse (i : Instr) (r : Response) : Prop :=
  (r.status ≠ .ok → r.last = false ∧ r.done = false ∧ r.payload = 0) ∧
    (r.last = true → ∃ w, i = .fill w) ∧ (r.done = true → i = .poll)

theorem plainResponse_allowed (i : Instr) (status : Status) : AllowedResponse i (plainResponse status) :=
  ⟨fun _ => ⟨rfl, rfl, rfl⟩, nofun, nofun⟩

theorem CompletedResponse.allowed {i : Instr} {n : Nat} {b : Block} {r : Response}
    (h : CompletedResponse i n b r) : AllowedResponse i r := by
  obtain ⟨hok, hdone, hlast⟩ := h
  exact ⟨fun hne => absurd hok hne, fun hl => (hlast.1 hl).1, hdone⟩

theorem QuietResponse.allowed {i : Instr} {s : State} {r : Response} (h : QuietResponse i s r) :
    AllowedResponse i r := by
  obtain ⟨hplain, hdone, hlast, -, -⟩ := h
  refine ⟨fun hne => ?_, fun hl => (hlast hl).1, fun hd => ?_⟩
  · rw [hplain hne]
    exact ⟨rfl, rfl, rfl⟩
  · rw [hdone] at hd
    cases hd

/-- A command of a block that is not halted adds one allowed response, however it ends. -/
theorem Ended.answers {i : Instr} {s t : State} (h : Ended i s t) :
    ∃ r ws, t.answers = s.answers ++ [⟨r, ws⟩] ∧ AllowedResponse i r := by
  cases h with
  | quiet r response result =>
    refine ⟨r, [], ?_, response.allowed⟩
    rw [result, State.respond_answers]
    split
    · rw [closeSession_answers]
    · rfl
  | completed u bs r by_ =>
    exact ⟨r, offsetsFrom 0 bs, by rw [by_.result], by_.response.allowed⟩
  | faulted u bs by_ =>
    exact ⟨plainResponse .busFault, offsetsFrom 0 bs, by rw [by_.result], plainResponse_allowed i _⟩

/-- Every command adds one allowed response, of a halted block too. -/
theorem exec_answers {i : Instr} {s t : State} (hsel : s.st.sel = false) (h : exec i s = .next t) :
    ∃ r ws, t.answers = s.answers ++ [⟨r, ws⟩] ∧ AllowedResponse i r := by
  rcases hh : s.st.halted with _ | _
  · exact (exec_ended hsel hh h).answers
  · rw [exec_of_halted i hh] at h
    obtain rfl := Host.Outcome.next.inj h
    exact ⟨plainResponse .halted, [], State.respond_answers _ _ s, plainResponse_allowed i _⟩

end Sys2Proof.Machine

namespace Sys2Proof

/-- Settles O14: the halted block answers at once, and `Ended` lists the three ways any other command ends. -/
theorem oneResponsePerCommand : Obligations.OneResponsePerCommand := by
  unfold Obligations.OneResponsePerCommand
  intro i s t hsel h
  exact Machine.exec_answers hsel h

end Sys2Proof
end

section
/-! What a command and a step do to the block's record and to the observations, and what `FLEN` and a register write do
to the capture controller (10_state.md R20, R24, R25, R32, R36, R37). -/

namespace Sys2Proof.Machine

/-! ### Register writes (20_memory.md R52) -/

@[simp] theorem isClearWrite_iff (p : Params) (a : RegAddr) (v : Byte) :
    isClearWrite p a v = true ↔ a = p.regClr ∧ v = p.valClr := decide_eq_true_iff

@[simp] theorem isStartWrite_iff (p : Params) (a : RegAddr) (v : Byte) :
    isStartWrite p a v = true ↔ a = p.regStart ∧ v = p.valStart := decide_eq_true_iff

/-- The clear write, where it is not the start write too, clears the flag. -/
theorem Controller.writeRegister_of_clear (c : Controller) {p : Params} {a : RegAddr} {v : Byte}
    (hc : a = p.regClr ∧ v = p.valClr) (hs : ¬(a = p.regStart ∧ v = p.valStart)) :
    c.writeRegister p a v = { c with done := .known false } := by
  rw [Controller.writeRegister, if_neg (by simpa using hs), if_pos (by simpa using hc)]

/-- The start write, where it is not the clear write too, starts a capture. -/
theorem Controller.writeRegister_of_start (c : Controller) {p : Params} {a : RegAddr} {v : Byte}
    (hs : a = p.regStart ∧ v = p.valStart) (hc : ¬(a = p.regClr ∧ v = p.valClr)) :
    c.writeRegister p a v = { c with fifo := .capturing } := by
  rw [Controller.writeRegister, if_pos (by simpa using hs), if_neg (by simpa using hc)]

/-- A write that is both the clear and the start write does both (log entry 12). -/
theorem Controller.writeRegister_of_both (c : Controller) {p : Params} {a : RegAddr} {v : Byte}
    (hs : a = p.regStart ∧ v = p.valStart) (hc : a = p.regClr ∧ v = p.valClr) :
    c.writeRegister p a v = { c with done := .known false, fifo := .capturing } := by
  rw [Controller.writeRegister, if_pos (by simpa using hs), if_pos (by simpa using hc)]

/-- Any other write leaves the controller unconstrained (93_implementation_defined.md U5). -/
theorem Controller.writeRegister_of_other (c : Controller) {p : Params} {a : RegAddr} {v : Byte}
    (hc : ¬(a = p.regClr ∧ v = p.valClr)) (hs : ¬(a = p.regStart ∧ v = p.valStart)) :
    c.writeRegister p a v = c.unconstrain := by
  rw [Controller.writeRegister, if_neg (by simpa using hs), if_neg (by simpa using hc)]

/-! ### The length registers of a completed capture (10_state.md R32, 20_memory.md R51) -/

/-- A completed capture reports its own length, or the one it has come to report (log entry 26). -/
theorem Controller.report_fifo_of_complete {c : Controller} {frame : List Byte} {pos : Nat} {len : BitVec 23}
    (h : c.fifo = .complete frame pos len) (new : Option (BitVec 23)) :
    (c.report new).fifo = .complete frame pos (new.getD len) := by
  cases new <;> simp [Controller.report, h]

/-- Transfers that do not consume a completed capture leave the controller as it is. -/
theorem State.ctlAfter_of_complete {s : State} {frame : List Byte} {pos : Nat} {len : BitVec 23}
    (h : s.ctl.fifo = .complete frame pos len) : ∀ n, s.ctlAfter n = s.ctl
  | 0 => rfl
  | n + 1 => by rw [State.ctlAfter, ctlAfter_of_complete h n, Controller.move_of_complete h]

/-- A read whose command byte is not `BURST_CMD` is a register read (log entry 28). -/
theorem Controller.takesBurst_eq_false {p : Params} {a : RegAddr} (h : BitVec.ofNat 8 a.toNat ≠ p.burstCmd)
    (e : EnvChoice) : Controller.takesBurst p a e = false := by
  rw [Controller.takesBurst, readCommand_eq, decide_eq_false h, Bool.false_and]

@[simp] theorem State.afterRead_params (a : RegAddr) (s : State) : (s.afterRead a).params = s.params := rfl
@[simp] theorem State.afterRead_answers (a : RegAddr) (s : State) : (s.afterRead a).answers = s.answers := rfl

/-- A register read leaves a completed capture as it is. -/
theorem State.afterRead_ctl_of_complete {s : State} {frame : List Byte} {pos : Nat} {len : BitVec 23} {a : RegAddr}
    (h : s.ctl.fifo = .complete frame pos len) (ha : BitVec.ofNat 8 a.toNat ≠ s.params.burstCmd) :
    (s.afterRead a).ctl = s.ctl := by
  simp [State.afterRead, Controller.windowNext, Controller.takesBurst_eq_false ha, State.ctlAfter_of_complete h]

/-- The byte of a register read while a capture is complete. -/
theorem State.byteRead_of_complete {s : State} {frame : List Byte} {pos : Nat} {len : BitVec 23} {a : RegAddr}
    (h : s.ctl.fifo = .complete frame pos len) (ha : BitVec.ofNat 8 a.toNat ≠ s.params.burstCmd) :
    s.byteRead a = s.ctl.readRegister s.params a (s.drawAt 1) := by
  simp [State.byteRead, Controller.windowByte, Controller.takesBurst_eq_false ha, State.ctlAfter_of_complete h,
    State.drawAt]

/-- The length registers are at addresses of their own, and their read commands are not `BURST_CMD`. -/
structure LengthRegistersApart (p : Params) : Prop where
  lo_status : p.regLenLo ≠ p.regStatus
  mid_status : p.regLenMid ≠ p.regStatus
  hi_status : p.regLenHi ≠ p.regStatus
  mid_lo : p.regLenMid ≠ p.regLenLo
  hi_lo : p.regLenHi ≠ p.regLenLo
  hi_mid : p.regLenHi ≠ p.regLenMid
  lo_burst : BitVec.ofNat 8 p.regLenLo.toNat ≠ p.burstCmd
  mid_burst : BitVec.ofNat 8 p.regLenMid.toNat ≠ p.burstCmd
  hi_burst : BitVec.ofNat 8 p.regLenHi.toNat ≠ p.burstCmd

section LengthRegisters

variable {c : Controller} {p : Params} {frame : List Byte} {pos : Nat} {len : BitVec 23}

/-- The low length register of a completed capture. -/
theorem Controller.readRegister_lenLo (h : c.fifo = .complete frame pos len) (hp : LengthRegistersApart p)
    (draw : Byte) : c.readRegister p p.regLenLo draw = len.extractLsb' 0 8 := by
  simp [Controller.readRegister, h, hp.lo_status]

/-- The middle length register of a completed capture. -/
theorem Controller.readRegister_lenMid (h : c.fifo = .complete frame pos len) (hp : LengthRegistersApart p)
    (draw : Byte) : c.readRegister p p.regLenMid draw = len.extractLsb' 8 8 := by
  simp [Controller.readRegister, h, hp.mid_status, hp.mid_lo]

/-- The high length register of a completed capture: its bit 7 is drawn. -/
theorem Controller.readRegister_lenHi (h : c.fifo = .complete frame pos len) (hp : LengthRegistersApart p)
    (draw : Byte) : c.readRegister p p.regLenHi draw = draw.extractLsb' 7 1 ++ len.extractLsb' 16 7 := by
  simp [Controller.readRegister, h, hp.hi_status, hp.hi_lo, hp.hi_mid]

end LengthRegisters

/-- The three bytes assemble to the length, whatever bit 7 of the high one is (30_encoding.md R65). -/
theorem assembleLength_of_length (len : BitVec 23) (top : BitVec 1) :
    assembleLength (len.extractLsb' 0 8) (len.extractLsb' 8 8) (top ++ len.extractLsb' 16 7) =
      BitVec.ofNat 24 len.toNat := by
  have hlen := len.isLt
  rw [assembleLength_eq, Laws.CommandWord.toNat_append_eq]
  simp only [BitVec.extractLsb'_toNat, Nat.shiftRight_eq_div_pow]
  congr 1
  omega

/-- The three reads of `FLEN` leave a completed capture as it is and assemble the length it reports. -/
theorem lengthRead_of_complete {s : State} {frame : List Byte} {pos : Nat} {len : BitVec 23}
    (h : s.ctl.fifo = .complete frame pos len) (hp : LengthRegistersApart s.params) :
    lengthRead s = BitVec.ofNat 24 len.toNat ∧
      (((s.afterRead s.params.regLenLo).afterRead s.params.regLenMid).afterRead s.params.regLenHi).ctl = s.ctl := by
  have h1 := State.afterRead_ctl_of_complete h hp.lo_burst
  have h1' := h1 ▸ h
  have h2 := (State.afterRead_ctl_of_complete h1' hp.mid_burst).trans h1
  have h2' := h2 ▸ h
  refine ⟨?_, (State.afterRead_ctl_of_complete h2' hp.hi_burst).trans h2⟩
  rw [lengthRead, State.byteRead_of_complete h hp.lo_burst, State.byteRead_of_complete h1' hp.mid_burst,
    State.byteRead_of_complete h2' hp.hi_burst, h1, h2]
  simp only [State.afterRead_params]
  rw [Controller.readRegister_lenLo h hp, Controller.readRegister_lenMid h hp, Controller.readRegister_lenHi h hp,
    assembleLength_of_length]

/-- `FLEN` with its six transfers acknowledged (41_capture_control.md R95). -/
theorem exec_flen_of_acked {s : State} (hrun : s.st.halted = false) (hsel : s.st.sel = false) (hack : s.acked 6) :
    exec .flen s = .next ((((s.reported.afterRead s.params.regLenLo).afterRead s.params.regLenMid).afterRead
      s.params.regLenHi).respond (okResponse (lengthRead s.reported)) []) := by
  obtain ⟨len, u, he, -, -, rfl, rfl⟩ := (readLength_spec hsel).done_of_acked hack
  simp [exec, execFlen, unlessHalted_of_running _ hrun, he, Bus.settle]

/-! ### What a command does to the record `st` and to the observations -/

/-- All that a command can do, of a halted block too. -/
theorem exec_outcome {i : Instr} {s t : State} (hsel : s.st.sel = false) (h : exec i s = .next t) :
    t = s.respond (plainResponse .halted) [] ∨ Ended i s t := by
  rcases hh : s.st.halted with _ | _
  · exact .inr (exec_ended hsel hh h)
  · rw [exec_of_halted i hh] at h
    exact .inl (Host.Outcome.next.inj h).symm

/-- A move of the bus that leaves the select line as it was leaves the record as it was. -/
theorem BusMoves.st_eq {s u : State} (h : BusMoves s u) (hsel : u.st.sel = s.st.sel) : u.st = s.st := by
  rw [h.st, hsel]

/-- All that a command can do to the record `st` (10_state.md R20): keep it; close a session at the frame's end
without a byte delivered, which the session invariant rules out; complete; or halt. -/
inductive RecordAfter (i : Instr) (s t : State) : Prop where
  | kept (result : t.st = s.st)
  | closed (full : (∃ w, i = .fill w) ∧ s.st.bytesDelivered.toNat = 76800) (result : t.st = (closeSession s).st)
  | completed (session : (∃ w, i = .fill w) → s.st.triggered = true)
      (result : t.st = completedBlock i (windowCount s i) s.st)
  | faulted (ws : List (Nat × Byte)) (answer : t.answers = s.answers ++ [⟨plainResponse .busFault, ws⟩])
      (result : t.st = { s.st with halted := true })

/-- Every command leaves the record in one of the ways of `RecordAfter`. -/
theorem exec_record {i : Instr} {s t : State} (hsel : s.st.sel = false) (h : exec i s = .next t) :
    RecordAfter i s t := by
  rcases exec_outcome hsel h with rfl | ended
  · exact .kept rfl
  cases ended with
  | quiet r response result =>
    obtain ⟨-, -, hlast, -, -⟩ := response
    rw [result]
    split
    · exact .closed (hlast ‹_›) rfl
    · exact .kept rfl
  | completed u bs r by_ =>
    refine .completed by_.refusals.2 ?_
    rw [by_.result, by_.count, by_.moves.st_eq (by_.idle.trans hsel.symm)]
  | faulted u bs by_ =>
    refine .faulted (offsetsFrom 0 bs) (by rw [by_.result]) ?_
    rw [by_.result, by_.moves.st, ← hsel]

section CompletedBlock

variable (i : Instr) (n : Nat) (b : Block)

@[simp] theorem completedBlock_halted : (completedBlock i n b).halted = b.halted := by
  cases i with
  | fill w => rw [completedBlock]; split <;> rfl
  | _ => rfl

@[simp] theorem completedBlock_sel : (completedBlock i n b).sel = b.sel := by
  cases i with
  | fill w => rw [completedBlock]; split <;> rfl
  | _ => rfl

variable {i}

/-- Only `TRIG` and `FILL` write the session's fields. -/
theorem completedBlock_session (htrig : i ≠ .trig) (hfill : ∀ w, i ≠ .fill w) :
    (completedBlock i n b).triggered = b.triggered ∧ (completedBlock i n b).bytesDelivered = b.bytesDelivered := by
  cases i with
  | trig => exact absurd rfl htrig
  | fill w => exact absurd rfl (hfill w)
  | _ => exact ⟨rfl, rfl⟩

/-- Only `TRIG`, `FILL` and `BURST` write the raw offset. -/
theorem completedBlock_srcOffset (htrig : i ≠ .trig) (hfill : ∀ w, i ≠ .fill w) (hburst : ∀ m, i ≠ .burst m) :
    (completedBlock i n b).srcOffset = b.srcOffset := by
  cases i with
  | trig => exact absurd rfl htrig
  | fill w => exact absurd rfl (hfill w)
  | burst m => exact absurd rfl (hburst m)
  | _ => rfl

end CompletedBlock

/-- A command leaves alone the open parameters, the environment's script, the host's queue and its loop (log entries
1, 2, 4, 17). -/
theorem exec_keeps_inputs {i : Instr} {s t : State} (hsel : s.st.sel = false) (h : exec i s = .next t) :
    t.params = s.params ∧ t.env = s.env ∧ t.inbox = s.inbox ∧ t.hostLoop = s.hostLoop := by
  rcases exec_outcome hsel h with rfl | ⟨r, -, rfl⟩ | ⟨u, bs, r, c⟩ | ⟨u, bs, c⟩
  · exact ⟨rfl, rfl, rfl, rfl⟩
  · split <;> exact ⟨rfl, rfl, rfl, rfl⟩
  · rw [c.result]
    exact ⟨c.moves.params, c.moves.env, c.moves.inbox, c.moves.hostLoop⟩
  · rw [c.result]
    exact ⟨c.moves.params, c.moves.env, c.moves.inbox, c.moves.hostLoop⟩

/-- A command only adds to the bus trace (20_memory.md R42). -/
theorem exec_trace_grows {i : Instr} {s t : State} (hsel : s.st.sel = false) (h : exec i s = .next t) :
    ∃ es, t.trace = s.trace ++ es := by
  rcases exec_outcome hsel h with rfl | ⟨r, -, rfl⟩ | ⟨u, bs, r, c⟩ | ⟨u, bs, c⟩
  · exact ⟨[], by simp⟩
  · exact ⟨[], by split <;> simp⟩
  · obtain ⟨es, hes, -⟩ := c.moves.trace
    exact ⟨es, by rw [c.result, hes]⟩
  · obtain ⟨es, hes, -⟩ := c.moves.trace
    exact ⟨es ++ [.desel], by rw [c.result, hes, List.append_assoc]⟩

/-! ### The session (10_state.md R24, R25) -/

/-- The bytes of a `FILL` never carry the count past the end of the frame (42_burst_stream.md R105). -/
theorem toNat_add_fillCount (w : Count) {d : BitVec 32} (h : d.toNat < Config.frameBytes) :
    (d + BitVec.ofNat 32 (fillCount w d)).toNat = d.toNat + fillCount w d ∧
      d.toNat + fillCount w d ≤ Config.frameBytes := by
  have hle : fillCount w d ≤ Config.frameBytes - d.toNat := min_le_right _ _
  simp only [Config.frameBytes] at *
  rw [BitVec.toNat_add, BitVec.toNat_ofNat]
  omega

/-- A `FILL` that completed short of the frame's end has added its bytes to the count, and twice as many to the raw
offset; at the frame's end it has closed the session. -/
theorem completedBlock_fill (w : Count) (n : Nat) (b : Block) :
    (b.bytesDelivered + BitVec.ofNat 32 n = 76800#32 ∧ (completedBlock (.fill w) n b).triggered = false ∧
        (completedBlock (.fill w) n b).bytesDelivered = 0) ∨
      (b.bytesDelivered + BitVec.ofNat 32 n ≠ 76800#32 ∧ (completedBlock (.fill w) n b).triggered = b.triggered ∧
        (completedBlock (.fill w) n b).bytesDelivered = b.bytesDelivered + BitVec.ofNat 32 n ∧
        (completedBlock (.fill w) n b).srcOffset = b.srcOffset + BitVec.ofNat 32 (2 * n)) := by
  simp only [completedBlock]
  split
  · exact .inl ⟨‹_›, rfl, rfl⟩
  · exact .inr ⟨‹_›, rfl, rfl, rfl⟩

/-- The session invariant depends on the session's fields alone. -/
theorem State.sessionOk.congr {s t : State} (h : s.sessionOk) (htr : t.st.triggered = s.st.triggered)
    (hb : t.st.bytesDelivered = s.st.bytesDelivered) : t.sessionOk := by
  rwa [State.sessionOk, htr, hb]

/-- No byte delivered: the session invariant holds, in a session or not. -/
theorem State.sessionOk_of_zero {s : State} (h : s.st.bytesDelivered = 0) : s.sessionOk := by
  simp [State.sessionOk, h]

/-- Every command keeps the session invariant (10_state.md R24). -/
theorem exec_keeps_sessionOk {i : Instr} {s t : State} (hsel : s.st.sel = false) (hs : s.sessionOk)
    (h : exec i s = .next t) : t.sessionOk := by
  cases exec_record hsel h with
  | kept result => exact hs.congr (by rw [result]) (by rw [result])
  | closed full result => exact State.sessionOk_of_zero (by rw [result]; rfl)
  | faulted ws answer result => exact hs.congr (by rw [result]) (by rw [result])
  | completed session result =>
    by_cases htrig : i = .trig
    · exact State.sessionOk_of_zero (by rw [result, htrig]; rfl)
    by_cases hfill : ∃ w, i = .fill w
    · obtain ⟨w, rfl⟩ := hfill
      rcases completedBlock_fill w (windowCount s (.fill w)) s.st with ⟨-, -, hb⟩ | ⟨hne, htr, hb, -⟩
      · exact State.sessionOk_of_zero (by rw [result, hb])
      · obtain ⟨hadd, hle⟩ := toNat_add_fillCount w hs.1
        refine ⟨?_, fun _ => by rw [result, htr, session ⟨w, rfl⟩]⟩
        rw [result, hb]
        exact lt_of_le_of_ne (hadd ▸ hle) fun e => hne (BitVec.eq_of_toNat_eq e)
    · obtain ⟨htr, hb⟩ := completedBlock_session (windowCount s i) s.st htrig fun w e => hfill ⟨w, e⟩
      exact hs.congr (by rw [result, htr]) (by rw [result, hb])

/-- An illegal word keeps the record and the bus trace and adds an answer (60_exceptions.md R126). -/
theorem illegalCommand_keeps (s : State) : (illegalCommand s).st = s.st ∧ (illegalCommand s).trace = s.trace ∧
    ∃ r, (illegalCommand s).answers = s.answers ++ [⟨r, []⟩] := by
  obtain ⟨r, -, -, h⟩ := illegalCommand_eq s
  rw [h]
  exact ⟨rfl, rfl, r, rfl⟩

end Sys2Proof.Machine

namespace Sys2Proof

open Machine

/-- Settles O22: one lemma for each of the four kinds of write. -/
theorem registerWriteEffects : Obligations.RegisterWriteEffects := by
  unfold Obligations.RegisterWriteEffects
  intro c p
  refine ⟨fun hne => ⟨?_, ?_⟩, fun ha hv => ?_, fun a v hc hs => ?_⟩
  · exact c.writeRegister_of_clear ⟨rfl, rfl⟩ fun e => hne.elim (absurd e.1) (absurd e.2)
  · exact c.writeRegister_of_start ⟨rfl, rfl⟩ fun e => hne.elim (absurd e.1.symm) (absurd e.2.symm)
  · exact c.writeRegister_of_both ⟨rfl, rfl⟩ ⟨ha.symm, hv.symm⟩
  · exact c.writeRegister_of_other (not_and_or.2 hc) (not_and_or.2 hs)

/-- Settles O31: the three reads find the capture as `State.reported` has left it, so their bytes are parts of one
length. -/
theorem flenReportsCaptureLength : Obligations.FlenReportsCaptureLength := by
  unfold Obligations.FlenReportsCaptureLength
  intro s t frame pos len hrun hsel hack hfifo ls ms hs ml hl hm lb mb hb h
  have hr : s.reported.ctl.fifo = .complete frame pos ((s.choiceAt s.drawn).report.getD len) :=
    Controller.report_fifo_of_complete hfifo _
  obtain ⟨hlen, hctl⟩ := lengthRead_of_complete hr ⟨ls, ms, hs, ml, hl, hm, lb, mb, hb⟩
  rw [exec_flen_of_acked hrun hsel hack] at h
  obtain rfl := Host.Outcome.next.inj h
  refine ⟨(s.choiceAt s.drawn).report.getD len, fun e => by rw [e]; rfl, fun new e => by rw [e]; rfl, ?_, ?_⟩
  · rw [State.respond_answers, hlen]
    rfl
  · rw [State.respond_ctl]
    exact hctl ▸ hr

/-- Settles O48: field by field over the ways a command can leave the record (`RecordAfter`). -/
theorem fieldsWrittenOnlyByTheirCommands : Obligations.FieldsWrittenOnlyByTheirCommands := by
  unfold Obligations.FieldsWrittenOnlyByTheirCommands
  intro i s t hsel h
  have inputs := exec_keeps_inputs hsel h
  cases exec_record hsel h with
  | kept result => simp +contextual [result, inputs]
  | closed full result =>
    obtain ⟨⟨w, rfl⟩, -⟩ := full
    simp +contextual [result, inputs]
  | completed session result =>
    rw [result]
    refine ⟨completedBlock_session _ _, completedBlock_srcOffset _ _, ?_⟩
    simp +contextual [inputs]
  | faulted ws answer result =>
    simp [result, inputs, answer, plainResponse]

/-- Settles O50: no step but a command changes the session, other than to reset it. -/
theorem sessionInvariantKept : Obligations.SessionInvariantKept := by
  unfold Obligations.SessionInvariantKept
  intro s t hsel hs h
  rcases step_cases h with ⟨-, rfl⟩ | ⟨rest, -, rfl⟩ | ⟨r, rest, -, ⟨i, -, hexec⟩ | rfl⟩
  · exact hs
  · exact State.sessionOk_of_zero rfl
  · exact exec_keeps_sessionOk (s := acceptCommand r rest s) hsel.1 hs hexec
  · have hst := (illegalCommand_keeps (acceptCommand r rest s)).1
    exact hs.congr (by rw [hst]; rfl) (by rw [hst]; rfl)

/-- Settles O56: a `FILL` that leaves the session open has added its bytes to the count and twice as many to the
offset, and neither sum wraps. -/
theorem fillKeepsOffsetTwiceDelivered : Obligations.FillKeepsOffsetTwiceDelivered := by
  unfold Obligations.FillKeepsOffsetTwiceDelivered
  intro w s t hsel hlt htwice h hopen
  cases exec_record hsel h with
  | kept result => rw [result, htwice]
  | closed full result => exact absurd full.2 hlt.ne
  | faulted ws answer result => rw [result, htwice]
  | completed session result =>
    rw [result] at hopen ⊢
    rcases completedBlock_fill w (windowCount s (.fill w)) s.st with ⟨-, hclosed, -⟩ | ⟨-, -, hb, ho⟩
    · exact absurd hopen (by simp [hclosed])
    · obtain ⟨hadd, hle⟩ := toNat_add_fillCount w hlt
      simp only [Config.frameBytes] at hle
      rw [hb, ho, windowCount, hadd, BitVec.toNat_add, BitVec.toNat_ofNat, htwice]
      omega

/-- Settles O57: the idle step observes nothing, a command adds to the trace and one answer. -/
theorem observationsOnlyGrow : Obligations.ObservationsOnlyGrow := by
  unfold Obligations.ObservationsOnlyGrow
  intro s t hsel h
  rcases step_cases h with ⟨-, rfl⟩ | ⟨rest, hin, rfl⟩ | ⟨r, rest, -, ⟨i, -, hexec⟩ | rfl⟩
  · exact .inr ⟨⟨[], by simp⟩, [], by simp⟩
  · exact .inl ⟨rest, hin, rfl, rfl⟩
  · have hsel' : (acceptCommand r rest s).st.sel = false := hsel.1
    obtain ⟨resp, ws, hans, -⟩ := exec_answers hsel' hexec
    exact .inr ⟨exec_trace_grows (s := acceptCommand r rest s) hsel' hexec, _, hans⟩
  · obtain ⟨-, htrace, resp, hans⟩ := illegalCommand_keeps (acceptCommand r rest s)
    exact .inr ⟨⟨[], by simp [htrace]⟩, _, hans⟩

end Sys2Proof
end

section
/-! The select discipline, the window, and the capture controller's FIFO as a `BURST` reads it (20_memory.md R43, R47,
R50, R52, R55). -/

namespace Sys2Proof.Machine

/-! ### The select discipline (20_memory.md R43) -/

/-- Events that begin and end deselected keep the select discipline. -/
theorem State.selectOk.extend {s t : State} {es : List BusEvent} (h : s.selectOk) (hsel : t.st.sel = false)
    (htrace : t.trace = s.trace ++ es) (hes : selectAfter false es = some false) : t.selectOk := by
  obtain ⟨-, hs⟩ := h
  refine ⟨hsel, ?_⟩
  rw [htrace, selectAfter_append, hs]
  exact hes

/-- The select discipline depends on the select line and the trace alone. -/
theorem State.selectOk.congr {s t : State} (h : s.selectOk) (hsel : t.st.sel = s.st.sel)
    (htrace : t.trace = s.trace) : t.selectOk :=
  h.extend (hsel.trans h.1) (by rw [htrace, List.append_nil]) rfl

/-- Every command keeps the select discipline: the events it adds are those of its bus operation, which ends
deselected, or is ended by the `Desel` of the bus fault. -/
theorem exec_keeps_selectOk {i : Instr} {s t : State} (hs : s.selectOk) (h : exec i s = .next t) : t.selectOk := by
  rcases exec_outcome hs.1 h with rfl | ended
  · exact hs.congr rfl rfl
  cases ended with
  | quiet r response result =>
    rw [result]
    split <;> exact hs.congr rfl rfl
  | completed u bs r by_ =>
    obtain ⟨es, htrace, hes⟩ := by_.moves.trace
    rw [hs.1, by_.idle] at hes
    rw [by_.result]
    exact hs.extend ((completedBlock_sel _ _ _).trans by_.idle) htrace hes
  | faulted u bs by_ =>
    obtain ⟨es, htrace, hes⟩ := by_.moves.trace
    rw [hs.1, by_.selected] at hes
    rw [by_.result]
    refine hs.extend (es := es ++ [.desel]) rfl (by rw [htrace, List.append_assoc]) ?_
    rw [selectAfter_append, hes]
    rfl

/-! ### The window (20_memory.md R47) -/

/-- A command that goes on has a window for all it is to write, or leaves the window alone. -/
theorem exec_window_fits {i : Instr} {s t : State} (h : exec i s = .next t) :
    windowCount s i ≤ s.window.size ∨ t.window = s.window := by
  rcases hh : s.st.halted with _ | _
  swap
  · rw [exec_of_halted i hh] at h
    exact .inr (by rw [← Host.Outcome.next.inj h, State.respond_window])
  cases i with
  | burst n =>
    simp only [exec, execBurst, hh, Bool.false_eq_true, if_false] at h
    split at h
    · exact .inl ‹_›
    · cases h
  | fill w =>
    simp only [exec, execFill, hh, Bool.false_eq_true, if_false] at h
    split at h
    · exact .inr (by rw [← Host.Outcome.next.inj h, State.respond_window])
    · split at h
      · exact .inl ‹_›
      · cases h
  | _ => exact .inl (Nat.zero_le _)

/-- Every command keeps its window canonical and within its size. -/
theorem exec_keeps_window_wf {i : Instr} {s t : State} (hsel : s.st.sel = false) (hw : s.window.wf = true)
    (h : exec i s = .next t) : t.window.wf = true := by
  rcases exec_window_fits h with hfits | hkept
  · obtain ⟨bs, hlen, hwin⟩ := exec_window hsel h
    rw [hwin]
    exact Window.wf_fill hw (hlen.trans hfits)
  · rwa [hkept]

/-- An illegal word leaves the window, the host's queue and its loop alone (60_exceptions.md R126). -/
theorem illegalCommand_keeps_windows (s : State) : (illegalCommand s).window = s.window ∧
    (illegalCommand s).inbox = s.inbox ∧ (illegalCommand s).hostLoop = s.hostLoop := by
  obtain ⟨r, -, -, h⟩ := illegalCommand_eq s
  rw [h]
  exact ⟨rfl, rfl, rfl⟩

/-- The invariant depends on the window, the host's queue and its loop alone. -/
theorem State.windowsOk.congr {s t : State} (h : s.windowsOk) (hw : t.window.wf = true) (hin : t.inbox = s.inbox)
    (hloop : t.hostLoop = s.hostLoop) : t.windowsOk := by
  obtain ⟨-, hq, hl⟩ := h
  exact ⟨hw, by rwa [hin], by rwa [hloop]⟩

/-- Taking up a command keeps the windows canonical: its window was in the queue. -/
theorem acceptCommand_windowsOk {r : Request} {rest : List Input} {s : State} (h : s.windowsOk)
    (hin : s.inbox = .command r :: rest) : (acceptCommand r rest s).windowsOk := by
  obtain ⟨-, hq, hl⟩ := h
  rw [hin, List.all_cons, Bool.and_eq_true] at hq
  exact ⟨hq.1, hq.2, hl⟩

/-- Above the count it was to write, a command leaves every window byte as it was. -/
theorem exec_window_beyond {i : Instr} {s t : State} {k : Nat} (hsel : s.st.sel = false) (h : exec i s = .next t)
    (hk : windowCount s i ≤ k) : Memory.read t.window.cells k = Memory.read s.window.cells k := by
  obtain ⟨bs, hlen, hwin⟩ := exec_window hsel h
  rw [hwin, Window.read_fill_outside _ (hlen.trans hk)]

/-- A command with no byte to write leaves the window alone. -/
theorem exec_window_of_count_zero {i : Instr} {s t : State} (hsel : s.st.sel = false) (h : exec i s = .next t)
    (hc : windowCount s i = 0) : t.window = s.window := by
  obtain ⟨bs, hlen, hwin⟩ := exec_window hsel h
  obtain rfl := List.eq_nil_of_length_eq_zero (Nat.le_zero.1 (hc ▸ hlen))
  rw [hwin, Window.fill_nil]

/-- Only `BURST` and `FILL` have window bytes to write. -/
theorem windowCount_eq_zero {i : Instr} (s : State) (hburst : ∀ n, i ≠ .burst n) (hfill : ∀ w, i ≠ .fill w) :
    windowCount s i = 0 := by
  cases i with
  | burst n => exact absurd rfl (hburst n)
  | fill w => exact absurd rfl (hfill w)
  | _ => rfl

/-! ### The capture controller's FIFO (20_memory.md R50, R52, R55) -/

/-- A capture in progress, or one that may be, completes. -/
theorem Controller.move_complete {c : Controller} (h : c.fifo = .capturing ∨ c.fifo = .unknown) (new : Capture) :
    c.move (.complete new) = { c with done := .known true, fifo := .complete new.frame 0 new.len } := by
  rcases h with h | h <;> simp [Controller.move, h]

/-- A `BURST` with its transfers acknowledged delivers the bytes the FIFO serves; a `BURST 0` is the delivery of no
bytes. -/
theorem exec_burst_of_acked {n : Count} {s t : State} (hrun : s.st.halted = false) (hsel : s.st.sel = false)
    (hack : s.acked (n.toNat + 1)) (h : exec (.burst n) s = .next t) :
    ∃ bs u, BusMoves s u ∧ bs.length = n.toNat ∧ FifoServes s u bs (s.draws (s.drawn + 1) n.toNat) ∧
      t = deliverRaw n.toNat bs u := by
  have hinto : t = burstInto n.toNat s := by
    simp only [exec, execBurst, hrun, Bool.false_eq_true, if_false] at h
    split at h
    · exact (Host.Outcome.next.inj h).symm
    · cases h
  rw [hinto, burstInto]
  split
  · rename_i hn
    rw [hn]
    refine ⟨[], s, BusMoves.refl s, rfl, FifoServes.none (fun _ _ _ _ => rfl) fun _ => rfl, ?_⟩
    simp [deliverRaw, State.consumed, State.fillWindow, offsetsFrom]
  · obtain ⟨bs, u, hread, hmoves, -, hlen, -, -, hserves⟩ := (burstRead_spec n.toNat hsel).done_of_acked hack
    exact ⟨bs, u, hmoves, hlen, hserves, by rw [hread]; rfl⟩

end Sys2Proof.Machine

namespace Sys2Proof

open Machine

/-- Settles O49: only a command adds to the trace, and `Reset` empties it. -/
theorem selectDisciplineKept : Obligations.SelectDisciplineKept := by
  unfold Obligations.SelectDisciplineKept
  intro s t hs h
  rcases step_cases h with ⟨-, rfl⟩ | ⟨rest, -, rfl⟩ | ⟨r, rest, -, ⟨i, -, hexec⟩ | rfl⟩
  · exact hs.congr rfl rfl
  · exact ⟨rfl, rfl⟩
  · exact exec_keeps_selectOk (s := acceptCommand r rest s) (hs.congr rfl rfl) hexec
  · obtain ⟨hst, htrace, -⟩ := illegalCommand_keeps (acceptCommand r rest s)
    exact hs.congr (by rw [hst]; rfl) htrace

/-- Settles O51: a step writes no window but the current one, and there no more bytes than it has. -/
theorem windowsStayCanonical : Obligations.WindowsStayCanonical := by
  unfold Obligations.WindowsStayCanonical
  intro s t hsel hs h
  rcases step_cases h with ⟨-, rfl⟩ | ⟨rest, hin, rfl⟩ | ⟨r, rest, hin, hcommand⟩
  · obtain ⟨hw, -, hl⟩ := hs
    exact ⟨hw, hl, hl⟩
  · obtain ⟨hw, hq, hl⟩ := hs
    rw [hin] at hq
    exact ⟨hw, hq, hl⟩
  · have hs' := acceptCommand_windowsOk hs hin
    rcases hcommand with ⟨i, -, hexec⟩ | rfl
    · have hsel' : (acceptCommand r rest s).st.sel = false := hsel.1
      obtain ⟨-, -, hq, hl⟩ := exec_keeps_inputs hsel' hexec
      exact hs'.congr (exec_keeps_window_wf hsel' hs'.1 hexec) hq hl
    · obtain ⟨hw, hq, hl⟩ := illegalCommand_keeps_windows (acceptCommand r rest s)
      exact hs'.congr (by rw [hw]; exact hs'.1) hq hl

/-- Settles O34: the bytes delivered are those the FIFO serves, and a FIFO that still holds them all serves its next
ones. -/
theorem burstConsumesFifoInOrder : Obligations.BurstConsumesFifoInOrder := by
  unfold Obligations.BurstConsumesFifoInOrder
  intro n s t frame pos len hrun hsel hack hfifo hroom h
  obtain ⟨bs, u, -, hlen, hserves, rfl⟩ := exec_burst_of_acked hrun hsel hack h
  have hbs : bs = (frame.drop pos).take n.toNat := hlen ▸ hserves.exact hfifo (hlen ▸ hroom)
  have hctl := (hserves.complete hfifo).1
  refine ⟨fun k hk => ?_, by rw [← hlen]; exact hctl⟩
  calc Memory.read (deliverRaw n.toNat bs u).window.cells k
    _ = bs[k]? := Window.read_fill_inside u.window (hlen ▸ hk)
    _ = frame[pos + k]? := by rw [hbs, List.getElem?_take_of_lt hk, List.getElem?_drop]

/-- Settles O40: the count of a command bounds the bytes it writes, and only `BURST` and `FILL` have a count. -/
theorem windowBeyondCountUntouched : Obligations.WindowBeyondCountUntouched := by
  unfold Obligations.WindowBeyondCountUntouched
  refine ⟨fun n s t k hsel h hk => ?_, fun w s t k hsel h hk => ?_, fun i s t hsel h hburst hfill => ?_⟩
  · exact exec_window_beyond hsel h hk
  · exact exec_window_beyond hsel h hk
  · exact exec_window_of_count_zero hsel h (windowCount_eq_zero s hburst hfill)

/-- Settles O23: one lemma for each move and phase of the controller. -/
theorem captureCompletes : Obligations.CaptureCompletes := by
  unfold Obligations.CaptureCompletes
  refine ⟨fun c capture h => ?_, fun c capture frame pos len h => ?_, fun c => ?_, fun s => rfl⟩
  · exact Controller.move_complete h capture
  · exact Controller.move_of_complete h _
  · exact Controller.move_nothing c

end Sys2Proof
end

section
/-! The command word and its decoder, both ways (30_encoding.md R66 to R69), the response word (R70, R71), and which
commands run to an answer (R66). -/

namespace Sys2Proof.Laws.CommandWord

/-! ### The command word as a number -/

/-- The command word of every command, as a number (30_encoding.md R66 to R68). -/
theorem encode_toNat (i : Instr) : (encode i).toNat = layout i := by
  cases i with
  | conv v => exact conv v
  | rdreg a => exact rdreg a
  | wrreg a v => exact wrreg a v
  | trig => exact trig
  | poll => exact poll
  | flen => exact flen
  | burst n => exact burst n
  | fill w => exact fill w

/-- A word is the word of a command where it has the command's number. -/
theorem encode_eq_iff {i : Instr} {w : Word32} : encode i = w ↔ layout i = w.toNat := by
  rw [← BitVec.toNat_inj, encode_toNat]

/-- No command sets a reserved bit (30_encoding.md R66). -/
theorem layout_reserved (i : Instr) : layout i / 2 ^ 24 % 2 ^ 4 = 0 := by
  cases i <;> simp only [layout] <;> omega

/-- A field of a word, as a number. -/
theorem toNat_field {w : Nat} (x : BitVec w) (start len : Nat) :
    (x.extractLsb' start len).toNat = x.toNat / 2 ^ start % 2 ^ len := by
  rw [BitVec.extractLsb'_toNat, Nat.shiftRight_eq_div_pow]

/-! ### The decoder -/

/-- A field of a word, compared by its number. -/
theorem field_eq_iff {w len : Nat} {x : BitVec w} {start : Nat} {y : BitVec len} :
    x.extractLsb' start len = y ↔ x.toNat / 2 ^ start % 2 ^ len = y.toNat := by
  rw [← BitVec.toNat_inj, toNat_field]

/-- An operand field whose unused bits must be zero (30_encoding.md R68). -/
theorem needZero_field {w : Word32} {start width : Nat} {i j : Instr} :
    needZero width (w.extractLsb' start width) i = .ok j ↔ w.toNat / 2 ^ start % 2 ^ width = 0 ∧ i = j := by
  simp only [needZero, field_eq_iff]
  split <;> simp_all

/-- What an operation code and an operand field decode to has them in its word, every operand bit included. -/
theorem layout_of_decodeOp {op : Nat} {w : Word32} {i : Instr} (h : decodeOp op w = .ok i) :
    op * 2 ^ 28 + w.toNat % 2 ^ 24 = layout i := by
  unfold decodeOp at h
  split at h
  case h_9 => cases h
  -- `BURST` and `FILL`: the operand takes the whole field
  case h_7 | h_8 =>
    obtain rfl := Except.ok.inj h
    simp only [layout, toNat_field]
    omega
  -- the others: the operand is what the zero bits leave of the field
  all_goals
    obtain ⟨hzero, rfl⟩ := needZero_field.1 h
    simp only [layout, toNat_field]
    omega

/-- The operation code and the operand field of a command's word decode to the command. -/
theorem decodeOp_of_layout {op : Nat} {w : Word32} {i : Instr} (h : op * 2 ^ 28 + w.toNat % 2 ^ 24 = layout i) :
    decodeOp op w = .ok i := by
  cases i <;> simp only [layout] at h
  case conv v =>
    obtain rfl : op = 1 := by omega
    exact needZero_field.2 ⟨by omega, congrArg _ (field_eq_iff.2 (by omega))⟩
  case rdreg a =>
    obtain rfl : op = 2 := by omega
    exact needZero_field.2 ⟨by omega, congrArg _ (field_eq_iff.2 (by omega))⟩
  case wrreg a v =>
    obtain rfl : op = 3 := by omega
    exact needZero_field.2 ⟨by omega, congrArg₂ _ (field_eq_iff.2 (by omega)) (field_eq_iff.2 (by omega))⟩
  case trig =>
    obtain rfl : op = 4 := by omega
    exact needZero_field.2 ⟨by omega, rfl⟩
  case poll =>
    obtain rfl : op = 5 := by omega
    exact needZero_field.2 ⟨by omega, rfl⟩
  case flen =>
    obtain rfl : op = 6 := by omega
    exact needZero_field.2 ⟨by omega, rfl⟩
  case burst n =>
    obtain rfl : op = 7 := by omega
    exact congrArg (fun n => Except.ok (Instr.burst n)) (field_eq_iff.2 (by omega))
  case fill w =>
    obtain rfl : op = 8 := by omega
    exact congrArg (fun w => Except.ok (Instr.fill w)) (field_eq_iff.2 (by omega))

/-- The decoder looks at the reserved bits, then at the operation (30_encoding.md R69). -/
theorem decode_eq_ok_decodeOp {w : Word32} {i : Instr} :
    decode w = .ok i ↔ w.toNat / 2 ^ 24 % 2 ^ 4 = 0 ∧ decodeOp (w.toNat / 2 ^ 28) w = .ok i := by
  have hop : (w.extractLsb' 28 4).toNat = w.toNat / 2 ^ 28 := by rw [toNat_field]; omega
  simp only [decode, field_eq_iff, hop]
  split <;> simp_all

/-- The decoder takes exactly the words of commands, and gives the command back (30_encoding.md R66 to R69). -/
theorem decode_eq_ok_iff {w : Word32} {i : Instr} : decode w = .ok i ↔ encode i = w := by
  have hreserved := layout_reserved i
  rw [decode_eq_ok_decodeOp, encode_eq_iff]
  constructor
  · rintro ⟨hzero, hop⟩
    have := layout_of_decodeOp hop
    omega
  · intro h
    exact ⟨by omega, decodeOp_of_layout (by omega)⟩

/-! ### The operation map -/

/-- A word matches a row whose mask is all but the low `k` bits where its bits from `k` on are the pattern. -/
theorem matches_iff (k : Nat) {w mask pattern : Word32} (hmask : mask = BitVec.allOnes 32 <<< k) :
    w &&& mask = pattern ↔ w.toNat / 2 ^ k * 2 ^ k = pattern.toNat := by
  have hle : w.toNat / 2 ^ k * 2 ^ k < 2 ^ 32 := (Nat.div_mul_le_self _ _).trans_lt w.isLt
  rw [hmask, ← BitVec.shiftLeft_ushiftRight, ← BitVec.toNat_inj, BitVec.toNat_shiftLeft, BitVec.toNat_ushiftRight,
    Nat.shiftLeft_eq, Nat.shiftRight_eq_div_pow, Nat.mod_eq_of_lt hle]

theorem encode_matches (k : Nat) {i : Instr} {mask pattern : Word32} (hmask : mask = BitVec.allOnes 32 <<< k)
    (hpattern : layout i / 2 ^ k * 2 ^ k = pattern.toNat) : encode i &&& mask = pattern := by
  rwa [matches_iff k hmask, encode_toNat]

/-- The word of a command matches the row of its mnemonic (30_encoding.md R67). -/
theorem encode_matches_row (i : Instr) :
    ∃ row ∈ opTable, row.mnemonic = i.mnemonic ∧ encode i &&& row.mask = row.pattern := by
  cases i with
  | conv v => exact ⟨opTable[0], List.getElem_mem _, rfl, encode_matches 16 rfl (by simp [layout, opTable]; omega)⟩
  | rdreg a => exact ⟨opTable[1], List.getElem_mem _, rfl, encode_matches 7 rfl (by simp [layout, opTable]; omega)⟩
  | wrreg a v =>
    exact ⟨opTable[2], List.getElem_mem _, rfl, encode_matches 15 rfl (by simp [layout, opTable]; omega)⟩
  | trig => exact ⟨opTable[3], List.getElem_mem _, rfl, rfl⟩
  | poll => exact ⟨opTable[4], List.getElem_mem _, rfl, rfl⟩
  | flen => exact ⟨opTable[5], List.getElem_mem _, rfl, rfl⟩
  | burst n => exact ⟨opTable[6], List.getElem_mem _, rfl, encode_matches 24 rfl (by simp [layout, opTable]; omega)⟩
  | fill w => exact ⟨opTable[7], List.getElem_mem _, rfl, encode_matches 24 rfl (by simp [layout, opTable]; omega)⟩

/-- A word that matches a row is the word of a command of that row (30_encoding.md R67). -/
theorem exists_encode_of_matches {w : Word32} {row : OpRow} (hrow : row ∈ opTable)
    (h : w &&& row.mask = row.pattern) : ∃ i, encode i = w ∧ i.mnemonic = row.mnemonic := by
  simp only [opTable, List.mem_cons, List.not_mem_nil, or_false] at hrow
  rcases hrow with rfl | rfl | rfl | rfl | rfl | rfl | rfl | rfl
  · have hw : w.toNat / 2 ^ 16 * 2 ^ 16 = 0x10000000 := (matches_iff 16 rfl).1 h
    exact ⟨.conv (w.extractLsb' 0 16), encode_eq_iff.2 (by simp only [layout, toNat_field]; omega), rfl⟩
  · have hw : w.toNat / 2 ^ 7 * 2 ^ 7 = 0x20000000 := (matches_iff 7 rfl).1 h
    exact ⟨.rdreg (w.extractLsb' 0 7), encode_eq_iff.2 (by simp only [layout, toNat_field]; omega), rfl⟩
  · have hw : w.toNat / 2 ^ 15 * 2 ^ 15 = 0x30000000 := (matches_iff 15 rfl).1 h
    exact ⟨.wrreg (w.extractLsb' 8 7) (w.extractLsb' 0 8),
      encode_eq_iff.2 (by simp only [layout, toNat_field]; omega), rfl⟩
  · exact ⟨.trig, (BitVec.and_allOnes ▸ h).symm, rfl⟩
  · exact ⟨.poll, (BitVec.and_allOnes ▸ h).symm, rfl⟩
  · exact ⟨.flen, (BitVec.and_allOnes ▸ h).symm, rfl⟩
  · have hw : w.toNat / 2 ^ 24 * 2 ^ 24 = 0x70000000 := (matches_iff 24 rfl).1 h
    exact ⟨.burst (w.extractLsb' 0 24), encode_eq_iff.2 (by simp only [layout, toNat_field]; omega), rfl⟩
  · have hw : w.toNat / 2 ^ 24 * 2 ^ 24 = 0x80000000 := (matches_iff 24 rfl).1 h
    exact ⟨.fill (w.extractLsb' 0 24), encode_eq_iff.2 (by simp only [layout, toNat_field]; omega), rfl⟩

end Sys2Proof.Laws.CommandWord

namespace Sys2Proof

open Laws.CommandWord

/-- Settles O1: the decoder takes the word of every command (`decode_eq_ok_iff`). -/
theorem decodeOfEncode : Obligations.DecodeOfEncode := by
  unfold Obligations.DecodeOfEncode
  exact fun i => decode_eq_ok_iff.2 rfl

/-- Settles O2: the decoder takes no word but those of commands (`decode_eq_ok_iff`). -/
theorem encodeOfDecode : Obligations.EncodeOfDecode := by
  unfold Obligations.EncodeOfDecode
  exact fun w i => decode_eq_ok_iff.1

/-- Settles O3: the words that match a row are the words of that row's commands. -/
theorem legalWordsAreTableRows : Obligations.LegalWordsAreTableRows := by
  unfold Obligations.LegalWordsAreTableRows
  refine fun w => ⟨fun i hdecode => ?_, fun row hrow hmatch => ?_⟩
  · rw [← decode_eq_ok_iff.1 hdecode]
    exact encode_matches_row i
  · obtain ⟨i, hencode, hmnemonic⟩ := exists_encode_of_matches hrow hmatch
    exact ⟨i, decode_eq_ok_iff.2 hencode, hmnemonic⟩

/-- Settles O4: ten fixed words. -/
theorem specWordsDecode : Obligations.SpecWordsDecode := by
  unfold Obligations.SpecWordsDecode
  decide

end Sys2Proof

namespace Sys2Proof.Machine

open Laws.CommandWord

/-! ### The response word (30_encoding.md R70, R71) -/

theorem statusCode_toNat (status : Status) : (statusCode status).toNat = specStatusCode status := by
  cases status <;> rfl

theorem statusOfCode_statusCode (status : Status) : statusOfCode (statusCode status) = some status := by
  cases status <;> rfl

/-- `LAST` is bit 1 of the flags, `DONE` bit 0, the other two are zero. -/
theorem flagBits_toNat (last done : Bool) :
    (flagBits last done).toNat = (if last then 2 else 0) + (if done then 1 else 0) := by
  cases last <;> cases done <;> rfl

/-- The response word as a number (30_encoding.md R70). -/
theorem responseWord_toNat (r : Response) : (responseWord r).toNat = specStatusCode r.status * 268435456
    + (if r.last then 33554432 else 0) + (if r.done then 16777216 else 0) + r.payload.toNat := by
  rw [responseWord, toNat_append_eq, toNat_append_eq, statusCode_toNat, flagBits_toNat]
  split <;> split <;> omega

/-- A status code fits its four bits (30_encoding.md R71). -/
theorem specStatusCode_lt (status : Status) : specStatusCode status < 16 := by
  cases status <;> decide

theorem responseWord_status (r : Response) : (responseWord r).extractLsb' 28 4 = statusCode r.status := by
  rw [field_eq_iff, responseWord_toNat, statusCode_toNat]
  have := specStatusCode_lt r.status
  split <;> split <;> omega

theorem responseWord_reserved (r : Response) : (responseWord r).extractLsb' 26 2 = 0 := by
  rw [field_eq_iff, responseWord_toNat]
  split <;> split <;> simp <;> omega

theorem responseWord_last (r : Response) : (responseWord r).getLsbD 25 = r.last := by
  rw [← BitVec.testBit_toNat, responseWord_toNat, Nat.testBit_eq_decide_div_mod_eq]
  cases r.last <;> cases r.done <;> simp <;> omega

theorem responseWord_done (r : Response) : (responseWord r).getLsbD 24 = r.done := by
  rw [← BitVec.testBit_toNat, responseWord_toNat, Nat.testBit_eq_decide_div_mod_eq]
  cases r.last <;> cases r.done <;> simp <;> omega

theorem responseWord_payload (r : Response) : (responseWord r).extractLsb' 0 24 = r.payload := by
  rw [field_eq_iff, responseWord_toNat]
  split <;> split <;> omega

/-! ### The machine's step -/

theorem step_of_command {s : State} {r : Request} {rest : List Input} {i : Instr}
    (hin : s.inbox = .command r :: rest) (hdecode : decode r.word = .ok i) :
    step s = exec i (acceptCommand r rest s) := by
  simp only [step, hin, hdecode]

theorem step_of_idle {s : State} (hin : s.inbox = []) : step s = .next (hostAgain s) := by
  simp only [step, hin]

/-! ### Commands run to an answer -/

/-- A command writes no more bytes than the window the host must hand over (30_encoding.md R66). -/
theorem windowCount_le_windowNeed (s : State) (i : Instr) : windowCount s i ≤ i.windowNeed := by
  cases i with
  | fill w => exact fillCount_le w _
  | _ => exact le_rfl

/-- With a window for all it is to write, a command goes on: only `BURST` and `FILL` look at the window. -/
theorem exec_next_of_fits {i : Instr} {s : State} (h : windowCount s i ≤ s.window.size) :
    ∃ t, exec i s = .next t := by
  rcases hrun : s.st.halted with _ | _
  swap
  · exact ⟨_, exec_of_halted i hrun⟩
  have hnot : ¬s.st.halted = true := by rw [hrun]; exact Bool.false_ne_true
  cases i with
  | burst n => exact ⟨_, (if_neg hnot).trans (if_pos h)⟩
  | fill w =>
    by_cases hclosed : s.st.triggered = false
    · exact ⟨_, (if_neg hnot).trans (if_pos hclosed)⟩
    · exact ⟨_, (if_neg hnot).trans ((if_neg hclosed).trans (if_pos h))⟩
  | _ => exact ⟨_, rfl⟩

end Sys2Proof.Machine

namespace Sys2Proof

open Machine

/-- Settles O5: the word is three bit strings, one above the other. -/
theorem responseWordLayout : Obligations.ResponseWordLayout := by
  unfold Obligations.ResponseWordLayout
  exact responseWord_toNat

/-- Settles O6: each field of the response word is the field of the response. -/
theorem responseReadBack : Obligations.ResponseReadBack := by
  unfold Obligations.ResponseReadBack
  intro r
  rw [readResponse, if_pos (responseWord_reserved r), responseWord_status, statusOfCode_statusCode, Option.map_some,
    responseWord_last, responseWord_done, responseWord_payload]

/-- Settles O7: one equation for a step with a command and one for an idle step. -/
theorem stepRunsDecodedInstruction : Obligations.StepRunsDecodedInstruction := by
  unfold Obligations.StepRunsDecodedInstruction
  refine ⟨fun s r rest i hin hdecode => ?_, fun s hin => ?_, fun s hin hloop => ?_⟩
  · exact step_of_command hin hdecode
  · exact step_of_idle hin
  · rw [step_of_idle hin, hostAgain_of_no_loop hin hloop]

/-- Settles O12: the window is large enough for what the command writes, and every command that goes on adds one
answer. -/
theorem commandsNeverStop : Obligations.CommandsNeverStop := by
  unfold Obligations.CommandsNeverStop
  intro i s hwf
  have hfits := (windowCount_le_windowNeed s i).trans (of_decide_eq_true hwf)
  obtain ⟨t, hexec⟩ := exec_next_of_fits hfits
  refine ⟨t, hexec, fun hsel => ?_⟩
  obtain ⟨r, ws, hanswers, -⟩ := exec_answers hsel hexec
  exact ⟨⟨r, ws⟩, hanswers⟩

end Sys2Proof
end

section
/-! The CODEC unit as numbers (40_codec.md R81 to R86): the fields of a sample, the rescale, the weighted sum, the luma,
and what `CONV` answers (R80). -/

namespace Sys2Proof.Machine

open Laws.CommandWord

/-! ### The fields of a sample (40_codec.md R82) -/

theorem red5_eq (v : Sample) : red5 v = v.toNat / 2048 := by
  rw [red5, toNat_field]
  omega

theorem green6_eq (v : Sample) : green6 v = v.toNat / 32 % 64 := toNat_field v 5 6

theorem blue5_eq (v : Sample) : blue5 v = v.toNat % 32 := by
  rw [blue5, toNat_field]
  omega

theorem red5_le (v : Sample) : red5 v ≤ 31 := Nat.le_of_lt_succ (BitVec.isLt _)

theorem green6_le (v : Sample) : green6 v ≤ 63 := Nat.le_of_lt_succ (BitVec.isLt _)

theorem blue5_le (v : Sample) : blue5 v ≤ 31 := Nat.le_of_lt_succ (BitVec.isLt _)

/-! ### The rescale (40_codec.md R83) -/

theorem rescale_mono (fieldMax : Nat) {c c' : Nat} (h : c ≤ c') : rescale fieldMax c ≤ rescale fieldMax c' :=
  Nat.div_le_div_right (Nat.mul_le_mul_right _ h)

theorem rescale5_le {c : Nat} (h : c ≤ 31) : rescale 31 c ≤ 255 := rescale_mono 31 h

theorem rescale6_le {c : Nat} (h : c ≤ 63) : rescale 63 c ≤ 255 := rescale_mono 63 h

/-! ### The weighted sum (40_codec.md R84) -/

theorem weightedSum_eq (v : Sample) :
    weightedSum v = 77 * rescale 31 (red5 v) + 150 * rescale 63 (green6 v) + 29 * rescale 31 (blue5 v) := rfl

/-- No sum exceeds `256 * 255`, for the weights add up to 256. -/
theorem weightedSum_le (v : Sample) : weightedSum v ≤ 65280 := by
  have hr := rescale5_le (red5_le v)
  have hg := rescale6_le (green6_le v)
  have hb := rescale5_le (blue5_le v)
  rw [weightedSum_eq]
  omega

theorem weightedSum_mono {v v' : Sample} (hr : red5 v ≤ red5 v') (hg : green6 v ≤ green6 v')
    (hb : blue5 v ≤ blue5 v') : weightedSum v ≤ weightedSum v' := by
  have hr' := rescale_mono 31 hr
  have hg' := rescale_mono 63 hg
  have hb' := rescale_mono 31 hb
  rw [weightedSum_eq, weightedSum_eq]
  omega

/-- One step of red, one of green or two of blue bring the sum to 256; one of blue does not. -/
theorem weightedSum_lt_iff (v : Sample) : weightedSum v < 256 ↔ red5 v = 0 ∧ green6 v = 0 ∧ blue5 v ≤ 1 := by
  have hr : 1 ≤ red5 v → 8 ≤ rescale 31 (red5 v) := rescale_mono 31
  have hg : 1 ≤ green6 v → 4 ≤ rescale 63 (green6 v) := rescale_mono 63
  have hb : 2 ≤ blue5 v → 16 ≤ rescale 31 (blue5 v) := rescale_mono 31
  rw [weightedSum_eq]
  constructor
  · omega
  · rintro ⟨hred, hgreen, hblue⟩
    have hr0 : rescale 31 (red5 v) ≤ 0 := rescale_mono 31 hred.le
    have hg0 : rescale 63 (green6 v) ≤ 0 := rescale_mono 63 hgreen.le
    have hb1 : rescale 31 (blue5 v) ≤ 8 := rescale_mono 31 hblue
    omega

/-- The greatest sum is that of three full fields. -/
theorem weightedSum_of_full {v : Sample} (hr : red5 v = 31) (hg : green6 v = 63) (hb : blue5 v = 31) :
    weightedSum v = 65280 := by
  rw [weightedSum_eq, hr, hg, hb]
  rfl

/-- A field that is not full takes more than 256 from the greatest sum. -/
theorem weightedSum_lt_of_not_full {v : Sample} (h : ¬(red5 v = 31 ∧ green6 v = 63 ∧ blue5 v = 31)) :
    weightedSum v < 65024 := by
  have hr : red5 v ≤ 30 → rescale 31 (red5 v) ≤ 246 := rescale_mono 31
  have hg : green6 v ≤ 62 → rescale 63 (green6 v) ≤ 250 := rescale_mono 63
  have hb : blue5 v ≤ 30 → rescale 31 (blue5 v) ≤ 246 := rescale_mono 31
  have hr255 := rescale5_le (red5_le v)
  have hg255 := rescale6_le (green6_le v)
  have hb255 := rescale5_le (blue5_le v)
  have hshort : red5 v ≤ 30 ∨ green6 v ≤ 62 ∨ blue5 v ≤ 30 := by
    have := red5_le v
    have := green6_le v
    have := blue5_le v
    omega
  rw [weightedSum_eq]
  omega

/-! ### The luma (40_codec.md R85) -/

/-- The luma is the high byte of the sum: no sum is wider than two bytes. -/
theorem luma_toNat (v : Sample) : (luma v).toNat = weightedSum v / 256 := by
  have hle := weightedSum_le v
  rw [luma, BitVec.toNat_ofNat, Nat.shiftRight_eq_div_pow]
  exact Nat.mod_eq_of_lt (show weightedSum v / 256 < 256 by omega)

theorem luma_eq_iff {v : Sample} {b : Byte} : luma v = b ↔ weightedSum v / 256 = b.toNat := by
  rw [← BitVec.toNat_inj, luma_toNat]

theorem luma_eq_zero_iff (v : Sample) : luma v = 0 ↔ red5 v = 0 ∧ green6 v = 0 ∧ blue5 v ≤ 1 := by
  rw [luma_eq_iff, ← weightedSum_lt_iff]
  exact Nat.div_eq_zero_iff_lt (by decide)

theorem luma_eq_255_iff (v : Sample) : luma v = 255 ↔ red5 v = 31 ∧ green6 v = 63 ∧ blue5 v = 31 := by
  rw [luma_eq_iff]
  constructor
  · intro (h : weightedSum v / 256 = 255)
    by_contra hnot
    have := weightedSum_lt_of_not_full hnot
    omega
  · rintro ⟨hr, hg, hb⟩
    rw [weightedSum_of_full hr hg hb]
    rfl

theorem luma_ne_254 (v : Sample) : luma v ≠ 254 := by
  by_cases hfull : red5 v = 31 ∧ green6 v = 63 ∧ blue5 v = 31
  · rw [(luma_eq_255_iff v).2 hfull]
    decide
  · rw [Ne, luma_eq_iff]
    intro (h : weightedSum v / 256 = 254)
    have := weightedSum_lt_of_not_full hfull
    omega

/-! ### `CONV` (40_codec.md R80) -/

theorem exec_conv_of_running (v : Sample) {s : State} (h : s.st.halted = false) :
    exec (.conv v) s = .next (s.respond (okResponse ((luma v).zeroExtend 24)) []) :=
  congrArg Host.Outcome.next (unlessHalted_of_running _ h)

/-- The payload of `CONV`, written over the sample as a number (40_codec.md R81). -/
theorem luma_payload (v : Sample) : (luma v).zeroExtend 24 = BitVec.ofNat 24
    ((77 * (v.toNat / 2048 * 255 / 31) + 150 * (v.toNat / 32 % 64 * 255 / 63)
      + 29 * (v.toNat % 32 * 255 / 31)) / 256) := by
  rw [← red5_eq, ← green6_eq, ← blue5_eq]
  exact (BitVec.ofNat_toNat 24 _).symm.trans (congrArg (BitVec.ofNat 24) (luma_toNat v))

end Sys2Proof.Machine

namespace Sys2Proof

open Machine

/-- Settles O15: `CONV` of a running block adds one answer, whose payload is the luma of the sample as a number. -/
theorem convAnswersLuma : Obligations.ConvAnswersLuma := by
  unfold Obligations.ConvAnswersLuma
  refine ⟨fun v s hrun => ?_, fun v s hhalted => exec_of_halted (.conv v) hhalted⟩
  rw [exec_conv_of_running v hrun, luma_payload]
  rfl

/-- Settles O16: the weights add up to 256, so the sum has two bytes and the luma is the high one. -/
theorem weightedSumNeverOverflows : Obligations.WeightedSumNeverOverflows := by
  unfold Obligations.WeightedSumNeverOverflows
  exact fun v => ⟨weightedSum_le v, luma_toNat v⟩

/-- Settles O17: only black and the least blue have a sum below 256, and only white has one from 65,024 on. -/
theorem lumaExtremes : Obligations.LumaExtremes := by
  unfold Obligations.LumaExtremes
  refine fun v => ⟨?_, ?_, luma_ne_254 v⟩
  · rw [luma_eq_zero_iff, red5_eq, green6_eq, blue5_eq]
    bv_omega
  · rw [luma_eq_255_iff, red5_eq, green6_eq, blue5_eq]
    bv_omega

/-- Settles O18: each rescale and the weighted sum are monotone, and so is the high byte of the sum. -/
theorem lumaMonotone : Obligations.LumaMonotone := by
  unfold Obligations.LumaMonotone
  intro v v' hr hg hb
  rw [← red5_eq, ← red5_eq] at hr
  rw [← green6_eq, ← green6_eq] at hg
  rw [← blue5_eq, ← blue5_eq] at hb
  rw [luma_toNat, luma_toNat]
  exact Nat.div_le_div_right (weightedSum_mono hr hg hb)

end Sys2Proof
end

section
/-! What `RDREG`, `WRREG`, `TRIG`, `POLL` and `FLEN` do with their transfers acknowledged, and the byte each register of
the capture controller gives (41_capture_control.md R90 to R95, 20_memory.md R51 to R53). -/

namespace Sys2Proof.Machine

/-! ### The byte a register gives (10_state.md R31 to R33, 20_memory.md R51) -/

@[simp] theorem Controller.readRegister_status (c : Controller) (p : Params) (draw : Byte) :
    c.readRegister p p.regStatus draw = c.statusByte p draw := if_pos rfl

/-- A register without a role is drawn (10_state.md R33). -/
theorem Controller.readRegister_of_no_role (c : Controller) {p : Params} {a : RegAddr} (draw : Byte)
    (hs : a ≠ p.regStatus) (hl : a ≠ p.regLenLo) (hm : a ≠ p.regLenMid) (hh : a ≠ p.regLenHi) :
    c.readRegister p a draw = draw := by
  cases hf : c.fifo <;> simp [Controller.readRegister, hs, hl, hm, hh, hf]

/-- With no capture complete the length registers are drawn too (20_memory.md R53, 93_implementation_defined.md U4). -/
theorem Controller.readRegister_of_incomplete {c : Controller} {p : Params} {a : RegAddr} (draw : Byte)
    (hf : ∀ frame pos len, c.fifo ≠ .complete frame pos len) (hs : a ≠ p.regStatus) :
    c.readRegister p a draw = draw := by
  cases h : c.fifo with
  | complete frame pos len => exact absurd h (hf frame pos len)
  | unknown => simp [Controller.readRegister, hs, h]
  | capturing => simp [Controller.readRegister, hs, h]

/-- The status byte where nothing is known of the done bit (93_implementation_defined.md U13, U14). -/
theorem Controller.statusByte_of_unsettled {c : Controller} (p : Params) (draw : Byte)
    (h : c.cleared = false ∨ c.done = .unconstrained) : c.statusByte p draw = draw := by
  have hseen : c.doneSeen = .unconstrained := by
    rcases h with h | h <;> simp [Controller.doneSeen, h]
  rw [Controller.statusByte, hseen]

/-- After the clear write of a `TRIG` the bit that is read is the flag (93_implementation_defined.md U13). -/
theorem Controller.doneSeen_of_cleared {c : Controller} (h : c.cleared = true) : c.doneSeen = c.done := if_pos h

/-- The mask of one bit has no other bit. -/
theorem one_shiftLeft_getLsbD_of_ne {d k : Nat} (h : k ≠ d) : (1#8 <<< d).getLsbD k = false := by
  rw [← BitVec.twoPow_eq, BitVec.getLsbD_twoPow, decide_eq_false h.symm, Bool.and_false]

/-- The status byte where the done bit is known: the other bits are drawn (10_state.md R31). -/
theorem Controller.statusByte_getLsbD {c : Controller} {b : Bool} (p : Params) (draw : Byte)
    (h : c.doneSeen = .known b) (k : Nat) :
    (c.statusByte p draw).getLsbD k = if k = p.doneBit.val then b else draw.getLsbD k := by
  split
  · subst k
    exact Controller.statusByte_doneBit p draw h
  · rename_i hother
    have hmask := one_shiftLeft_getLsbD_of_ne hother
    rw [Controller.statusByte, h]
    cases b with
    | true => simp only [BitVec.getLsbD_or, hmask, Bool.or_false]
    | false =>
      simp only [BitVec.getLsbD_and, BitVec.getLsbD_not, hmask, Bool.not_false, Bool.and_true,
        Bool.and_eq_left_iff_imp, decide_eq_true_eq]
      exact BitVec.lt_of_getLsbD

section LengthBytes

variable {c : Controller} {p : Params} {frame : List Byte} {pos : Nat} {len : BitVec 23} {a : RegAddr}

/-- The low part of the length, as a number (10_state.md R32). -/
theorem Controller.readRegister_lo_toNat (h : c.fifo = .complete frame pos len) (draw : Byte) (hs : a ≠ p.regStatus)
    (hl : a = p.regLenLo) : (c.readRegister p a draw).toNat = len.toNat % 256 := by
  have hbyte : c.readRegister p a draw = len.extractLsb' 0 8 := by
    simp only [Controller.readRegister, if_neg hs, h, if_pos hl]
  rw [hbyte, Laws.CommandWord.toNat_field]
  omega

/-- The middle part of the length, as a number (10_state.md R32). -/
theorem Controller.readRegister_mid_toNat (h : c.fifo = .complete frame pos len) (draw : Byte) (hs : a ≠ p.regStatus)
    (hm : a = p.regLenMid) (hl : a ≠ p.regLenLo) : (c.readRegister p a draw).toNat = len.toNat / 256 % 256 := by
  have hbyte : c.readRegister p a draw = len.extractLsb' 8 8 := by
    simp only [Controller.readRegister, if_neg hs, h, if_neg hl, if_pos hm]
  rw [hbyte, Laws.CommandWord.toNat_field]
  omega

/-- The high part of the length, as a number, below a drawn bit 7 (10_state.md R32, 93_implementation_defined.md U2). -/
theorem Controller.readRegister_hi_toNat (h : c.fifo = .complete frame pos len) (draw : Byte) (hs : a ≠ p.regStatus)
    (hh : a = p.regLenHi) (hl : a ≠ p.regLenLo) (hm : a ≠ p.regLenMid) :
    (c.readRegister p a draw).toNat = len.toNat / 65536 + draw.toNat / 128 * 128 := by
  have hbyte : c.readRegister p a draw = draw.extractLsb' 7 1 ++ len.extractLsb' 16 7 := by
    simp only [Controller.readRegister, if_neg hs, h, if_neg hl, if_neg hm, if_pos hh]
  have hlen := len.isLt
  have hdraw := draw.isLt
  rw [hbyte, Laws.CommandWord.toNat_append_eq, Laws.CommandWord.toNat_field, Laws.CommandWord.toNat_field]
  omega

end LengthBytes

/-! ### One register access (20_memory.md R44, R45) -/

/-- A read is answered from the FIFO only where its command byte is `BURST_CMD` (log entry 28). -/
theorem Controller.takesBurst_iff {p : Params} {a : RegAddr} {e : EnvChoice} :
    Controller.takesBurst p a e = true ↔ BitVec.ofNat 8 a.toNat = p.burstCmd ∧ e.asBurst = true := by
  rw [Controller.takesBurst, readCommand_eq, Bool.and_eq_true, decide_eq_true_iff]

/-- What the environment's choice lets a read return and leave behind is what `byteRead` and `afterRead` say. -/
theorem State.read_eq_of_choice {s : State} {a : RegAddr} {v : Byte} {c : Controller}
    (h : if BitVec.ofNat 8 a.toNat = s.params.burstCmd ∧ (s.choiceAt (s.drawn + 1)).asBurst = true then
        v = (s.ctlAfter 2).fifoByte (s.drawAt 1) ∧ c = (s.ctlAfter 2).fifoNext
      else v = (s.ctlAfter 2).readRegister s.params a (s.drawAt 1) ∧ c = s.ctlAfter 2) :
    v = s.byteRead a ∧ c = (s.afterRead a).ctl := by
  simp only [← Controller.takesBurst_iff] at h
  simp only [State.byteRead, State.afterRead, Controller.windowByte, Controller.windowNext]
  split at h
  · rename_i hburst
    rwa [if_pos hburst, if_pos hburst]
  · rename_i hreg
    rwa [if_neg hreg, if_neg hreg]

@[simp] theorem State.afterRead_trace (a : RegAddr) (s : State) : (s.afterRead a).trace =
    s.trace ++ [.sel, .tx (BitVec.ofNat 8 a.toNat), .rx (s.byteRead a), .desel] := rfl

/-- Where the command byte is not `BURST_CMD` the byte is a register byte (20_memory.md R51). -/
theorem State.byteRead_of_register {s : State} {a : RegAddr} (ha : BitVec.ofNat 8 a.toNat ≠ s.params.burstCmd) :
    s.byteRead a = (s.ctlAfter 2).readRegister s.params a (s.drawAt 1) := by
  simp [State.byteRead, Controller.windowByte, Controller.takesBurst_eq_false ha, State.drawAt]

/-- A register byte leaves the controller to its own moves (20_memory.md R51). -/
theorem State.afterRead_ctl_of_register {s : State} {a : RegAddr}
    (ha : BitVec.ofNat 8 a.toNat ≠ s.params.burstCmd) : (s.afterRead a).ctl = s.ctlAfter 2 := by
  simp [State.afterRead, Controller.windowNext, Controller.takesBurst_eq_false ha]

/-- The data byte of a register write, over the command byte as a number (30_encoding.md R63, log entry 28). -/
theorem Controller.windowWrite_eq (c : Controller) (p : Params) (a : RegAddr) (v : Byte) :
    c.windowWrite p a v = if BitVec.ofNat 8 (128 + a.toNat) = p.burstCmd then c.unconstrain
      else c.writeRegister p a v := by
  rw [Controller.windowWrite, writeCommand_eq]

/-! ### The controller's own moves between transfers -/

@[simp] theorem State.ctlAfter_cleared (s : State) : ∀ n, (s.ctlAfter n).cleared = s.ctl.cleared
  | 0 => rfl
  | n + 1 => by rw [State.ctlAfter, Controller.move_cleared, ctlAfter_cleared s n]

/-- A set done flag stays set (20_memory.md R52). -/
theorem State.ctlAfter_done {s : State} (h : s.ctl.done = .known true) : ∀ n, (s.ctlAfter n).done = .known true
  | 0 => h
  | n + 1 => Controller.move_done _ (ctlAfter_done h n)

/-! ### The two writes of `TRIG` (41_capture_control.md R93, 20_memory.md R52) -/

/-- The state in which the clear write of an accepted `TRIG` is performed and the start write is not. -/
def State.clearDone (s : State) : State := (writeDone s.params.regClr s.params.valClr s).clearPerformed

/-- Between the two writes the controller moves of its own accord, just before each transfer of the start write. -/
theorem State.clearDone_ctlAfter_two (s : State) : s.clearDone.ctlAfter 2 =
    (s.clearDone.ctl.move (s.choiceAt (s.drawn + 2)).move).move (s.choiceAt (s.drawn + 3)).move := rfl

/-- The controller once the clear write of an accepted `TRIG` is performed. -/
theorem State.clearDone_ctl (s : State) : s.clearDone.ctl =
    if BitVec.ofNat 8 (128 + s.params.regClr.toNat) = s.params.burstCmd then
      { cleared := true, done := .unconstrained, fifo := .unknown }
    else if s.params.regClr = s.params.regStart ∧ s.params.valClr = s.params.valStart then
      { cleared := true, done := .known false, fifo := .capturing }
    else { cleared := true, done := .known false, fifo := (s.ctlAfter 2).fifo } := by
  rw [State.clearDone, State.clearPerformed_ctl, writeDone, Controller.windowWrite_eq]
  split
  · rfl
  · split
    · rename_i hone
      rw [Controller.writeRegister_of_both _ hone ⟨rfl, rfl⟩]
    · rename_i hone
      rw [Controller.writeRegister_of_clear _ ⟨rfl, rfl⟩ hone]

/-- What the data byte of the start write does to a controller whose done bit is settled. -/
theorem Controller.windowWrite_start {c : Controller} (p : Params) (hc : c.cleared = true) :
    c.windowWrite p p.regStart p.valStart =
      if BitVec.ofNat 8 (128 + p.regStart.toNat) = p.burstCmd then
        { cleared := true, done := .unconstrained, fifo := .unknown }
      else
        { cleared := true
          done := if p.regClr = p.regStart ∧ p.valClr = p.valStart then .known false else c.done
          fifo := .capturing } := by
  rw [Controller.windowWrite_eq]
  split
  · simp [Controller.unconstrain, hc]
  · split
    · rename_i hone
      rw [Controller.writeRegister_of_both c ⟨rfl, rfl⟩ ⟨hone.1.symm, hone.2.symm⟩, hc]
    · rename_i hone
      rw [Controller.writeRegister_of_start c ⟨rfl, rfl⟩ fun e => hone ⟨e.1.symm, e.2.symm⟩, hc]

/-! ### The commands with their transfers acknowledged -/

section Acked

variable {s : State}

/-- `RDREG` (41_capture_control.md R90). -/
theorem exec_rdreg_of_acked (a : RegAddr) (hrun : s.st.halted = false) (hsel : s.st.sel = false)
    (hack : s.acked 2) : exec (.rdreg a) s =
      .next ((s.afterRead a).respond (okResponse ((s.byteRead a).zeroExtend 24)) []) := by
  obtain ⟨v, u, he, -, -, rfl, rfl⟩ := (rdReg_spec a hsel).done_of_acked hack
  simp [exec, execRdreg, unlessHalted_of_running _ hrun, he, Bus.settle]

/-- `WRREG` (41_capture_control.md R91). -/
theorem exec_wrreg_of_acked (a : RegAddr) (v : Byte) (hrun : s.st.halted = false) (hsel : s.st.sel = false)
    (hack : s.acked 2) : exec (.wrreg a v) s = .next ((writeDone a v s).respond (okResponse 0) []) := by
  obtain ⟨_, u, he, -, -, rfl⟩ := (wrReg_spec a v hsel).done_of_acked hack
  simp [exec, execWrreg, unlessHalted_of_running _ hrun, he, Bus.settle]

/-- `POLL` (41_capture_control.md R94). -/
theorem exec_poll_of_acked (hrun : s.st.halted = false) (hsel : s.st.sel = false) (hack : s.acked 2) :
    exec .poll s = .next ((s.afterRead s.params.regStatus).respond
      (pollResponse s.params (s.byteRead s.params.regStatus)) []) := by
  obtain ⟨v, u, he, -, -, rfl, rfl⟩ := (rdReg_spec s.params.regStatus hsel).done_of_acked hack
  simp [exec, execPoll, unlessHalted_of_running _ hrun, he, Bus.settle]

/-- An accepted `TRIG` (41_capture_control.md R93). -/
theorem exec_trig_of_acked (hrun : s.st.halted = false) (hsel : s.st.sel = false) (hidle : s.st.triggered = false)
    (hack : s.acked 4) : exec .trig s = .next ((openSession
      (writeDone s.params.regStart s.params.valStart s.clearDone)).respond (okResponse 0) []) := by
  obtain ⟨_, u, he, -, -, rfl⟩ := (triggerWrites_spec hsel).done_of_acked hack
  simp [exec, execTrig, unlessHalted_of_running _ hrun, hidle, he, Bus.settle, State.clearDone]

/-- A `TRIG` in an open session (41_capture_control.md R93). -/
theorem exec_trig_of_open (hrun : s.st.halted = false) (hopen : s.st.triggered = true) :
    exec .trig s = .next (s.respond (plainResponse .busy) []) := by
  simp [exec, execTrig, unlessHalted_of_running _ hrun, hopen]

end Acked

end Sys2Proof.Machine

namespace Sys2Proof

open Machine

/-- Settles O19: the read's outcome is `byteRead` and `afterRead`, and each register has its byte lemma. -/
theorem rdregReadsRegister : Obligations.RdregReadsRegister := by
  unfold Obligations.RdregReadsRegister
  refine ⟨fun a s v c hrun hsel hack hread => ?_,
    fun c p a draw => ⟨?_, fun b hcl hd k => ?_, fun h => ?_, ?_, ?_⟩⟩
  · obtain ⟨rfl, rfl⟩ := State.read_eq_of_choice hread
    rw [exec_rdreg_of_acked a hrun hsel hack, BitVec.ofNat_toNat 24]
    rfl
  · exact c.readRegister_of_no_role draw
  · rw [Controller.readRegister_status]
    exact Controller.statusByte_getLsbD p draw ((Controller.doneSeen_of_cleared hcl).trans hd) k
  · rw [Controller.readRegister_status]
    exact Controller.statusByte_of_unsettled p draw h
  · exact Controller.readRegister_of_incomplete draw
  · exact fun frame pos len hf hs => ⟨Controller.readRegister_lo_toNat hf draw hs,
      Controller.readRegister_mid_toNat hf draw hs, Controller.readRegister_hi_toNat hf draw hs⟩

/-- Settles O21: the acknowledged write is `writeDone`, its command byte as a number. -/
theorem wrregWritesRegister : Obligations.WrregWritesRegister := by
  unfold Obligations.WrregWritesRegister
  intro a v s hrun hsel hack
  rw [exec_wrreg_of_acked a v hrun hsel hack, writeDone, Controller.windowWrite_eq, writeCommand_eq]
  rfl

/-- Settles O24: the two writes one after the other, and between them the controller's own moves. -/
theorem trigOpensSession : Obligations.TrigOpensSession := by
  unfold Obligations.TrigOpensSession
  intro s c hrun hsel hidle hack hc
  rw [← State.clearDone_ctl] at hc
  subst hc
  have hcleared : (s.clearDone.ctlAfter 2).cleared = true := s.clearDone.ctlAfter_cleared 2
  rw [exec_trig_of_acked hrun hsel hidle hack, ← State.clearDone_ctlAfter_two,
    ← Controller.windowWrite_start s.params hcleared]
  simp [State.clearDone, writeDone, openSession, State.respond, writeCommand_eq, okResponse, hrun, hsel]

/-- Settles O26: `POLL` answers the tested bit of the byte of one read. -/
theorem pollTestsDoneBit : Obligations.PollTestsDoneBit := by
  unfold Obligations.PollTestsDoneBit
  intro s v c hrun hsel hack hread
  obtain ⟨rfl, rfl⟩ := State.read_eq_of_choice hread
  rw [exec_poll_of_acked hrun hsel hack]
  rfl

/-- Settles O27: the byte read is the status byte of a controller that has only moved of its own accord. -/
theorem pollReportsDoneFlag : Obligations.PollReportsDoneFlag := by
  unfold Obligations.PollReportsDoneFlag
  intro s t b hrun hsel hack hreg hcl hdone h
  have hcl' : (s.ctlAfter 2).cleared = true := (s.ctlAfter_cleared 2).trans hcl
  have hbit : doneBitOf s.params (s.byteRead s.params.regStatus) = b := by
    rw [State.byteRead_of_register hreg, Controller.readRegister_status]
    exact Controller.statusByte_doneBit _ _ ((Controller.doneSeen_of_cleared hcl').trans hdone)
  rw [exec_poll_of_acked hrun hsel hack] at h
  obtain rfl := Host.Outcome.next.inj h
  rw [State.respond_answers, State.respond_ctl, State.afterRead_ctl_of_register hreg, pollResponse, hbit]
  refine ⟨rfl, hdone, hcl', fun hset => ?_⟩
  exact DoneFlag.known.inj (hdone.symm.trans (State.ctlAfter_done hset 2))

/-- Settles O30: the three reads one after the other, and their bytes assembled to a number. -/
theorem flenReadsLength : Obligations.FlenReadsLength := by
  unfold Obligations.FlenReadsLength
  rintro s s1 s2 s3 s4 lo mid hi hrun hsel hack rfl rfl rfl rfl rfl rfl rfl
  rw [exec_flen_of_acked hrun hsel hack, lengthRead, assembleLength_eq]
  simp only [State.respond, State.afterRead_trace, List.append_assoc, List.cons_append, List.nil_append]
  rfl

/-- Settles O25: a `TRIG` looks at the session before it uses the bus. -/
theorem trigRefusedBusy : Obligations.TrigRefusedBusy := by
  unfold Obligations.TrigRefusedBusy
  exact fun s => exec_trig_of_open

end Sys2Proof
end

section
/-! `BURST` and `FILL` with their transfers acknowledged: the bytes they receive, where these go, and what the end of a
frame does (42_burst_stream.md R101 to R106). -/

namespace Sys2Proof.Machine

/-! ### The bytes the FIFO serves, one by one (20_memory.md R50, R53) -/

/-- Over a complete capture byte `i` is the frame's, and past its end the draw of its transfer. -/
theorem FifoServes.getElem_of_complete {s t : State} {bs ds frame : List Byte} {pos i : Nat} {len : BitVec 23}
    {d : Byte} (h : FifoServes s t bs ds) (hfifo : s.ctl.fifo = .complete frame pos len) (hd : ds[i]? = some d) :
    bs[i]? = some (frame[pos + i]?.getD d) := by
  rw [(h.complete hfifo).2, servedBytes_getElem, hd]
  rfl

/-- The controller does nothing of its own accord in the next `n` transfers: its choices by their own numbers. -/
theorem State.quiet_range {s : State} {n m : Nat} (hm : m = s.drawn + n)
    (h : ∀ k, k < n → (s.choiceAt (s.drawn + k)).move = .nothing) :
    ∀ k, s.drawn ≤ k → k < m → (s.choiceAt k).move = .nothing := by
  intro k hle hlt
  have hk := h (k - s.drawn) (by omega)
  rwa [Nat.add_sub_cancel' hle] at hk

/-- The number of windows of a `RawRead(m)` is `m / c`, rounded up (42_burst_stream.md R102). -/
theorem specChunks_length (c : Nat) (hc : 0 < c) (m : Nat) :
    (specChunks (.atMost c hc) m).length = (m + c - 1) / c := by
  have hm := Nat.div_add_mod' m c
  have hlt := Nat.mod_lt m hc
  rw [specChunks, List.length_append, List.length_replicate]
  split
  · exact (Nat.div_eq_of_lt_le (by rw [List.length_nil, Nat.add_zero]; omega)
      (by rw [List.length_nil, Nat.add_zero, Nat.succ_mul]; omega)).symm
  · exact (Nat.div_eq_of_lt_le (by rw [List.length_singleton, Nat.succ_mul]; omega)
      (by rw [List.length_singleton, Nat.succ_mul, Nat.succ_mul]; omega)).symm

/-! ### `BURST` (42_burst_stream.md R101) -/

/-- A `BURST` of `n >= 1` bytes with its transfers acknowledged goes on to the delivery of the bytes received. -/
theorem exec_burst_next_of_acked {n : Count} {s : State} (hrun : s.st.halted = false) (hsel : s.st.sel = false)
    (hn : n ≠ 0) (hfits : n.toNat ≤ s.window.size) (hack : s.acked (n.toNat + 1)) :
    ∃ bs u, exec (.burst n) s = .next (deliverRaw n.toNat bs u) ∧ BusMoves s u ∧ u.st = s.st ∧ bs.length = n.toNat ∧
      u.trace = s.trace ++ ([.sel, .tx s.params.burstCmd] ++ bs.map .rx ++ [.desel]) ∧
      u.drawn = s.drawn + (n.toNat + 1) ∧ FifoServes s u bs (s.draws (s.drawn + 1) n.toNat) := by
  obtain ⟨bs, u, hread, hmoves, hidle, hlen, htrace, hdrawn, hserves⟩ :=
    (burstRead_spec n.toNat hsel).done_of_acked hack
  have hn' : n.toNat ≠ 0 := fun e => hn (BitVec.eq_of_toNat_eq e)
  refine ⟨bs, u, ?_, hmoves, hmoves.st_eq (hidle.trans hsel.symm), hlen, htrace, hdrawn, hserves⟩
  simp [exec, execBurst, hrun, hfits, burstInto, hn', hread, Bus.settle]

/-! ### `FILL` (42_burst_stream.md R103 to R106) -/

/-- Luma byte `k` comes from raw bytes `2k` and `2k + 1` (42_burst_stream.md R103, 40_codec.md R88). -/
theorem lumaBytes_of_getElem {raw : List Byte} {k : Nat} {b0 b1 : Byte} (h0 : raw[2 * k]? = some b0)
    (h1 : raw[2 * k + 1]? = some b1) :
    (lumaBytes raw)[k]? = some (luma (BitVec.ofNat 16 (256 * b0.toNat + b1.toNat))) := by
  obtain ⟨c0, c1, e0, e1, e⟩ := lumaBytes_getElem (List.getElem?_eq_some_iff.1 h1).1
  obtain rfl := Option.some.inj (h0.symm.trans e0)
  obtain rfl := Option.some.inj (h1.symm.trans e1)
  exact e

/-- The state after a `FILL` of `n` bytes that received the raw bytes `raw`, `u` being the state after its last
transfer. -/
def fillDone (n : Nat) (raw : List Byte) (u : State) : State :=
  endFill n (lumaBytes raw) (((u.fillWindow (lumaBytes raw)).consumed (2 * n)).delivered n)

section FillDone

variable (n : Nat) (raw ys : List Byte) (s u : State)

theorem endFill_of_end (h : atFrameEnd s = true) :
    endFill n ys s = (closeSession s).respond (fillResponse true n) (offsetsFrom 0 ys) := if_pos h

theorem endFill_of_short (h : atFrameEnd s = false) :
    endFill n ys s = s.respond (fillResponse false n) (offsetsFrom 0 ys) := if_neg (by simp [h])

/-- The end of a `FILL` changes the record, the window and the answers alone. -/
theorem fillDone_frame : fillDone n raw u = { u with
    st := (fillDone n raw u).st
    window := u.window.fill (lumaBytes raw)
    answers := (fillDone n raw u).answers } := by
  unfold fillDone endFill
  split <;> rfl

@[simp] theorem fillDone_ctl : (fillDone n raw u).ctl = u.ctl := by
  rw [fillDone_frame]

@[simp] theorem fillDone_params : (fillDone n raw u).params = u.params := by
  rw [fillDone_frame]

@[simp] theorem fillDone_env : (fillDone n raw u).env = u.env := by
  rw [fillDone_frame]

@[simp] theorem fillDone_window : (fillDone n raw u).window = u.window.fill (lumaBytes raw) := by
  rw [fillDone_frame]

@[simp] theorem fillDone_trace : (fillDone n raw u).trace = u.trace := by
  rw [fillDone_frame]

@[simp] theorem fillDone_drawn : (fillDone n raw u).drawn = u.drawn := by
  rw [fillDone_frame]

end FillDone

/-- A `FILL` in an open session with its own transfers acknowledged, whatever its count: no bytes are received by one of
no bytes. -/
theorem exec_fill_of_acked {w : Count} {s : State} {n : Nat} (hrun : s.st.halted = false) (hsel : s.st.sel = false)
    (hopen : s.st.triggered = true) (hn : n = fillCount w s.st.bytesDelivered) (hfits : n ≤ s.window.size)
    (hack : s.acked (2 * n + (specChunks s.params.burstChunk (2 * n)).length)) :
    ∃ raw u, exec (.fill w) s = .next (fillDone n raw u) ∧ BusMoves s u ∧ u.st = s.st ∧ RawServes (2 * n) s raw u := by
  obtain ⟨raw, u, hread, hmoves, hidle, hserves⟩ := (rawRead_spec (2 * n) hsel).done_of_acked hack
  refine ⟨raw, u, ?_, hmoves, hmoves.st_eq (hidle.trans hsel.symm), hserves⟩
  have hinto : exec (.fill w) s = .next (fillInto n s) := by
    simp [exec, execFill, hrun, hopen, ← hn, hfits]
  rw [hinto, fillInto]
  split
  · rename_i h0
    subst h0
    obtain ⟨rfl, rfl⟩ := Bus.done.inj hread
    simp [fillDone, lumaBytes, pairSamples, State.fillWindow, State.consumed, State.delivered]
  · rw [hread]
    rfl

/-- A `FILL` that went on in an open session had a window for its bytes. -/
theorem fill_fits_of_next {w : Count} {s t : State} (hrun : s.st.halted = false) (hopen : s.st.triggered = true)
    (h : exec (.fill w) s = .next t) : fillCount w s.st.bytesDelivered ≤ s.window.size := by
  simp only [exec, execFill, hrun, hopen, Bool.false_eq_true, Bool.true_eq_false, if_false] at h
  split at h
  · assumption
  · cases h

/-- A `FILL` that does not carry the count past the end of the frame is at the end exactly when the sum is 76,800. -/
theorem atFrameEnd_of_sum {n : Nat} (ys : List Byte) {u : State} (hle : u.st.bytesDelivered.toNat + n ≤ 76800) :
    atFrameEnd (((u.fillWindow ys).consumed (2 * n)).delivered n) = decide (u.st.bytesDelivered.toNat + n = 76800) := by
  have hsum : (u.st.bytesDelivered + BitVec.ofNat 32 n).toNat = u.st.bytesDelivered.toNat + n := by
    rw [BitVec.toNat_add, BitVec.toNat_ofNat]
    omega
  exact hsum ▸ rfl

/-- A `FILL` at the frame's end closes the session and answers `LAST` (42_burst_stream.md R106). -/
theorem fillDone_of_end {n : Nat} {raw : List Byte} {u : State} (hend : u.st.bytesDelivered.toNat + n = 76800) :
    (fillDone n raw u).st = { u.st with
      triggered := false, bytesDelivered := 0, srcOffset := u.st.srcOffset + BitVec.ofNat 32 (2 * n) } ∧
    (fillDone n raw u).answers = u.answers ++ [⟨fillResponse true n, offsetsFrom 0 (lumaBytes raw)⟩] := by
  rw [fillDone, endFill_of_end _ _ _ ((atFrameEnd_of_sum _ hend.le).trans (decide_eq_true hend))]
  exact ⟨rfl, rfl⟩

/-- A `FILL` short of the frame's end advances both counters (42_burst_stream.md R104). -/
theorem fillDone_of_short {n : Nat} {raw : List Byte} {u : State} (hle : u.st.bytesDelivered.toNat + n ≤ 76800)
    (hne : u.st.bytesDelivered.toNat + n ≠ 76800) :
    (fillDone n raw u).st = { u.st with
      bytesDelivered := BitVec.ofNat 32 (u.st.bytesDelivered.toNat + n)
      srcOffset := u.st.srcOffset + BitVec.ofNat 32 (2 * n) } ∧
    (fillDone n raw u).answers = u.answers ++ [⟨fillResponse false n, offsetsFrom 0 (lumaBytes raw)⟩] := by
  rw [fillDone, endFill_of_short _ _ _ ((atFrameEnd_of_sum _ hle).trans (decide_eq_false hne)), BitVec.ofNat_add,
    BitVec.ofNat_toNat, BitVec.setWidth_eq]
  exact ⟨rfl, rfl⟩

/-- The window a `FILL` leaves has luma byte `k` of the raw bytes at offset `k`. -/
theorem fillDone_read {n k : Nat} {raw : List Byte} {b0 b1 : Byte} (u : State) (h0 : raw[2 * k]? = some b0)
    (h1 : raw[2 * k + 1]? = some b1) : Memory.read (fillDone n raw u).window.cells k =
      some (luma (BitVec.ofNat 16 (256 * b0.toNat + b1.toNat))) := by
  have hy := lumaBytes_of_getElem h0 h1
  rw [fillDone_window, Window.read_fill_inside _ (List.getElem?_eq_some_iff.1 hy).1, hy]

end Sys2Proof.Machine

namespace Sys2Proof

open Machine

/-- Settles O33: with a count of 0 neither command uses the bus, and a `FILL` short of the frame's end stays short. -/
theorem zeroLengthDoesNothing : Obligations.ZeroLengthDoesNothing := by
  unfold Obligations.ZeroLengthDoesNothing
  refine ⟨fun s hrun => ?_, fun s hrun hopen hlt => ?_⟩
  · simp [exec, execBurst, hrun, burstInto, State.respond, okResponse]
  · have hshort : atFrameEnd s = false := decide_eq_false hlt.ne
    simp [exec, execFill, hrun, hopen, fillCount, fillInto, endFill_of_short _ _ _ hshort, State.respond, fillResponse,
      offsetsFrom]

/-- Settles O35: a `FILL` looks at the session before the window and the bus. -/
theorem fillRefusedWithoutSession : Obligations.FillRefusedWithoutSession := by
  unfold Obligations.FillRefusedWithoutSession
  intro w s hrun hclosed
  simp [exec, execFill, hrun, hclosed, State.respond, plainResponse]

/-- Settles O32: the burst's own lemma says what comes, and `deliverRaw` where it goes. -/
theorem burstReadsRawBytes : Obligations.BurstReadsRawBytes := by
  unfold Obligations.BurstReadsRawBytes
  intro n s hrun hsel hn hfits hack
  obtain ⟨raw, u, hexec, hmoves, hst, hlen, htrace, hdrawn, hserves⟩ := exec_burst_next_of_acked hrun hsel hn hfits hack
  refine ⟨raw, deliverRaw n.toNat raw u, hexec, hlen, htrace, ?_, fun k hk => ?_, fun k hk => ?_, ?_, ?_, hdrawn,
    hmoves.params, hmoves.env, hmoves.inbox, hmoves.hostLoop, fun frame pos len hfifo => ?_, fun hfifo hquiet => ?_⟩
  · simp [deliverRaw, hst]
  · exact Window.read_fill_inside u.window (hlen ▸ hk)
  · exact hmoves.window ▸ Window.read_fill_outside u.window (hlen ▸ hk)
  · exact (Window.fill_size _ _).trans (congrArg Window.size hmoves.window)
  · simp [deliverRaw, okResponse, hmoves.answers]
  · exact ⟨hlen ▸ (hserves.complete hfifo).1, fun k hk => by
      rw [hserves.getElem_of_complete hfifo (s.draws_getElem _ _ _ hk), Nat.add_right_comm, Nat.add_assoc]⟩
  · obtain ⟨hctl, hraw⟩ := hserves.quiet hfifo
      (State.quiet_range hdrawn fun k hk => hquiet k (Nat.le_of_lt_succ hk))
    exact ⟨hctl, fun k hk => by rw [hraw, s.draws_getElem _ _ _ hk, Nat.add_right_comm, Nat.add_assoc]⟩

/-- Settles O36: the raw bytes are those of one `RawRead`, and the end of the frame is where the sum says. -/
theorem fillDeliversLuma : Obligations.FillDeliversLuma := by
  unfold Obligations.FillDeliversLuma
  intro w s n hrun hsel hopen hlt hn hfits hack
  obtain ⟨raw, u, hexec, hmoves, hst, hlen, ⟨chunks, htrace, hflat, -, -⟩, -⟩ :=
    exec_fill_of_acked hrun hsel hopen hn hfits hack
  have hluma : (lumaBytes raw).length = n := lumaBytes_length hlen
  have hle : u.st.bytesDelivered.toNat + n ≤ 76800 := by rw [hst]; omega
  obtain ⟨hparams, henv, hinbox, hloop⟩ := exec_keeps_inputs hsel hexec
  refine ⟨raw, lumaBytes raw, burstEvents s.params.burstCmd chunks, fillDone n raw u, hexec, ?_, ?_, hlen, hluma,
    fun k hk => lumaBytes_getElem (by omega), fun k hk => ?_, fun k hk => ?_, ?_, fun hne => ?_, fun hend => ?_,
    hparams, henv, hinbox, hloop⟩
  · rw [fillDone_trace, htrace]
  · rw [receivedBytes_burstEvents, hflat]
  · rw [fillDone_window, Window.read_fill_inside _ (hluma ▸ hk)]
  · rw [fillDone_window, Window.read_fill_outside _ (hluma ▸ hk), hmoves.window]
  · rw [fillDone_window, Window.fill_size, hmoves.window]
  · rw [← hmoves.answers, ← hst]
    exact fillDone_of_short hle (hst ▸ hne)
  · rw [← hmoves.answers, ← hst]
    exact fillDone_of_end (hst ▸ hend)

/-- Settles O37: raw bytes `2k` and `2k + 1`, the frame's or their own transfers' draws, make luma byte `k`. -/
theorem fillDeliversNextPixels : Obligations.FillDeliversNextPixels := by
  unfold Obligations.FillDeliversNextPixels
  intro w s t n draw hrun hsel hopen hn hack hdraw h
  obtain ⟨raw, u, hexec, -, -, hlen, ⟨chunks, -, -, hchunked, hdrawn⟩, ds, hds, hserves⟩ :=
    exec_fill_of_acked hrun hsel hopen hn (hn ▸ fill_fits_of_next hrun hopen h) hack
  obtain rfl := Host.Outcome.next.inj (hexec.symm.trans h)
  have hdraws : ∀ i, i < 2 * n → ds[i]? = some (draw i) := fun i hi => by
    rw [hds i (by rw [← hserves.length, hlen]; exact hi), hdraw]
  rw [fillDone_ctl]
  refine ⟨fun frame pos len hfifo => ⟨fun k hk => ?_, hlen ▸ (hserves.complete hfifo).1⟩, fun hfifo hquiet => ?_⟩
  · exact fillDone_read u (hserves.getElem_of_complete hfifo (hdraws _ (by omega)))
      (hserves.getElem_of_complete hfifo (hdraws _ (by omega)))
  · rw [← hchunked.lengths, List.length_map] at hquiet
    obtain ⟨hctl, rfl⟩ := hserves.quiet hfifo (State.quiet_range (by rw [hdrawn, Nat.add_assoc]) hquiet)
    exact ⟨fun k hk => fillDone_read u (hdraws _ (by omega)) (hdraws _ (by omega)), hctl⟩

/-- Settles O38: the windows of a `RawRead` follow the chunk rule. -/
theorem fillSelectWindows : Obligations.FillSelectWindows := by
  unfold Obligations.FillSelectWindows
  intro w s t n hrun hsel hopen hn hack h
  obtain ⟨raw, u, hexec, -, -, hlen, ⟨chunks, htrace, rfl, hchunked, hdrawn⟩, -⟩ :=
    exec_fill_of_acked hrun hsel hopen hn (hn ▸ fill_fits_of_next hrun hopen h) hack
  obtain rfl := Host.Outcome.next.inj (hexec.symm.trans h)
  have hlengths := hchunked.lengths
  refine ⟨chunks, ?_, hlengths, fun c hc e => ?_, ?_, fun k hk => ?_⟩
  · rw [fillDone_trace, htrace]
  · rw [← specChunks_length c hc, ← e, ← hlengths, List.length_map]
  · rw [fillDone_drawn, hdrawn]
  · obtain ⟨b0, b1, h0, h1, -⟩ := lumaBytes_getElem (show 2 * k + 1 < chunks.flatten.length by omega)
    exact ⟨b0, b1, h0, h1, fillDone_read u h0 h1⟩

end Sys2Proof
end

section
/-! The edges of a session: what opens it and what closes it (42_burst_stream.md R106, R107). -/

namespace Sys2Proof.Machine

/-- Only `TRIG` opens a session: a `FILL` closes it or leaves it, and no other command writes the session's fields. -/
theorem exec_opens_only_trig {i : Instr} {s t : State} (hsel : s.st.sel = false) (h : exec i s = .next t)
    (hclosed : s.st.triggered = false) (hopen : t.st.triggered = true) : i = .trig := by
  by_contra htrig
  have hkept : t.st.triggered = false := by
    cases exec_record hsel h with
    | kept result => rw [result, hclosed]
    | closed full result => rw [result]; rfl
    | faulted ws answer result => rw [result, hclosed]
    | completed session result =>
      by_cases hfill : ∃ w, i = .fill w
      · exact absurd (session hfill) (by rw [hclosed]; exact Bool.false_ne_true)
      · rw [result, (completedBlock_session _ _ htrig fun w e => hfill ⟨w, e⟩).1, hclosed]
  rw [hkept] at hopen
  cases hopen

/-- A `TRIG` that opens a session has performed its two writes, and answers `OK`. -/
theorem exec_trig_answers_ok {s t : State} (hsel : s.st.sel = false) (h : exec .trig s = .next t)
    (hclosed : s.st.triggered = false) (hopen : t.st.triggered = true) :
    t.answers = s.answers ++ [⟨okResponse 0, []⟩] := by
  rcases hh : s.st.halted with _ | _
  swap
  · rw [exec_of_halted _ hh] at h
    rw [← Host.Outcome.next.inj h, State.respond_st, hclosed] at hopen
    cases hopen
  simp only [exec, execTrig, unlessHalted_of_running _ hh, hclosed, Bool.false_eq_true, if_false,
    Host.Outcome.next.injEq] at h
  have hspec := triggerWrites_spec hsel
  cases hw : triggerWrites s with
  | done a u =>
    rw [hw] at hspec h
    obtain ⟨hmoves, -⟩ := hspec
    rw [← h, ← hmoves.answers]
    rfl
  | nack u =>
    rw [hw] at hspec h
    obtain ⟨hmoves, hselected, -⟩ := hspec
    rw [← h, Bus.settle, busFault, takeBusFault_of_selected _ hselected, hmoves.st, hclosed] at hopen
    cases hopen

/-- A command that closes a session is the `FILL` that delivers the last byte of the frame, and answers `LAST`. -/
theorem exec_closes_at_frame_end {i : Instr} {s t : State} (hsel : s.st.sel = false) (h : exec i s = .next t)
    (hs : s.sessionOk) (hopen : s.st.triggered = true) (hclosed : t.st.triggered = false) :
    ∃ w a, i = .fill w ∧ 76800 - s.st.bytesDelivered.toNat ≤ w.toNat ∧ t.answers = s.answers ++ [a] ∧
      frameComplete a = true := by
  have hchanged : t.st.triggered ≠ s.st.triggered := by rw [hopen, hclosed]; exact Bool.false_ne_true
  rcases exec_outcome hsel h with rfl | ⟨r, response, rfl⟩ | ⟨u, bs, r, c⟩ | ⟨u, bs, c⟩
  · exact absurd rfl hchanged
  · obtain ⟨-, -, hlast, -, -⟩ := response
    split at hchanged
    · exact absurd (hlast ‹_›).2 hs.1.ne
    · exact absurd rfl hchanged
  · have hst : t.st = completedBlock i (windowCount s i) s.st := by
      rw [c.result, c.count, c.moves.st_eq (c.idle.trans hsel.symm)]
    have htrig : i ≠ .trig := fun e => absurd (c.refusals.1 e) (by simp [hopen])
    have hfill : ∃ w, i = .fill w := by
      by_contra hfill
      exact hchanged (hst ▸ (completedBlock_session _ _ htrig fun w e => hfill ⟨w, e⟩).1)
    obtain ⟨w, rfl⟩ := hfill
    rcases completedBlock_fill w (windowCount s (.fill w)) s.st with ⟨hend, -, -⟩ | ⟨-, hkept, -, -⟩
    · obtain ⟨hok, -, hlast⟩ := c.response
      have hsum : 76800 = s.st.bytesDelivered.toNat + fillCount w s.st.bytesDelivered :=
        (congrArg BitVec.toNat hend).symm.trans (toNat_add_fillCount w hs.1).1
      have hcount := fillCount_le w s.st.bytesDelivered
      refine ⟨w, _, rfl, by omega, by rw [c.result], ?_⟩
      simp [frameComplete, hok, hlast.2 ⟨⟨w, rfl⟩, c.count ▸ hend⟩]
    · exact absurd (hst ▸ hkept) hchanged
  · exact absurd (by rw [c.result, c.moves.st]) hchanged

end Sys2Proof.Machine

namespace Sys2Proof

open Machine

/-- Settles O53: no step but a `TRIG` that went through opens a session. -/
theorem sessionOpensOnlyByTrig : Obligations.SessionOpensOnlyByTrig := by
  unfold Obligations.SessionOpensOnlyByTrig
  intro s t hsel h hclosed hopen
  rcases step_cases h with ⟨-, rfl⟩ | ⟨rest, -, rfl⟩ | ⟨r, rest, hin, ⟨i, hdecode, hexec⟩ | rfl⟩
  · exact absurd (hclosed.symm.trans hopen) Bool.false_ne_true
  · exact absurd hopen Bool.false_ne_true
  · obtain rfl := exec_opens_only_trig (s := acceptCommand r rest s) hsel.1 hexec hclosed hopen
    exact ⟨r, rest, hin, hdecode, exec_trig_answers_ok (s := acceptCommand r rest s) hsel.1 hexec hclosed hopen⟩
  · rw [(illegalCommand_keeps _).1] at hopen
    exact absurd (hclosed.symm.trans hopen) Bool.false_ne_true

/-- Settles O54: a step that closes a session is a `Reset` or a command, and of the commands only one does. -/
theorem sessionClosesOnlyAtFrameEnd : Obligations.SessionClosesOnlyAtFrameEnd := by
  unfold Obligations.SessionClosesOnlyAtFrameEnd
  intro s t hsel hs h hopen hclosed
  rcases step_cases h with ⟨-, rfl⟩ | ⟨rest, hin, rfl⟩ | ⟨r, rest, hin, ⟨i, hdecode, hexec⟩ | rfl⟩
  · exact absurd (hclosed.symm.trans hopen) Bool.false_ne_true
  · exact .inl ⟨rest, hin⟩
  · obtain ⟨w, a, rfl, hlast, hanswers, hcomplete⟩ :=
      exec_closes_at_frame_end (s := acceptCommand r rest s) hsel.1 hexec hs hopen hclosed
    exact .inr ⟨r, rest, w, a, hin, hdecode, hlast, hanswers, hcomplete⟩
  · rw [(illegalCommand_keeps _).1] at hclosed
    exact absurd (hclosed.symm.trans hopen) Bool.false_ne_true

end Sys2Proof
end

section
/-! The host's draining of a frame, one `FILL` after another (42_burst_stream.md R109, 30_encoding.md R73). -/

namespace Sys2Proof.Machine

/-! ### The pixels of a frame -/

/-- The next `m` pixels of a frame from raw position `pos` on, converted (40_codec.md R88). -/
def framePixels (frame : List Byte) (pos m : Nat) : List Byte :=
  (List.range m).map fun k => luma (BitVec.ofNat 16
    (256 * (frame.getD (pos + 2 * k) 0).toNat + (frame.getD (pos + 2 * k + 1) 0).toNat))

theorem framePixels_add (frame : List Byte) (pos n m : Nat) :
    framePixels frame pos (n + m) = framePixels frame pos n ++ framePixels frame (pos + 2 * n) m := by
  simp [framePixels, List.range_add, Function.comp_def, Nat.mul_add, Nat.add_assoc]

/-- The luma bytes of the frame's next raw bytes are its next pixels. -/
theorem lumaBytes_eq_framePixels {raw frame : List Byte} {pos n : Nat} (hroom : pos + 2 * n ≤ frame.length)
    (hraw : raw = (frame.drop pos).take (2 * n)) : lumaBytes raw = framePixels frame pos n := by
  have hget : ∀ i, i < 2 * n → raw[i]? = some (frame.getD (pos + i) 0) := fun i hi => by
    rw [hraw, List.getElem?_take_of_lt hi, List.getElem?_drop, List.getD_eq_getElem?_getD,
      List.getElem?_eq_getElem (by omega : pos + i < frame.length)]
    rfl
  have hlen : (lumaBytes raw).length = n := lumaBytes_length (by rw [hraw]; simp; omega)
  apply List.ext_getElem?
  intro k
  by_cases hk : k < n
  · rw [lumaBytes_of_getElem (hget (2 * k) (by omega)) (hget (2 * k + 1) (by omega)), framePixels, List.getElem?_map,
      List.getElem?_range hk]
    rfl
  · rw [List.getElem?_eq_none (by omega), List.getElem?_eq_none (by simp [framePixels]; omega)]

/-! ### What the host sees of a command -/

/-- The host issues a command with a window: the block runs it on that window. -/
theorem issue_encode (i : Instr) (w : Window) (s : State) :
    issue { word := encode i, window := w } s = exec i { s with window := w } := by
  have hin : (s.offer ⟨encode i, w⟩).inbox = .command ⟨encode i, w⟩ :: s.inbox := rfl
  exact step_of_command hin (decodeOfEncode i)

theorem fillWidth_toNat (w : Window) : (fillWidth w).toNat = min w.size 16777215 :=
  Nat.mod_eq_of_lt (by omega)

theorem lastWrites_of_answers {t : State} {as : List Answer} {a : Answer} (h : t.answers = as ++ [a]) :
    lastWrites t = a.writes := by
  simp [lastWrites, h]

theorem lastOk_of_answers {t : State} {as : List Answer} {a : Answer} (h : t.answers = as ++ [a])
    (hok : a.response.status = .ok) (p : Response → Bool) : lastOk p t = p a.response := by
  simp [lastOk, lastResponse, h, hok]

/-! ### Transfers acknowledged -/

theorem State.acked.of_le {s : State} {n m : Nat} (h : s.acked m) (hle : n ≤ m) : s.acked n :=
  fun k hk => h k (lt_of_lt_of_le hk hle)

/-- The transfers after the first `n`. -/
theorem State.acked.later {s t : State} {n m : Nat} (h : s.acked (n + m)) (henv : t.env = s.env)
    (hdrawn : t.drawn = s.drawn + n) : t.acked m := by
  intro k hk
  rw [State.choiceAt_congr henv, hdrawn, Nat.add_assoc]
  exact h (n + k) (by omega)

/-! ### One frame, `FILL` by `FILL` -/

/-- A session is open with `rest` luma bytes of the frame to come, over a complete capture read up to `pos`. -/
structure Streaming (s : State) (rest : Nat) (frame : List Byte) (pos : Nat) (len : BitVec 23) : Prop where
  running : s.st.halted = false
  idle : s.st.sel = false
  opened : s.st.triggered = true
  left : s.st.bytesDelivered.toNat + rest = 76800
  fifo : s.ctl.fifo = .complete frame pos len

/-- What a `FILL` of `n` bytes gives while streaming: the next `n` pixels, `LAST` with the last of the frame, and, short
of that, a session that goes on from there. -/
structure Filled (n : Nat) (s t : State) (rest : Nat) (frame : List Byte) (pos : Nat) (len : BitVec 23) : Prop where
  params : t.params = s.params
  env : t.env = s.env
  drawn : t.drawn = s.drawn + (2 * n + (specChunks s.params.burstChunk (2 * n)).length)
  fifo : t.ctl.fifo = .complete frame (pos + 2 * n) len
  answer : t.answers = s.answers ++ [⟨fillResponse (decide (n = rest)) n, offsetsFrom 0 (framePixels frame pos n)⟩]
  streaming : n ≠ rest → Streaming t (rest - n) frame (pos + 2 * n) len

variable {frame : List Byte} {len : BitVec 23}

/-- A `FILL` while streaming, its transfers acknowledged and its bytes in the frame. -/
theorem Streaming.fill {s : State} {rest pos n : Nat} {w : Count} (hs : Streaming s rest frame pos len)
    (hn : n = min w.toNat rest) (hfits : n ≤ s.window.size)
    (hack : s.acked (2 * n + (specChunks s.params.burstChunk (2 * n)).length)) (hroom : pos + 2 * n ≤ frame.length) :
    ∃ t, exec (.fill w) s = .next t ∧ Filled n s t rest frame pos len := by
  obtain ⟨hrun, hsel, hopen, hleft, hfifo⟩ := hs
  have hcount : n = fillCount w s.st.bytesDelivered := by
    rw [hn, fillCount, Config.frameBytes, ← hleft, Nat.add_sub_cancel_left]
  obtain ⟨raw, u, hexec, hmoves, hst, hlen, ⟨chunks, -, -, hchunked, hdrawn⟩, ds, -, hserves⟩ :=
    exec_fill_of_acked hrun hsel hopen hcount hfits hack
  have hpixels : lumaBytes raw = framePixels frame pos n :=
    lumaBytes_eq_framePixels hroom (hlen ▸ hserves.exact hfifo (hlen.symm ▸ hroom))
  have hctl : (fillDone n raw u).ctl.fifo = .complete frame (pos + 2 * n) len := by
    rw [fillDone_ctl, (hserves.complete hfifo).1, hlen]
  have hle : u.st.bytesDelivered.toNat + n ≤ 76800 := by rw [hst]; omega
  refine ⟨_, hexec, (fillDone_params _ _ _).trans hmoves.params, (fillDone_env _ _ _).trans hmoves.env, ?_, hctl, ?_,
    fun hne => ?_⟩
  · rw [fillDone_drawn, hdrawn, ← hchunked.lengths, List.length_map, Nat.add_assoc]
  · rw [← hpixels, ← hmoves.answers]
    by_cases hend : n = rest
    · rw [decide_eq_true hend]
      exact (fillDone_of_end (by rw [hst, hend, hleft])).2
    · rw [decide_eq_false hend]
      exact (fillDone_of_short hle (by rw [hst]; omega)).2
  · have hblock := (fillDone_of_short (raw := raw) hle (by rw [hst]; omega)).1
    rw [hst] at hblock
    refine ⟨by rw [hblock, hrun], by rw [hblock, hsel], by rw [hblock, hopen], ?_, hctl⟩
    rw [hblock, BitVec.toNat_ofNat]
    omega

/-- Draining while streaming: each window takes its pixels off the frame, and the windows after it the rest
(42_burst_stream.md R109). -/
theorem Streaming.drain (ws : List Window) : ∀ {s : State} {rest pos m : Nat}, Streaming s rest frame pos len →
    0 < rest → m = min rest (ws.map fun w => min w.size 16777215).sum →
    s.acked (drainTransfers s.params.burstChunk rest (ws.map fun w => min w.size 16777215)) →
    pos + 2 * m ≤ frame.length →
    ∃ d, drain ws s = .next d ∧ d.committed = framePixels frame pos m ∧ (d.last = true ↔ m = rest) ∧
      d.state.ctl.fifo = .complete frame (pos + 2 * m) len := by
  induction ws with
  | nil =>
    intro s rest pos m hs hpos hm hack hroom
    obtain rfl : m = 0 := by simpa using hm
    exact ⟨_, rfl, rfl, by simp [hpos.ne], hs.fifo⟩
  | cons w ws ih =>
    intro s rest pos m hs hpos hm hack hroom
    obtain ⟨n, hn⟩ : ∃ n, n = min (min w.size 16777215) rest := ⟨_, rfl⟩
    rw [List.map_cons, drainTransfers, ← hn] at hack
    rw [List.map_cons, List.sum_cons] at hm
    obtain ⟨t, hexec, hparams, henv, hdrawn, hfifo, hanswer, hgoes⟩ :=
      Streaming.fill (s := { s with window := w }) (w := fillWidth w) (n := n)
        ⟨hs.running, hs.idle, hs.opened, hs.left, hs.fifo⟩ (by rw [fillWidth_toNat, hn]) (by show n ≤ w.size; omega)
        (hack.of_le (Nat.le_add_right _ _)) (by omega)
    have hwrites : (lastWrites t).map Prod.snd = framePixels frame pos n := by
      rw [lastWrites_of_answers hanswer, offsetsFrom_snd]
    have hlast := lastOk_of_answers hanswer rfl fun r => r.last
    have hok := lastOk_of_answers hanswer rfl fun _ => true
    simp only [Machine.drain, issue_encode, hexec, hlast, hok, hwrites, fillResponse, decide_eq_true_eq, if_true]
    by_cases hend : n = rest
    · obtain rfl : m = n := by omega
      rw [if_pos hend]
      exact ⟨_, rfl, rfl, by simp [hend], hfifo⟩
    · rw [if_neg hend]
      obtain ⟨d, hd, hcommitted, hd_last, hd_fifo⟩ := ih (hgoes hend) (m := m - n) (by omega) (by omega)
        (by rw [hparams]; exact State.acked.later hack henv hdrawn) (by omega)
      rw [hd]
      refine ⟨_, rfl, ?_, ?_, ?_⟩
      · rw [hcommitted, ← framePixels_add, Nat.add_sub_cancel' (by omega)]
      · exact hd_last.trans ⟨by omega, by omega⟩
      · rw [hd_fifo, Nat.add_assoc, ← Nat.mul_add, Nat.add_sub_cancel' (by omega)]

end Sys2Proof.Machine

namespace Sys2Proof

open Machine

/-- Settles O39: each `FILL` streams its pixels and leaves the session streaming, until the last. -/
theorem drainStreamsFrame : Obligations.DrainStreamsFrame := by
  unfold Obligations.DrainStreamsFrame
  intro ws s m rest frame pos len hrun hsel hopen hrest hpos hm hack hfifo hroom
  exact Streaming.drain ws ⟨hrun, hsel, hopen, by omega, hfifo⟩ hpos hm hack hroom

end Sys2Proof
end

section
/-! What the command port does with a halted block and with an illegal word, which commands halt the block, and what
leaves the halted state (60_exceptions.md R121, R124 to R129). -/

namespace Sys2Proof.Machine

/-! ### Words that are refused -/

theorem unlessHalted_of_halted {s : State} (k : State → State) (h : s.st.halted = true) :
    unlessHalted k s = s.respond (plainResponse .halted) [] := if_pos h

/-- A word that is no instruction is taken up and refused (60_exceptions.md R126). -/
theorem step_of_illegal {s : State} {r : Request} {rest : List Input} (hin : s.inbox = .command r :: rest)
    (hbad : ∀ i, decode r.word ≠ .ok i) : step s = .next (illegalCommand (acceptCommand r rest s)) := by
  cases hdecode : decode r.word with
  | ok i => exact absurd hdecode (hbad i)
  | error e => simp only [step, hin, hdecode]

/-- A halted block refuses every word alike (60_exceptions.md R125). -/
theorem step_of_halted {s : State} {r : Request} {rest : List Input} (hin : s.inbox = .command r :: rest)
    (hhalt : s.st.halted = true) :
    step s = .next ((acceptCommand r rest s).respond (plainResponse .halted) []) := by
  cases hdecode : decode r.word with
  | ok i => rw [step_of_command hin hdecode, exec_of_halted i (s := acceptCommand r rest s) hhalt]
  | error e =>
    rw [step_of_illegal hin (by simp [hdecode]), illegalCommand,
      unlessHalted_of_halted (s := acceptCommand r rest s) _ hhalt]

/-! ### What halts the block -/

/-- A command of a running block leaves it running, every choice used being an acknowledgement, or takes the bus
fault. -/
theorem exec_running_or_faulted {i : Instr} {s t : State} (hrun : s.st.halted = false) (hsel : s.st.sel = false)
    (h : exec i s = .next t) :
    (t.st.halted = false ∧ ∀ k, s.drawn ≤ k → k < t.drawn → (s.choiceAt k).ack = true) ∨
      ∃ u bs, FaultedBy i s t u bs := by
  rcases exec_ended hsel hrun h with ⟨r, -, rfl⟩ | ⟨u, bs, r, c⟩ | ⟨u, bs, c⟩
  · refine .inl ?_
    split <;> exact ⟨hrun, fun k hle hlt => absurd hlt (Nat.not_lt.2 hle)⟩
  · have hst := c.moves.st_eq (c.idle.trans hsel.symm)
    rw [c.result]
    exact .inl ⟨by rw [completedBlock_halted, hst, hrun], c.acks⟩
  · exact .inr ⟨u, bs, c⟩

/-- What the bus fault does to the block (60_exceptions.md R124). -/
theorem FaultedBy.effect {i : Instr} {s t u : State} {bs : List Byte} (c : FaultedBy i s t u bs)
    (hsel : s.st.sel = false) :
    t.st = { s.st with halted := true } ∧ (∃ es, t.trace = s.trace ++ es ++ [.desel]) ∧
      t.answers = s.answers ++ [⟨plainResponse .busFault, offsetsFrom 0 bs⟩] := by
  obtain ⟨es, htrace, -⟩ := c.moves.trace
  rw [c.result]
  refine ⟨?_, ⟨es, by rw [htrace]⟩, rfl⟩
  rw [c.moves.st, ← hsel]

/-- The bus fault used the choice of the failed transfer (20_memory.md R54). -/
theorem FaultedBy.failed_choice {i : Instr} {s t u : State} {bs : List Byte} (c : FaultedBy i s t u bs) :
    ∃ k, s.drawn ≤ k ∧ k < t.drawn ∧ (s.choiceAt k).ack = false := by
  have hused := c.used
  refine ⟨u.drawn - 1, by omega, ?_, c.failed⟩
  rw [c.result]
  show u.drawn - 1 < u.drawn + windowCount s i
  omega

end Sys2Proof.Machine

namespace Sys2Proof

open Machine

/-- Settles O8: the refusal is the one answer of an illegal word. -/
theorem illegalWordAnswered : Obligations.IllegalWordAnswered := by
  unfold Obligations.IllegalWordAnswered
  intro s r rest hin hbad hrun
  rw [step_of_illegal hin hbad, illegalCommand, unlessHalted_of_running (s := acceptCommand r rest s) _ hrun]
  rfl

/-- Settles O9: legal or not, the word is refused before anything else. -/
theorem haltedAnswersEveryWord : Obligations.HaltedAnswersEveryWord := by
  unfold Obligations.HaltedAnswersEveryWord
  exact fun s r rest => step_of_halted

/-- Settles O41: a command that halts the block has taken the bus fault. -/
theorem busFaultEffect : Obligations.BusFaultEffect := by
  unfold Obligations.BusFaultEffect
  intro i s t hrun hsel h hhalt
  rcases exec_running_or_faulted hrun hsel h with ⟨hruns, -⟩ | ⟨u, bs, c⟩
  · exact absurd (hruns.symm.trans hhalt) Bool.false_ne_true
  · obtain ⟨hst, htrace, hanswers⟩ := c.effect hsel
    exact ⟨hst, htrace, _, hanswers⟩

/-- Settles O46: a command that goes through used acknowledgements alone, and one that faults a failed transfer. -/
theorem haltsOnlyOnFailedTransfer : Obligations.HaltsOnlyOnFailedTransfer := by
  unfold Obligations.HaltsOnlyOnFailedTransfer
  intro i s t hrun hsel h
  rcases exec_running_or_faulted hrun hsel h with ⟨hruns, hacks⟩ | ⟨u, bs, c⟩
  · refine iff_of_false (by rw [hruns]; exact Bool.false_ne_true) ?_
    rintro ⟨k, hle, hlt, hf⟩
    exact Bool.false_ne_true (hf.symm.trans (hacks k hle hlt))
  · exact iff_of_true (by rw [(c.effect hsel).1]) c.failed_choice

/-- Settles O55: the idle step keeps the record, and a halted block refuses every command. -/
theorem haltedLeftOnlyByReset : Obligations.HaltedLeftOnlyByReset := by
  unfold Obligations.HaltedLeftOnlyByReset
  intro s t h hhalt hruns
  rcases step_cases h with ⟨-, rfl⟩ | ⟨rest, hin, -⟩ | ⟨r, rest, hin, -⟩
  · exact absurd (hruns.symm.trans hhalt) Bool.false_ne_true
  · exact ⟨rest, hin⟩
  · obtain rfl := Host.Outcome.next.inj ((step_of_halted hin hhalt).symm.trans h)
    exact absurd (hruns.symm.trans hhalt) Bool.false_ne_true

end Sys2Proof
end

section
/-! The register accesses of a command at a failed transfer: `RDREG`, `WRREG`, `TRIG`, `POLL` and `FLEN`
(60_exceptions.md R124, 20_memory.md R44, R45, R54). -/

namespace Sys2Proof.Machine

/-! ### Operations that end in the bus fault -/

/-- The operation stops at a failed transfer, and the bus fault of a command that writes no window byte then leaves
`t`. -/
def Bus.FaultsTo {α : Type} (t : State) (r : Bus α) : Prop := ∃ u, r = .nack u ∧ busFault u = t

theorem Bus.FaultsTo.bind {α β : Type} {t : State} {r : Bus α} (h : r.FaultsTo t) (k : α → State → Bus β) :
    (r.bind k).FaultsTo t := by
  obtain ⟨u, rfl, hu⟩ := h
  exact ⟨u, rfl, hu⟩

theorem Bus.FaultsTo.settle {α : Type} {t : State} {r : Bus α} (h : r.FaultsTo t) (k : α → State → State) :
    r.settle busFault k = t := by
  obtain ⟨u, rfl, hu⟩ := h
  exact hu

/-- The bus fault closes the select window in which the transfer failed (60_exceptions.md R124). -/
theorem busFault_stopped {s : State} (hsel : s.st.sel = false) (n : Nat) (es : List BusEvent) (c : Controller) :
    busFault (s.stopped n es c) = faultedState s n es c := by
  have hst : { s.st with halted := true, sel := false } = { s.st with halted := true } := by rw [← hsel]
  rw [busFault, takeBusFault_of_selected _ rfl, faultedState, ← hst]
  rfl

/-! ### One register access of a command -/

/-- A command that began at `s` is at `t` between two register accesses, `k` transfers used. -/
structure State.Reaches (s : State) (k : Nat) (t : State) : Prop where
  idle : t.st.sel = false
  env : t.env = s.env
  drawn : t.drawn = s.drawn + k

section Access

variable {s t : State} {k : Nat} {atData : Bool}

theorem State.Reaches.acked {n : Nat} (h : s.Reaches k t) (hack : s.acked (k + n)) : t.acked n :=
  hack.later h.env h.drawn

theorem State.Reaches.choiceAt (h : s.Reaches k t) (n : Nat) :
    t.choiceAt (t.drawn + n) = s.choiceAt (s.drawn + (k + n)) := by
  rw [State.choiceAt_congr h.env, h.drawn, Nat.add_assoc]

/-- `RdReg` at a failed transfer. -/
theorem rdReg_faults (a : RegAddr) (h : s.Reaches k t) (hack : s.acked (k + atData.toNat))
    (hf : (s.choiceAt (s.drawn + (k + atData.toNat))).ack = false) :
    (rdReg a t).FaultsTo (readFaulted t a atData) := by
  have hack := h.acked hack
  rw [← h.choiceAt] at hf
  cases atData with
  | false => exact ⟨_, rdReg_nack_command a h.idle hf, busFault_stopped h.idle _ _ _⟩
  | true => exact ⟨_, rdReg_nack_data a h.idle (hack 0 Nat.one_pos) hf, busFault_stopped h.idle _ _ _⟩

/-- `WrReg` at a failed transfer. -/
theorem wrReg_faults (a : RegAddr) (v : Byte) (h : s.Reaches k t) (hack : s.acked (k + atData.toNat))
    (hf : (s.choiceAt (s.drawn + (k + atData.toNat))).ack = false) :
    (wrReg a v t).FaultsTo (writeFaulted t a v atData) := by
  have hack := h.acked hack
  rw [← h.choiceAt] at hf
  cases atData with
  | false => exact ⟨_, wrReg_nack_command a v h.idle hf, busFault_stopped h.idle _ _ _⟩
  | true => exact ⟨_, wrReg_nack_data a v h.idle (hack 0 Nat.one_pos) hf, busFault_stopped h.idle _ _ _⟩

/-- `RdReg` with its two transfers acknowledged. -/
theorem rdReg_of_acked (a : RegAddr) (h : s.Reaches k t) (hack : s.acked (k + 2)) :
    rdReg a t = .done (t.byteRead a) (t.afterRead a) := by
  obtain ⟨v, u, hread, -, -, rfl, rfl⟩ := (rdReg_spec a h.idle).done_of_acked (h.acked hack)
  exact hread

theorem State.Reaches.afterRead (a : RegAddr) (h : s.Reaches k t) : s.Reaches (k + 2) (t.afterRead a) :=
  ⟨h.idle, h.env, congrArg (· + 2) h.drawn⟩

theorem State.reaches_self (hsel : s.st.sel = false) : s.Reaches 0 s := ⟨hsel, rfl, rfl⟩

theorem State.reaches_reported (hsel : s.st.sel = false) : s.Reaches 0 s.reported := ⟨hsel, rfl, rfl⟩

theorem State.reaches_clearDone (hsel : s.st.sel = false) : s.Reaches 2 s.clearDone := ⟨hsel, rfl, rfl⟩

end Access

/-! ### The commands -/

section Commands

variable {s : State}

/-- `RDREG` at a failed transfer. -/
theorem exec_rdreg_faults (a : RegAddr) (hrun : s.st.halted = false) (hsel : s.st.sel = false) :
    FaultsAt (.rdreg a) s 0 (readFaulted s a) := by
  intro atData hack hf
  rw [exec, execRdreg, unlessHalted_of_running _ hrun, (rdReg_faults a (State.reaches_self hsel) hack hf).settle]

/-- `WRREG` at a failed transfer. -/
theorem exec_wrreg_faults (a : RegAddr) (v : Byte) (hrun : s.st.halted = false) (hsel : s.st.sel = false) :
    FaultsAt (.wrreg a v) s 0 (writeFaulted s a v) := by
  intro atData hack hf
  rw [exec, execWrreg, unlessHalted_of_running _ hrun, (wrReg_faults a v (State.reaches_self hsel) hack hf).settle]

/-- `POLL` at a failed transfer. -/
theorem exec_poll_faults (hrun : s.st.halted = false) (hsel : s.st.sel = false) :
    FaultsAt .poll s 0 (readFaulted s s.params.regStatus) := by
  intro atData hack hf
  rw [exec, execPoll, unlessHalted_of_running _ hrun, (rdReg_faults _ (State.reaches_self hsel) hack hf).settle]

/-- A `TRIG` outside a session whose writes fault (41_capture_control.md R93). -/
theorem exec_trig_of_faults {t : State} (hrun : s.st.halted = false) (hidle : s.st.triggered = false)
    (h : (triggerWrites s).FaultsTo t) : exec .trig s = .next t := by
  rw [exec, execTrig, unlessHalted_of_running _ hrun, if_neg (by simp [hidle]), h.settle]

/-- `TRIG` at a failed transfer of its clear write. -/
theorem exec_trig_faults_at_clear (hrun : s.st.halted = false) (hsel : s.st.sel = false)
    (hidle : s.st.triggered = false) :
    FaultsAt .trig s 0 (writeFaulted s s.params.regClr s.params.valClr) := fun _ hack hf =>
  exec_trig_of_faults hrun hidle ((wrReg_faults _ _ (State.reaches_self hsel) hack hf).bind _)

/-- `TRIG` at a failed transfer of its start write: the clear write is performed. -/
theorem exec_trig_faults_at_start (hrun : s.st.halted = false) (hsel : s.st.sel = false)
    (hidle : s.st.triggered = false) :
    FaultsAt .trig s 2 (writeFaulted s.clearDone s.params.regStart s.params.valStart) := by
  intro atData hack hf
  obtain ⟨_, u, hclear, -, -, rfl⟩ := (wrReg_spec s.params.regClr s.params.valClr hsel).done_of_acked
    (hack.of_le (Nat.le_add_right 2 _))
  apply exec_trig_of_faults hrun hidle
  rw [triggerWrites, hclear]
  exact wrReg_faults _ _ (State.reaches_clearDone hsel) hack hf

/-- An `FLEN` whose reads fault (41_capture_control.md R95). -/
theorem exec_flen_of_faults {t : State} (hrun : s.st.halted = false) (h : (readLength s).FaultsTo t) :
    exec .flen s = .next t := by
  rw [exec, execFlen, unlessHalted_of_running _ hrun, h.settle]

/-- `FLEN` at a failed transfer of its first read. -/
theorem exec_flen_faults_at_lo (hrun : s.st.halted = false) (hsel : s.st.sel = false) :
    FaultsAt .flen s 0 (readFaulted s.reported s.params.regLenLo) := fun _ hack hf =>
  exec_flen_of_faults hrun ((rdReg_faults _ (State.reaches_reported hsel) hack hf).bind _)

/-- `FLEN` at a failed transfer of its second read. -/
theorem exec_flen_faults_at_mid (hrun : s.st.halted = false) (hsel : s.st.sel = false) :
    FaultsAt .flen s 2 (readFaulted (s.reported.afterRead s.params.regLenLo) s.params.regLenMid) := by
  intro atData hack hf
  have h0 := State.reaches_reported hsel
  apply exec_flen_of_faults hrun
  rw [readLength, rdReg_of_acked _ h0 (hack.of_le (by omega))]
  exact (rdReg_faults _ (h0.afterRead _) hack hf).bind _

/-- `FLEN` at a failed transfer of its third read. -/
theorem exec_flen_faults_at_hi (hrun : s.st.halted = false) (hsel : s.st.sel = false) :
    FaultsAt .flen s 4 (readFaulted ((s.reported.afterRead s.params.regLenLo).afterRead s.params.regLenMid)
      s.params.regLenHi) := by
  intro atData hack hf
  have h0 := State.reaches_reported hsel
  have h2 := h0.afterRead s.params.regLenLo
  apply exec_flen_of_faults hrun
  rw [readLength, rdReg_of_acked _ h0 (hack.of_le (by omega)), Bus.bind,
    rdReg_of_acked _ h2 (hack.of_le (by omega))]
  exact (rdReg_faults _ (h2.afterRead _) hack hf).bind _

end Commands

end Sys2Proof.Machine

namespace Sys2Proof

open Machine

/-- Settles O20: the two transfers of one register read. -/
theorem rdregBusFault : Obligations.RdregBusFault := by
  unfold Obligations.RdregBusFault
  intro a s hrun hsel
  refine ⟨fun hf => ?_, fun hack hf => ?_⟩
  · rw [exec_rdreg_faults a hrun hsel false (fun k hk => absurd hk (Nat.not_lt_zero k)) hf]
    simp [readFaulted, faultedState]
  · rw [exec_rdreg_faults a hrun hsel true (fun k hk => Nat.lt_one_iff.1 hk ▸ hack) hf]
    simp [readFaulted, faultedState]

/-- Settles O42: a `TRIG` whose start write fails starts it from the state its clear write left. -/
theorem writeBusFault : Obligations.WriteBusFault := by
  unfold Obligations.WriteBusFault
  refine ⟨fun a v s => exec_wrreg_faults a v, fun s s2 hrun hsel hidle hs2 => ?_⟩
  have hclear : s2 = s.clearDone := by
    rw [hs2, ← writeCommand_eq]
    rfl
  subst hclear
  exact ⟨exec_trig_faults_at_clear hrun hsel hidle, exec_trig_faults_at_start hrun hsel hidle⟩

/-- Settles O43: each read of an `FLEN` starts from the state the reads before it left. -/
theorem readBusFault : Obligations.ReadBusFault := by
  unfold Obligations.ReadBusFault
  refine ⟨fun s => exec_poll_faults, ?_⟩
  rintro s s1 s2 s3 hrun hsel rfl rfl rfl
  exact ⟨exec_flen_faults_at_lo hrun hsel, exec_flen_faults_at_mid hrun hsel, exec_flen_faults_at_hi hrun hsel⟩

end Sys2Proof
end

section
/-! `BURST` and `FILL` at a failed transfer: the windows and the bytes before it stay in the trace and consumed
(60_exceptions.md R124, 42_burst_stream.md R102, 20_memory.md R46, R50, R54). -/

namespace Sys2Proof.Machine

/-! ### The bus fault of a command that writes window bytes -/

/-- The bus fault closes the open select window and halts the block; the controller stays as the transfers have left
it (60_exceptions.md R124). -/
theorem busFaultWindow_of_moves {s u : State} (n : Nat) (hm : BusMoves s u) (hsel : s.st.sel = false)
    (hopen : u.st.sel = true) :
    (busFaultWindow n u).st = { s.st with halted := true } ∧
      (busFaultWindow n u).trace = u.trace ++ [.desel] ∧ (busFaultWindow n u).ctl = u.ctl := by
  have hfault := takeBusFault_of_selected (s := { u with drawn := u.drawn + n }.fillWindow (u.draws u.drawn n))
    (offsetsFrom 0 (u.draws u.drawn n)) hopen
  rw [busFaultWindow, hfault]
  refine ⟨?_, rfl, rfl⟩
  show { u.st with halted := true, sel := false } = { s.st with halted := true }
  rw [hm.st, ← hsel]

/-- A `BURST` whose bus operation fails. -/
theorem exec_burst_of_nack {n : Count} {s u : State} (hrun : s.st.halted = false) (hn : n ≠ 0)
    (hfits : n.toNat ≤ s.window.size) (h : burstRead n.toNat s = .nack u) :
    exec (.burst n) s = .next (busFaultWindow n.toNat u) := by
  have hn' : n.toNat ≠ 0 := fun e => hn (BitVec.eq_of_toNat_eq e)
  simp [exec, execBurst, hrun, hfits, burstInto, hn', h, Bus.settle]

/-- A `FILL` of `n` bytes whose bus operation fails. -/
theorem exec_fill_of_nack {w : Count} {s u : State} {n : Nat} (hrun : s.st.halted = false)
    (hopen : s.st.triggered = true) (hn : n = fillCount w s.st.bytesDelivered) (hfits : n ≤ s.window.size)
    (h : rawRead (2 * n) s = .nack u) : exec (.fill w) s = .next (busFaultWindow n u) := by
  have hn' : n ≠ 0 := by
    rintro rfl
    cases h
  simp [exec, execFill, hrun, hopen, ← hn, hfits, fillInto, hn', h, Bus.settle]

/-! ### The bytes received before the failed transfer -/

/-- Bytes that came from the FIFO, one by one, `d` being the draws of their transfers: with a capture complete they are
its next bytes, consumed; with none, and none completing up to the failed transfer, they are the draws. -/
theorem FifoServes.cases_at {s u : State} {bs ds : List Byte} {j : Nat} {d : Nat → Byte}
    (h : FifoServes s u bs ds) (hdrawn : u.drawn = s.drawn + (j + 1))
    (hds : ∀ i, i < bs.length → ds[i]? = some (d i)) :
    (∀ frame pos len, s.ctl.fifo = .complete frame pos len →
      u.ctl = { s.ctl with fifo := .complete frame (pos + bs.length) len } ∧
      ∀ i, i < bs.length → bs[i]? = some (frame[pos + i]?.getD (d i))) ∧
    ((∀ frame pos len, s.ctl.fifo ≠ .complete frame pos len) →
      (∀ k, k ≤ j → (s.choiceAt (s.drawn + k)).move = .nothing) →
      u.ctl = s.ctl ∧ ∀ i, i < bs.length → bs[i]? = some (d i)) := by
  refine ⟨fun frame pos len hfifo => ⟨(h.complete hfifo).1, fun i hi => ?_⟩, fun hnone hquiet => ?_⟩
  · exact h.getElem_of_complete hfifo (hds i hi)
  · obtain ⟨hctl, rfl⟩ := h.quiet hnone (State.quiet_range hdrawn fun k hk => hquiet k (Nat.lt_succ_iff.1 hk))
    exact ⟨hctl, hds⟩

/-- A window that was opened for `n` bytes and used `j` transfers before one failed: the command byte, where there was
one, and a byte for each of the others. -/
theorem Opened.transfers {cmd : Byte} {n : Nat} {raw : List Byte} {es : List BusEvent} (h : Opened cmd n raw es) :
    raw.length = es.length - 1 ∧ es = if es.length = 0 then [] else .tx cmd :: raw.map .rx := by
  rcases h with ⟨rfl, rfl⟩ | ⟨rfl, -⟩ <;> simp

/-! ### `BURST` -/

/-- `BURST n` whose transfer `j` is the first that fails. -/
theorem burstRead_nack_at {n j : Nat} {s : State} (hsel : s.st.sel = false) (hj : j ≤ n) (hack : s.acked j)
    (hf : (s.choiceAt (s.drawn + j)).ack = false) :
    ∃ u raw es, burstRead n s = .nack u ∧ BusMoves s u ∧ u.st.sel = true ∧ u.drawn = s.drawn + (j + 1) ∧
      es.length = j ∧ Opened s.params.burstCmd n raw es ∧ u.trace = s.trace ++ .sel :: es ∧
      FifoServes s u raw (s.draws (s.drawn + 1) raw.length) := by
  obtain ⟨u, hread, hmoves, hopen, hdrawn⟩ := (burstRead_spec n hsel).nack_at hack hf fun a t hp => by
    obtain ⟨-, -, hd, -⟩ := hp
    omega
  have hstops := burstRead_stops n hsel
  rw [hread] at hstops
  obtain ⟨raw, es, hopened, htrace, hd, hserves⟩ := hstops
  exact ⟨u, raw, es, hread, hmoves, hopen, by omega, by omega, hopened, htrace, hserves⟩

/-! ### `FILL` -/

/-- `RawRead(m)` whose transfer `j` is the first that fails. -/
theorem rawRead_nack_at {m j : Nat} {s : State} (hsel : s.st.sel = false)
    (hj : j < m + (specChunks s.params.burstChunk m).length) (hack : s.acked j)
    (hf : (s.choiceAt (s.drawn + j)).ack = false) :
    ∃ u, rawRead m s = .nack u ∧ BusMoves s u ∧ u.st.sel = true ∧ u.drawn = s.drawn + (j + 1) ∧
      RawStopped m s u := by
  obtain ⟨u, hread, hmoves, hopen, hdrawn⟩ := (rawRead_spec m hsel).nack_at hack hf fun a t hp => by
    obtain ⟨-, ⟨chunks, -, -, hchunked, hd⟩, -⟩ := hp
    have hcount : chunks.length = (specChunks s.params.burstChunk m).length := by
      rw [← hchunked.lengths, List.length_map]
    omega
  have hstops := rawReadLoop_stops m m hsel
  rw [← rawRead, hread] at hstops
  exact ⟨u, hread, hmoves, hopen, by omega, hstops⟩

/-- The chunk of a window is at most `BURST_CHUNK`, and there is no window before the one of an unlimited burst. -/
theorem FullChunks.sizes {chunk : BurstChunk} {chunks : List (List Byte)} {cmd : Byte} {m : Nat} {raw : List Byte}
    {es : List BusEvent} (hfull : FullChunks chunk chunks) (hopened : Opened cmd (chunkOf chunk m) raw es)
    (hm : m ≠ 0) : (chunk = .unlimited → chunks = []) ∧
      ∀ c h, chunk = .atMost c h → (∀ bs ∈ chunks, bs.length = c) ∧ raw.length < c := by
  refine ⟨?_, ?_⟩
  · rintro rfl
    exact hfull
  · rintro c h rfl
    exact ⟨hfull, lt_of_lt_of_le (hopened.length_le (chunkOf_pos _ hm)) (min_le_right m c)⟩

end Sys2Proof.Machine

namespace Sys2Proof

open Machine

/-- Settles O44: the failed transfer is one of the burst's, and the events before it give the bytes received. -/
theorem burstBusFault : Obligations.BurstBusFault := by
  unfold Obligations.BurstBusFault
  intro n s j hrun hsel hn hfits hj hack hf
  obtain ⟨u, raw, es, hread, hmoves, hopen, hdrawn, rfl, hopened, htrace, hserves⟩ :=
    burstRead_nack_at hsel hj hack hf
  obtain ⟨hst, hfaulted, hctl⟩ := busFaultWindow_of_moves n.toNat hmoves hsel hopen
  obtain ⟨hlen, hes⟩ := hopened.transfers
  have hbytes := hserves.cases_at hdrawn fun i hi => State.draws_getElem s raw.length (s.drawn + 1) i hi
  simp only [Nat.add_assoc, Nat.add_comm 1] at hbytes
  refine ⟨raw, _, exec_burst_of_nack hrun hn hfits hread, hlen, ?_, hst, ?_⟩
  · rw [hfaulted, htrace, ← hes]
  · rw [hctl, ← hlen]
    exact hbytes

/-- Settles O45: the failed transfer is one of the raw read's, and the windows and bytes before it are those of
`RawStopped`. -/
theorem fillBusFault : Obligations.FillBusFault := by
  unfold Obligations.FillBusFault
  intro w s n j hrun hsel htrig hn hfits hj hack hf
  obtain ⟨u, hread, hmoves, hopen, hdrawn, chunks, raw, es, hfull, hwanted, hopened, htrace, hcount, ds, hds,
    hserves⟩ := rawRead_nack_at hsel hj hack hf
  obtain ⟨hst, hfaulted, hctl⟩ := busFaultWindow_of_moves n hmoves hsel hopen
  obtain ⟨hunlimited, hatMost⟩ := hfull.sizes hopened (by omega)
  have hbytes := hserves.cases_at hdrawn fun i hi => hds i (hserves.length ▸ hi)
  rw [List.length_append] at hbytes
  refine ⟨chunks, raw, es, _, exec_fill_of_nack hrun htrig hn hfits hread, ?_, ?_, hunlimited, hatMost, hst, ?_⟩
  · rw [hfaulted, htrace]
  · refine hopened.imp (fun h => ⟨h.1, h.2, ?_⟩) fun h => ⟨h.1, ?_⟩
    · rw [h.1, List.length_nil] at hcount
      omega
    · rw [h.1, List.length_cons, List.length_map] at hcount
      omega
  · rw [hctl]
    exact hbytes

end Sys2Proof
end

section
/-! The two liveness failures: executions that go round for ever (60_exceptions.md R136, 20_memory.md R53). -/

namespace Sys2Proof.Machine

/-! ### Executions without end -/

/-- `k` steps of the machine lead from one state to another. -/
inductive Steps : Nat → State → State → Prop where
  | none (s : State) : Steps 0 s s
  | more {s t u : State} {k : Nat} (first : step s = .next t) (rest : Steps k t u) : Steps (k + 1) s u

/-- The state after a step; a step that stops leaves the state as it is. -/
def nextOf (s : State) : State :=
  match step s with
  | .next t => t
  | .fault _ => s
  | .refused _ => s

theorem nextOf_of_step {s t : State} (h : step s = .next t) : nextOf s = t := by
  rw [nextOf, h]

/-- Steps that lead from `s` to `t` are the states of the iteration from `s` on. -/
theorem Steps.iterate {k : Nat} {s t : State} (h : Steps k s t) :
    nextOf^[k] s = t ∧ ∀ j, j < k → step (nextOf^[j] s) = .next (nextOf^[j + 1] s) := by
  induction h with
  | none s => exact ⟨rfl, fun j hj => absurd hj (Nat.not_lt_zero j)⟩
  | more first rest ih =>
    obtain ⟨hend, hsteps⟩ := ih
    have hnext := nextOf_of_step first
    refine ⟨by rw [Function.iterate_succ_apply, hnext, hend], fun j hj => ?_⟩
    cases j with
    | zero => rw [Function.iterate_succ_apply, hnext]; exact first
    | succ j =>
      rw [Function.iterate_succ_apply, Function.iterate_succ_apply, hnext]
      exact hsteps j (Nat.succ_lt_succ_iff.1 hj)

/-- From `s` to `t` the answers `as` have come, and otherwise only the queue, the window, the trace and the number of
choices used have changed. -/
structure Quietly (as : List Answer) (s t : State) : Prop where
  st : t.st = s.st
  ctl : t.ctl = s.ctl
  params : t.params = s.params
  env : t.env = s.env
  hostLoop : t.hostLoop = s.hostLoop
  drawn : s.drawn ≤ t.drawn
  answers : t.answers = s.answers ++ as

/-- The host's queue and the window of the command are not the block's. -/
theorem quietly_queue (s : State) (queue : List Input) (w : Window) :
    Quietly [] s { s with inbox := queue, window := w } :=
  ⟨rfl, rfl, rfl, rfl, rfl, le_rfl, (List.append_nil _).symm⟩

theorem Quietly.trans {as bs : List Answer} {s t u : State} (h : Quietly as s t) (k : Quietly bs t u) :
    Quietly (as ++ bs) s u :=
  ⟨k.st.trans h.st, k.ctl.trans h.ctl, k.params.trans h.params, k.env.trans h.env, k.hostLoop.trans h.hostLoop,
    h.drawn.trans k.drawn, by rw [k.answers, h.answers, List.append_assoc]⟩

/-- After `k` rounds the invariant of the rounds holds, and the answers are those of `k` rounds. -/
theorem iterate_rounds {p : Nat} {I : State → Prop} {as : List Answer}
    (round : ∀ s, I s → ∃ t, Steps p s t ∧ I t ∧ Quietly as s t) {s : State} (hs : I s) (k : Nat) :
    I (nextOf^[p * k] s) ∧ Quietly (List.replicate k as).flatten s (nextOf^[p * k] s) := by
  induction k with
  | zero => exact ⟨hs, quietly_queue s s.inbox s.window⟩
  | succ k ih =>
    obtain ⟨hI, hk⟩ := ih
    obtain ⟨t, hsteps, ht, hround⟩ := round _ hI
    rw [Nat.mul_succ, Nat.add_comm, Function.iterate_add_apply, hsteps.iterate.1, List.replicate_succ',
      List.flatten_append, List.flatten_singleton]
    exact ⟨ht, hk.trans hround⟩

/-- A round that can always be repeated gives an execution without end. -/
theorem exists_endless_of_rounds {p : Nat} (hp : 0 < p) {I : State → Prop} {as : List Answer}
    (round : ∀ s, I s → ∃ t, Steps p s t ∧ I t ∧ Quietly as s t) {s : State} (hs : I s) :
    ∃ f, Endless f ∧ f 0 = s ∧ ∀ k, Quietly (List.replicate k as).flatten s (f (p * k)) := by
  refine ⟨fun k => nextOf^[k] s, fun k => ?_, rfl, fun k => (iterate_rounds round hs k).2⟩
  obtain ⟨t, hsteps, -⟩ := round _ (iterate_rounds round hs (k / p)).1
  have hstep := hsteps.iterate.2 (k % p) (Nat.mod_lt k hp)
  rwa [← Function.iterate_add_apply, ← Function.iterate_add_apply, Nat.add_right_comm, Nat.mod_add_div] at hstep

/-! ### The steps of a round -/

/-- The host begins its loop again. -/
theorem step_begins_loop {s : State} (hin : s.inbox = []) :
    ∃ t, step s = .next t ∧ t.inbox = s.hostLoop ∧ Quietly [] s t :=
  ⟨_, step_of_idle hin, rfl, quietly_queue s s.hostLoop s.window⟩

theorem quietly_acceptCommand (r : Request) (rest : List Input) (s : State) :
    Quietly [] s (acceptCommand r rest s) := quietly_queue s rest r.window

/-- A command that only answers. -/
theorem step_quietly {s : State} {r : Request} {rest : List Input} {i : Instr} {as : List Answer}
    (hin : s.inbox = .command r :: rest) (hr : decode r.word = .ok i) (hsel : s.st.sel = false)
    (h : ∃ t, exec i (acceptCommand r rest s) = .next t ∧ Quietly as (acceptCommand r rest s) t) :
    ∃ t, step s = .next t ∧ t.inbox = rest ∧ Quietly as s t := by
  obtain ⟨t, hexec, hquiet⟩ := h
  obtain ⟨-, -, hinbox, -⟩ := exec_keeps_inputs (s := acceptCommand r rest s) hsel hexec
  exact ⟨t, (step_of_command hin hr).trans hexec, hinbox, (quietly_acceptCommand r rest s).trans hquiet⟩

/-! ### A quiet environment -/

section Quiet

variable {s t : State}

theorem quiet_later (h : QuietForEver s) (henv : t.env = s.env) (hdrawn : s.drawn ≤ t.drawn) : QuietForEver t := by
  intro k hk
  rw [State.choiceAt_congr henv]
  exact h k (hdrawn.trans hk)

theorem acked_of_quiet (h : QuietForEver s) (n : Nat) : s.acked n := fun k _ => (h (s.drawn + k) (by omega)).1

theorem ctlAfter_of_quiet (h : QuietForEver s) : ∀ n, s.ctlAfter n = s.ctl
  | 0 => rfl
  | n + 1 => by
    obtain ⟨-, hmove, -⟩ := h (s.drawn + n) (Nat.le_add_right _ _)
    rw [State.ctlAfter, hmove, Controller.move_nothing, ctlAfter_of_quiet h n]

theorem reported_of_quiet (h : QuietForEver s) : s.reported = s := by
  obtain ⟨-, -, hreport⟩ := h s.drawn le_rfl
  rw [State.reported, State.choice, hreport, Controller.report]

/-- A running block in an environment that is quiet for ever. -/
structure RunsQuietly (s : State) : Prop where
  running : s.st.halted = false
  idle : s.st.sel = false
  quiet : QuietForEver s

theorem RunsQuietly.next {as : List Answer} (h : RunsQuietly s) (hq : Quietly as s t) : RunsQuietly t :=
  ⟨by rw [hq.st, h.running], by rw [hq.st, h.idle], quiet_later h.quiet hq.env hq.drawn⟩

/-- A command that moves the bus, leaves the controller as it was and answers. -/
theorem quietly_respond {r : Response} (h : BusMoves s t) (hsel : t.st.sel = s.st.sel) (hctl : t.ctl = s.ctl) :
    Quietly [⟨r, []⟩] s (t.respond r []) :=
  ⟨h.st_eq hsel, hctl, h.params, h.env, h.hostLoop, h.drawn, congrArg (· ++ [_]) h.answers⟩

end Quiet

/-! ### The stalled capture -/

/-- A capture is in progress, the done flag is clear, and nothing will complete it. -/
structure Stalled (s : State) : Prop where
  runs : RunsQuietly s
  ctl : s.ctl = { cleared := true, done := .known false, fifo := .capturing }
  apart : BitVec.ofNat 8 s.params.regStatus.toNat ≠ s.params.burstCmd

theorem Stalled.next {as : List Answer} {s t : State} (h : Stalled s) (hq : Quietly as s t) : Stalled t :=
  ⟨h.runs.next hq, hq.ctl.trans h.ctl, by rw [hq.params]; exact h.apart⟩

/-- A `POLL` of a stalled capture answers `DONE` 0. -/
theorem Stalled.poll {s : State} (h : Stalled s) :
    ∃ t, exec .poll s = .next t ∧ Quietly [⟨okResponse 0, []⟩] s t := by
  obtain ⟨⟨hrun, hsel, hquiet⟩, hctl, hreg⟩ := h
  have hack := acked_of_quiet hquiet 2
  have hbit : doneBitOf s.params (s.byteRead s.params.regStatus) = false := by
    rw [State.byteRead_of_register hreg, Controller.readRegister_status, ctlAfter_of_quiet hquiet]
    exact Controller.statusByte_doneBit _ _ (by rw [hctl]; rfl)
  have hkept : (s.afterRead s.params.regStatus).ctl = s.ctl := by
    rw [State.afterRead_ctl_of_register hreg, ctlAfter_of_quiet hquiet]
  obtain ⟨_, u, -, hmoves, hidle, -, rfl⟩ := (rdReg_spec s.params.regStatus hsel).done_of_acked hack
  rw [exec_poll_of_acked hrun hsel hack, pollResponse, hbit]
  exact ⟨_, rfl, quietly_respond hmoves (hidle.trans hsel.symm) hkept⟩

/-- One round of the host that polls. -/
theorem Stalled.round {r : Request} (hr : decode r.word = .ok .poll) (s : State)
    (h : Stalled s ∧ s.inbox = [] ∧ s.hostLoop = [.command r]) :
    ∃ t, Steps 2 s t ∧ (Stalled t ∧ t.inbox = [] ∧ t.hostLoop = [.command r]) ∧
      Quietly [⟨okResponse 0, []⟩] s t := by
  obtain ⟨hs, hin, hloop⟩ := h
  obtain ⟨a, hbegin, hina, hqa⟩ := step_begins_loop hin
  have ha := hs.next hqa
  obtain ⟨t, hpoll, hint, hqt⟩ := step_quietly (hina.trans hloop) hr ha.runs.idle
    (ha.next (quietly_acceptCommand r [] a)).poll
  have hq := hqa.trans hqt
  exact ⟨t, .more hbegin (.more hpoll (.none t)), ⟨hs.next hq, hint, hq.hostLoop.trans hloop⟩, hq⟩

/-! ### The length that never passes -/

/-- Four addresses that differ, and read commands other than `BURST_CMD`. -/
theorem lengthRegistersApart_of_nodup {p : Params} (h : [p.regStatus, p.regLenLo, p.regLenMid, p.regLenHi].Nodup)
    (hburst : ∀ a ∈ [p.regLenLo, p.regLenMid, p.regLenHi], BitVec.ofNat 8 a.toNat ≠ p.burstCmd) :
    LengthRegistersApart p := by
  simp only [List.nodup_cons, List.mem_cons, List.not_mem_nil, or_false, not_or] at h
  obtain ⟨⟨sl, sm, sh⟩, ⟨lm, lh⟩, mh, -⟩ := h
  exact ⟨Ne.symm sl, Ne.symm sm, Ne.symm sh, Ne.symm lm, Ne.symm lh, Ne.symm mh, hburst _ (by simp),
    hburst _ (by simp), hburst _ (by simp)⟩

/-- A session is open over a completed capture that reports the length `len`, and nothing will change it. -/
structure Measured (frame : List Byte) (pos : Nat) (len : BitVec 23) (s : State) : Prop where
  runs : RunsQuietly s
  opened : s.st.triggered = true
  fifo : s.ctl.fifo = .complete frame pos len
  apart : LengthRegistersApart s.params

section Measured

variable {frame : List Byte} {pos : Nat} {len : BitVec 23}

theorem Measured.next {as : List Answer} {s t : State} (h : Measured frame pos len s) (hq : Quietly as s t) :
    Measured frame pos len t :=
  ⟨h.runs.next hq, by rw [hq.st, h.opened], by rw [hq.ctl, h.fifo], by rw [hq.params]; exact h.apart⟩

/-- An `FLEN` answers the length reported. -/
theorem Measured.flen {s : State} (h : Measured frame pos len s) :
    ∃ t, exec .flen s = .next t ∧ Quietly [⟨okResponse (BitVec.ofNat 24 len.toNat), []⟩] s t := by
  obtain ⟨⟨hrun, hsel, hquiet⟩, -, hfifo, hregs⟩ := h
  have hack := acked_of_quiet hquiet 6
  obtain ⟨hlen, hkept⟩ := lengthRead_of_complete hfifo hregs
  obtain ⟨_, u, -, hmoves, hidle, -, rfl⟩ := (readLength_spec hsel).done_of_acked hack
  rw [exec_flen_of_acked hrun hsel hack]
  rw [reported_of_quiet hquiet] at hmoves hidle ⊢
  rw [hlen]
  exact ⟨_, rfl, quietly_respond hmoves (hidle.trans hsel.symm) hkept⟩

/-- A `TRIG` is refused. -/
theorem Measured.trig {s : State} (h : Measured frame pos len s) :
    ∃ t, exec .trig s = .next t ∧ Quietly [⟨plainResponse .busy, []⟩] s t :=
  ⟨_, exec_trig_of_open h.runs.running h.opened, quietly_respond (BusMoves.refl s) rfl rfl⟩

/-- One round of the host that asks for the length and triggers. -/
theorem Measured.round {r r' : Request} (hr : decode r.word = .ok .flen) (hr' : decode r'.word = .ok .trig)
    (s : State) (h : Measured frame pos len s ∧ s.inbox = [] ∧ s.hostLoop = [.command r, .command r']) :
    ∃ t, Steps 3 s t ∧ (Measured frame pos len t ∧ t.inbox = [] ∧ t.hostLoop = [.command r, .command r']) ∧
      Quietly [⟨okResponse (BitVec.ofNat 24 len.toNat), []⟩, ⟨plainResponse .busy, []⟩] s t := by
  obtain ⟨hs, hin, hloop⟩ := h
  obtain ⟨a, hbegin, hina, hqa⟩ := step_begins_loop hin
  have ha := hs.next hqa
  obtain ⟨b, hflen, hinb, hqb⟩ := step_quietly (hina.trans hloop) hr ha.runs.idle
    (ha.next (quietly_acceptCommand r _ a)).flen
  have hb := ha.next hqb
  obtain ⟨t, htrig, hint, hqt⟩ := step_quietly hinb hr' hb.runs.idle (hb.next (quietly_acceptCommand r' [] b)).trig
  have hq := (hqa.trans hqb).trans hqt
  exact ⟨t, .more hbegin (.more hflen (.more htrig (.none t))), ⟨hs.next hq, hint, hq.hostLoop.trans hloop⟩, hq⟩

end Measured

end Sys2Proof.Machine

namespace Sys2Proof

open Machine

/-- Settles O58: a round of either host leaves it where it began. -/
theorem livenessFailuresNeverEnd : Obligations.LivenessFailuresNeverEnd := by
  unfold Obligations.LivenessFailuresNeverEnd
  refine ⟨fun s r hrun hsel hquiet hcleared hdone hfifo hreg hin hloop hr => ?_,
    fun s r r' frame pos len hrun hsel hopen hquiet hfifo _ hnodup hburst hin hloop hr hr' => ?_⟩
  · have hctl : s.ctl = { cleared := true, done := .known false, fifo := .capturing } := by
      rw [← hcleared, ← hdone, ← hfifo]
    have hs : Stalled s := ⟨⟨hrun, hsel, hquiet⟩, hctl, hreg⟩
    obtain ⟨f, hf, h0, hrounds⟩ := exists_endless_of_rounds Nat.two_pos (Stalled.round hr) ⟨hs, hin, hloop⟩
    refine ⟨f, hf, h0, fun k => ⟨(hrounds k).st, (hrounds k).ctl, ?_⟩⟩
    rw [(hrounds k).answers, List.flatten_replicate_singleton]
    rfl
  · have hs : Measured frame pos len s :=
      ⟨⟨hrun, hsel, hquiet⟩, hopen, hfifo, lengthRegistersApart_of_nodup hnodup hburst⟩
    obtain ⟨f, hf, h0, hrounds⟩ := exists_endless_of_rounds (Nat.succ_pos 2) (Measured.round hr hr')
      ⟨hs, hin, hloop⟩
    exact ⟨f, hf, h0, fun k => ⟨(hrounds k).st, (hrounds k).ctl, (hrounds k).answers⟩⟩

end Sys2Proof
end

section
/-! Power-on and `Reset`, what a read of the done bit gives until a `TRIG` is accepted, and what the host can tell from
the responses alone (70_reset_and_hazards.md R140, R144, R145, 93_implementation_defined.md U13). -/

namespace Sys2Proof.Machine

/-! ### The done bit and the clear write of `TRIG` (93_implementation_defined.md U13) -/

@[simp] theorem illegalCommand_ctl (s : State) : (illegalCommand s).ctl = s.ctl := by
  obtain ⟨r, -, -, h⟩ := illegalCommand_eq s
  rw [h, State.respond_ctl]

/-- No command takes back that the clear write of a `TRIG` is performed. -/
theorem exec_keeps_cleared {i : Instr} {s t : State} (hsel : s.st.sel = false) (hcleared : s.ctl.cleared = true)
    (h : exec i s = .next t) : t.ctl.cleared = true := by
  rcases exec_outcome hsel h with rfl | ⟨r, -, rfl⟩ | ⟨u, bs, r, c⟩ | ⟨u, bs, c⟩
  · exact hcleared
  · split <;> exact hcleared
  · rw [c.result]
    exact c.moves.cleared hcleared
  · rw [c.result]
    exact c.moves.cleared hcleared

/-- Where the clear write of `TRIG` fails the done bit stays a draw (log entry 29). -/
theorem triggerWrites_settled_of_nack {s : State} (hsel : s.st.sel = false) (hdraws : s.ctl.cleared = false)
    (hnack : ¬s.acked 2) : (triggerWrites s).Settled false := by
  have hspec := wrReg_spec s.params.regClr s.params.valClr hsel
  have hsettled := wrReg_settled s.params.regClr s.params.valClr hdraws
  rw [triggerWrites]
  cases hw : wrReg s.params.regClr s.params.valClr s with
  | done a u =>
    rw [hw] at hspec
    obtain ⟨-, -, rfl, -, hacks⟩ := hspec
    exact absurd (fun k hk => hacks _ (Nat.le_add_right _ _) (Nat.add_lt_add_left hk _)) hnack
  | nack u =>
    rw [hw] at hsettled
    exact hsettled

/-- A command that settles the done bit is a `TRIG` accepted by a running block, its clear write acknowledged. -/
theorem exec_settles_done_bit {i : Instr} {s t : State} (hsel : s.st.sel = false) (hdraws : s.ctl.cleared = false)
    (h : exec i s = .next t) (hcleared : t.ctl.cleared = true) :
    i = .trig ∧ s.st.halted = false ∧ s.st.triggered = false ∧ s.acked 2 := by
  have hchanged : t.ctl.cleared ≠ s.ctl.cleared := by rw [hdraws, hcleared]; exact Bool.false_ne_true.symm
  obtain rfl : i = .trig := by
    by_contra hi
    exact hchanged (exec_cleared hi h)
  cases hrun : s.st.halted with
  | true =>
    rw [exec_of_halted _ hrun] at h
    obtain rfl := Host.Outcome.next.inj h
    exact absurd rfl hchanged
  | false =>
    cases hidle : s.st.triggered with
    | true =>
      rw [exec_trig_of_open hrun hidle] at h
      obtain rfl := Host.Outcome.next.inj h
      exact absurd rfl hchanged
    | false =>
      refine ⟨rfl, rfl, rfl, by_contra fun hnack => hchanged ?_⟩
      simp only [exec, execTrig, unlessHalted_of_running _ hrun, hidle, Bool.false_eq_true, if_false,
        Host.Outcome.next.injEq] at h
      rw [hdraws]
      exact h ▸ (triggerWrites_settled_of_nack hsel hdraws hnack).settle busFault_ctl fun _ _ => rfl

/-- Until the done bit is settled a `POLL` answers a bit of the environment's draw (70_reset_and_hazards.md R145). -/
theorem doneBitOf_byteRead_of_draws {s : State} (hreg : BitVec.ofNat 8 s.params.regStatus.toNat ≠ s.params.burstCmd)
    (hdraws : s.ctl.cleared = false) :
    doneBitOf s.params (s.byteRead s.params.regStatus) = (s.drawAt 1).getLsbD s.params.doneBit.val := by
  have hdraws' : (s.ctlAfter 2).cleared = false := (s.ctlAfter_cleared 2).trans hdraws
  rw [State.byteRead_of_register hreg, Controller.readRegister_status,
    Controller.statusByte_of_unsettled _ _ (.inl hdraws'), doneBitOf]

/-! ### The answer of a command and the record with it (60_exceptions.md R120, R124, R128) -/

/-- Whether a session is open after a command that answered `OK`, from the flag `LAST` of its answer and whether one
was open before. -/
def sessionAfter (i : Instr) (last wasOpen : Bool) : Bool :=
  match i with
  | .conv _ => wasOpen
  | .rdreg _ => wasOpen
  | .wrreg _ _ => wasOpen
  | .trig => true
  | .poll => wasOpen
  | .flen => wasOpen
  | .burst _ => wasOpen
  | .fill _ => !last && wasOpen

/-- The answers a running block can give to a command, each with what it says of the record. -/
inductive Answered (i : Instr) (s t : State) : Prop where
  | ok (a : Answer) (added : t.answers = s.answers ++ [a]) (status : a.response.status = .ok)
      (session : t.st.triggered = sessionAfter i a.response.last s.st.triggered) (running : t.st.halted = false)
  | fault (a : Answer) (added : t.answers = s.answers ++ [a]) (status : a.response.status = .busFault)
      (record : t.st = { s.st with halted := true })
  | busy (trig : i = .trig) (result : t = s.respond (plainResponse .busy) [])
  | noSession (fill : ∃ w, i = .fill w) (closed : s.st.triggered = false)
      (result : t = s.respond (plainResponse .noSession) [])

section Answers

variable {i : Instr} {s u : State}

theorem Answered.of_respond {r : Response} {ws : List (Nat × Byte)} (hans : u.answers = s.answers)
    (hrun : u.st.halted = false) (hok : r.status = .ok)
    (hsession : u.st.triggered = sessionAfter i r.last s.st.triggered) : Answered i s (u.respond r ws) :=
  .ok ⟨r, ws⟩ (by rw [State.respond_answers, hans]) hok hsession hrun

/-- The bus fault is answered `BUSFAULT`, whatever window bytes the command was to write (60_exceptions.md R124). -/
theorem busFaultWindow_answered (m : Nat) (hm : BusMoves s u) (hsel : s.st.sel = false) (hselected : u.st.sel = true) :
    Answered i s (busFaultWindow m u) := by
  have hst : { u.st with halted := true, sel := false } = { s.st with halted := true } := by rw [hm.st, ← hsel]
  rw [busFaultWindow, takeBusFault_of_selected _ (by exact hselected)]
  exact .fault _ (congrArg (· ++ _) hm.answers) rfl hst

/-- A command that uses the bus answers the bus fault, or what its last part answers. With no window byte to write
(`m = 0`) `busFaultWindow` is `busFault`. -/
theorem Bus.settle_answered {α : Type} {n : Nat} (m : Nat) {P : α → State → Prop} {op : Bus α}
    {k : α → State → State} (h : BusSpec s n false P op) (hsel : s.st.sel = false)
    (hrun : s.st.halted = false)
    (hk : ∀ a u, u.answers = s.answers → u.st.halted = false → u.st.triggered = s.st.triggered →
      Answered i s (k a u)) :
    Answered i s (op.settle (busFaultWindow m) k) := by
  cases op with
  | done a u =>
    obtain ⟨hm, hidle, -⟩ := h
    have hst := hm.st_eq (hidle.trans hsel.symm)
    exact hk a u hm.answers (by rw [hst, hrun]) (by rw [hst])
  | nack u =>
    obtain ⟨hm, hselected, -⟩ := h
    exact busFaultWindow_answered m hm hsel hselected

/-- The last part of a `FILL` answers `OK`, and `LAST` exactly where it closes the session (42_burst_stream.md R106). -/
theorem endFill_answered {w : Count} (n : Nat) (ys : List Byte) (hans : u.answers = s.answers)
    (hrun : u.st.halted = false) (hopen : u.st.triggered = s.st.triggered) :
    Answered (.fill w) s (endFill n ys u) := by
  unfold endFill
  split
  · exact .of_respond (u := closeSession u) hans hrun rfl rfl
  · exact .of_respond hans hrun rfl hopen

end Answers

/-- Every command of a running block is answered in one of the ways of `Answered`. -/
theorem exec_answered {i : Instr} {s t : State} (hsel : s.st.sel = false) (hrun : s.st.halted = false)
    (h : exec i s = .next t) : Answered i s t := by
  cases i with
  | conv v =>
    obtain rfl := Host.Outcome.next.inj ((exec_conv_of_running v hrun).symm.trans h)
    exact .of_respond rfl hrun rfl rfl
  | rdreg a =>
    simp only [exec, execRdreg, unlessHalted_of_running _ hrun, Host.Outcome.next.injEq] at h
    exact h ▸ Bus.settle_answered 0 (rdReg_spec a hsel) hsel hrun fun _ _ hans hruns hopen =>
      .of_respond hans hruns rfl hopen
  | wrreg a v =>
    simp only [exec, execWrreg, unlessHalted_of_running _ hrun, Host.Outcome.next.injEq] at h
    exact h ▸ Bus.settle_answered 0 (wrReg_spec a v hsel) hsel hrun fun _ _ hans hruns hopen =>
      .of_respond hans hruns rfl hopen
  | trig =>
    simp only [exec, execTrig, unlessHalted_of_running _ hrun, Host.Outcome.next.injEq] at h
    split at h
    · exact .busy rfl h.symm
    · exact h ▸ Bus.settle_answered 0 (triggerWrites_spec hsel) hsel hrun fun _ u hans hruns _ =>
        .of_respond (u := openSession u) hans hruns rfl rfl
  | poll =>
    simp only [exec, execPoll, unlessHalted_of_running _ hrun, Host.Outcome.next.injEq] at h
    exact h ▸ Bus.settle_answered 0 (rdReg_spec _ hsel) hsel hrun fun _ _ hans hruns hopen =>
      .of_respond hans hruns rfl hopen
  | flen =>
    simp only [exec, execFlen, unlessHalted_of_running _ hrun, Host.Outcome.next.injEq] at h
    exact h ▸ Bus.settle_answered 0 (readLength_spec hsel) hsel hrun fun _ _ hans hruns hopen =>
      .of_respond hans hruns rfl hopen
  | burst n =>
    simp only [exec, execBurst, hrun, Bool.false_eq_true, if_false] at h
    split at h
    · obtain rfl := Host.Outcome.next.inj h
      unfold burstInto
      split
      · exact .of_respond rfl hrun rfl rfl
      · exact Bus.settle_answered _ (burstRead_spec _ hsel) hsel hrun fun bs u hans hruns hopen =>
          .of_respond (u := (u.fillWindow bs).consumed n.toNat) hans hruns rfl hopen
    · cases h
  | fill w =>
    simp only [exec, execFill, hrun, Bool.false_eq_true, if_false] at h
    split at h
    · exact .noSession ⟨w, rfl⟩ ‹_› (Host.Outcome.next.inj h).symm
    · split at h
      · obtain rfl := Host.Outcome.next.inj h
        unfold fillInto
        split
        · exact endFill_answered 0 [] rfl hrun rfl
        · exact Bus.settle_answered _ (rawRead_spec _ hsel) hsel hrun fun _ _ hans hruns hopen =>
            endFill_answered _ _ hans hruns hopen
      · cases h

/-! ### What the host knows (70_reset_and_hazards.md R144) -/

/-- What the host knows of the session and of the halt agrees with the block. -/
def HostView.Tracks (h : HostView) (s : State) : Prop := h.session = s.st.triggered ∧ h.stopped = s.st.halted

section HostLearns

variable {h : HostView} {i : Instr} {r : Response}

/-- After `OK` a host that has not stopped knows the session as `sessionAfter` has it, and goes on. -/
theorem hostLearns_of_ok (hgoes : h.stopped = false) (hok : r.status = .ok) :
    (hostLearns h i r).session = sessionAfter i r.last h.session ∧ (hostLearns h i r).stopped = false := by
  simp only [hostLearns, if_pos hok]
  cases i with
  | fill w => cases hl : r.last <;> simp [sessionAfter, HostView.start, hgoes]
  | _ => exact ⟨rfl, hgoes⟩

/-- `BUSFAULT` and `HALTED` make the host stop (60_exceptions.md R133). -/
theorem hostLearns_of_stop (hstop : r.status = .busFault ∨ r.status = .halted) :
    hostLearns h i r = { h with stopped := true } := by
  have hne : r.status ≠ .ok := by rcases hstop with e | e <;> simp [e]
  simp only [hostLearns, if_neg hne, if_pos hstop]

/-- After any other refusal the host knows what it knew. -/
theorem hostLearns_of_refusal (hne : r.status ≠ .ok) (hfault : r.status ≠ .busFault) (hhalted : r.status ≠ .halted) :
    hostLearns h i r = h := by
  simp only [hostLearns, if_neg hne, if_neg (not_or.2 ⟨hfault, hhalted⟩)]

end HostLearns

/-- A refusal other than `HALTED` changes neither the block nor what the host knows. -/
theorem HostView.Tracks.refused {h : HostView} {i : Instr} {s : State} {status : Status} (htracks : h.Tracks s)
    (hok : status ≠ .ok) (hfault : status ≠ .busFault) (hhalted : status ≠ .halted) :
    ∃ a, (s.respond (plainResponse status) []).answers = s.answers ++ [a] ∧
      (hostLearns h i a.response).Tracks (s.respond (plainResponse status) []) := by
  refine ⟨_, State.respond_answers _ _ _, ?_⟩
  rw [hostLearns_of_refusal hok hfault hhalted]
  exact htracks

/-- A view that agrees with the block before a command agrees with it after the command's answer. -/
theorem HostView.Tracks.after_exec {h : HostView} {i : Instr} {s t : State} (htracks : h.Tracks s) (hsel : s.st.sel = false)
    (hexec : exec i s = .next t) :
    ∃ a, t.answers = s.answers ++ [a] ∧ (hostLearns h i a.response).Tracks t := by
  obtain ⟨hsession, hstopped⟩ := htracks
  cases hh : s.st.halted with
  | true =>
    rw [exec_of_halted i hh] at hexec
    obtain rfl := Host.Outcome.next.inj hexec
    refine ⟨_, State.respond_answers _ _ _, ?_⟩
    rw [hostLearns_of_stop (.inr rfl)]
    exact ⟨hsession, hh.symm⟩
  | false =>
    have hgoes : h.stopped = false := hstopped.trans hh
    cases exec_answered hsel hh hexec with
    | ok a added status session running =>
      obtain ⟨hlearns, hgoes'⟩ := hostLearns_of_ok (i := i) hgoes status
      exact ⟨a, added, by rw [hlearns, hsession, session], hgoes'.trans running.symm⟩
    | fault a added status record =>
      refine ⟨a, added, ?_⟩
      rw [hostLearns_of_stop (.inl status), HostView.Tracks, record]
      exact ⟨hsession, rfl⟩
    | busy trig result => exact result ▸ HostView.Tracks.refused ⟨hsession, hstopped⟩ nofun nofun nofun
    | noSession fill closed result => exact result ▸ HostView.Tracks.refused ⟨hsession, hstopped⟩ nofun nofun nofun

/-- A host that keeps the protocol issues nothing once it must stop (60_exceptions.md R133). -/
theorem hostMay_goes_on {h : HostView} {i : Instr} (hmay : hostMay h i = true) : h.stopped = false := by
  simp only [hostMay, Bool.and_eq_true, Bool.not_eq_true'] at hmay
  exact hmay.1

/-- A host that keeps the protocol fills only in a session (70_reset_and_hazards.md R144). -/
theorem hostMay_fill_session {h : HostView} {w : Count} (hmay : hostMay h (.fill w) = true) : h.session = true := by
  simp only [hostMay, Bool.and_eq_true] at hmay
  exact hmay.2.1.1

end Sys2Proof.Machine

namespace Sys2Proof

open Machine

/-- Settles O28: at power-on and after a `Reset` the record is false, of the steps only a `TRIG` sets it, and until then
the tested bit of the byte read is the draw's. -/
theorem pollDrawsBeforeTrigger : Obligations.PollDrawsBeforeTrigger := by
  unfold Obligations.PollDrawsBeforeTrigger
  refine ⟨rfl, fun s t rest hin h => ?_, fun s t hs hdraws h hcleared => ?_,
    fun s hrun hsel hack hreg hdraws => ?_⟩
  · rw [step, hin] at h
    rw [← Host.Outcome.next.inj h, resetEvent_ctl]
  · rcases step_cases h with ⟨-, rfl⟩ | ⟨rest, -, rfl⟩ | ⟨r, rest, hin, ⟨i, hdecode, hexec⟩ | rfl⟩
    · exact absurd (hdraws.symm.trans hcleared) Bool.false_ne_true
    · exact absurd hcleared Bool.false_ne_true
    · obtain ⟨rfl, hrun, hidle, hack⟩ :=
        exec_settles_done_bit (s := acceptCommand r rest s) hs.1 hdraws hexec hcleared
      exact ⟨r, rest, hin, hdecode, hrun, hidle, hack⟩
    · rw [illegalCommand_ctl] at hcleared
      exact absurd (hdraws.symm.trans hcleared) Bool.false_ne_true
  · refine ⟨_, exec_poll_of_acked hrun hsel hack, ?_, ?_, rfl⟩
    · rw [State.respond_answers, pollResponse, doneBitOf_byteRead_of_draws hreg hdraws]
      rfl
    · rw [State.respond_ctl, State.afterRead_ctl_of_register hreg, State.ctlAfter_cleared, hdraws]

/-- Settles O29: a `Reset` makes the record false, and every other step keeps it. -/
theorem triggerClearLasts : Obligations.TriggerClearLasts := by
  unfold Obligations.TriggerClearLasts
  intro s t hs hcleared h
  rcases step_cases h with ⟨hin, rfl⟩ | ⟨rest, hin, rfl⟩ | ⟨r, rest, hin, hcommand⟩
  · exact iff_of_false (by simp [hcleared]) (by simp [hin])
  · exact iff_of_true rfl ⟨rest, hin⟩
  · have hkept : t.ctl.cleared = true := by
      rcases hcommand with ⟨i, -, hexec⟩ | rfl
      · exact exec_keeps_cleared (s := acceptCommand r rest s) hs.1 hcleared hexec
      · rw [illegalCommand_ctl]
        exact hcleared
    exact iff_of_false (by simp [hkept]) (by simp [hin])

/-- Settles O59: each answer says what became of the session and of the halt. -/
theorem hostViewTracksBlock : Obligations.HostViewTracksBlock := by
  unfold Obligations.HostViewTracksBlock
  exact fun h i s t hsel hsession hstopped hexec => HostView.Tracks.after_exec ⟨hsession, hstopped⟩ hsel hexec

/-- Settles O60: the block runs, since the host has not stopped, and a host that fills has a session open. -/
theorem protocolHostRefusedOnlyByBusy : Obligations.ProtocolHostRefusedOnlyByBusy := by
  unfold Obligations.ProtocolHostRefusedOnlyByBusy
  intro h i s t hsel hsession hstopped hmay hexec
  have hrun : s.st.halted = false := hstopped.symm.trans (hostMay_goes_on hmay)
  cases exec_answered hsel hrun hexec with
  | ok a added status session running => exact ⟨a, added, .inl status⟩
  | fault a added status record => exact ⟨a, added, .inr (.inl status)⟩
  | busy trig result => exact ⟨_, by rw [result, State.respond_answers], .inr (.inr ⟨rfl, trig⟩)⟩
  | noSession fill closed result =>
    obtain ⟨w, rfl⟩ := fill
    exact absurd (closed.symm.trans (hsession.symm.trans (hostMay_fill_session hmay))) Bool.false_ne_true

/-- Settles O11: each field is reset to its value by definition. -/
theorem resetValues : Obligations.ResetValues := by
  unfold Obligations.ResetValues
  exact ⟨rfl, rfl, rfl⟩

/-- Settles O52: deselected with an empty trace, no byte delivered, and no window but the empty one. -/
theorem invariantsHoldAtReset : Obligations.InvariantsHoldAtReset := by
  unfold Obligations.InvariantsHoldAtReset
  exact ⟨⟨rfl, rfl⟩, State.sessionOk_of_zero rfl, rfl, rfl, rfl⟩

end Sys2Proof
end

section
/-! The command port's two remaining moves, the `Reset` event (70_reset_and_hazards.md R140) and the stop at a short
window (30_encoding.md R66), and the window a bus fault leaves (60_exceptions.md R124, 93_implementation_defined.md
U6). -/

namespace Sys2Proof.Machine

theorem step_of_reset {s : State} {rest : List Input} (hin : s.inbox = .reset :: rest) :
    step s = .next (resetEvent (takeInput rest s)) := by
  simp only [step, hin]

/-! ### The stop at a short window -/

/-- A command that stops is one of a running block with a window too short for what it is to write. -/
theorem short_window_of_fault {i : Instr} {s : State} {f : Fault} (h : exec i s = .fault f) :
    s.st.halted = false ∧ s.window.size < windowCount s i := by
  constructor
  · by_contra hhalt
    rw [exec_of_halted i (Bool.eq_true_of_not_eq_false hhalt)] at h
    cases h
  · by_contra hfits
    obtain ⟨t, hnext⟩ := exec_next_of_fits (Nat.not_lt.1 hfits)
    rw [hnext] at h
    cases h

/-- A `FILL` that stops has a session open: without one it is refused before the window is looked at. -/
theorem session_of_fill_fault {w : Count} {s : State} {f : Fault} (h : exec (.fill w) s = .fault f) :
    s.st.triggered = true := by
  by_contra hclosed
  rw [fillRefusedWithoutSession w s (short_window_of_fault h).1 (Bool.eq_false_of_not_eq_true hclosed)] at h
  cases h

theorem exec_burst_of_short {n : Count} {s : State} (hrun : s.st.halted = false) (hshort : s.window.size < n.toNat) :
    exec (.burst n) s = .fault .windowOverrun := by
  simp [exec, execBurst, hrun, hshort]

theorem exec_fill_of_short {w : Count} {s : State} (hrun : s.st.halted = false) (hopen : s.st.triggered = true)
    (hshort : s.window.size < fillCount w s.st.bytesDelivered) : exec (.fill w) s = .fault .windowOverrun := by
  simp [exec, execFill, hrun, hopen, hshort]

/-! ### The window after a bus fault -/

/-- The window bytes of a command that faulted are the draws of the choices after its last transfer's. -/
theorem FaultedBy.window_read {i : Instr} {s t u : State} {bs : List Byte} (c : FaultedBy i s t u bs) {j : Nat}
    (hj : j < windowCount s i) :
    Memory.read t.window.cells j = some (s.choiceAt (u.drawn + j)).draw := by
  have hlen : j < bs.length := by rwa [c.drawn, State.draws_length]
  calc Memory.read t.window.cells j
    _ = Memory.read (s.window.fill bs).cells j := by rw [c.result]
    _ = bs[j]? := Window.read_fill_inside s.window hlen
    _ = some (u.choiceAt (u.drawn + j)).draw := by rw [c.drawn, State.draws_getElem u _ _ _ hj]
    _ = some (s.choiceAt (u.drawn + j)).draw := by rw [c.moves.choiceAt]

end Sys2Proof.Machine

namespace Sys2Proof

open Machine

/-- Settles O47: `k` is the choice after the failed transfer's, the first that no transfer used. -/
theorem faultingWindowDrawn : Obligations.FaultingWindowDrawn := by
  unfold Obligations.FaultingWindowDrawn
  intro i s t n hrun hsel hi h hhalt
  obtain rfl : n = windowCount s i := by
    rcases hi with ⟨m, rfl, rfl⟩ | ⟨w, rfl, rfl⟩ <;> rfl
  rcases exec_running_or_faulted hrun hsel h with ⟨hruns, -⟩ | ⟨u, bs, c⟩
  · exact absurd (hruns.symm.trans hhalt) Bool.false_ne_true
  · exact ⟨u.drawn, c.used, c.failed, c.acks, by rw [c.result], fun j => c.window_read⟩

/-- Settles O10: the step is `resetEvent`, which writes these fields alone. -/
theorem resetEventEffect : Obligations.ResetEventEffect := by
  unfold Obligations.ResetEventEffect
  exact fun s rest => step_of_reset

/-- Settles O13: a stop is only at a short window, and `BURST` and `FILL` do stop there. -/
theorem shortWindowStops : Obligations.ShortWindowStops := by
  unfold Obligations.ShortWindowStops
  refine ⟨fun n s => ⟨short_window_of_fault, ?_⟩, fun w s => ⟨fun h => ?_, ?_⟩⟩
  · rintro ⟨hrun, hshort⟩
    exact exec_burst_of_short hrun hshort
  · obtain ⟨hrun, hshort⟩ := short_window_of_fault h
    exact ⟨hrun, session_of_fill_fault h, hshort⟩
  · rintro ⟨hrun, hopen, hshort⟩
    exact exec_fill_of_short hrun hopen hshort

end Sys2Proof
end
